-- ==== Sys2Proof/Word.lean ====
section
/-! DEFINITION. The two word types of the core: a byte and a level (spec rule R7). -/
namespace Sys2Proof

/-- An unsigned 8-bit value, bits numbered 7 (most significant) down to 0 (rule R7). -/
abbrev Byte := BitVec 8

/-- A level, 0 or 1 (rule R7): `true` is 1 (asserted), `false` is 0 (deasserted). -/
abbrev Level := Bool

end Sys2Proof
end

