-- ==== Sys2Proof/Syntax.lean ====
section
/-! DEFINITION. The rows of the opcode table: two instructions and two trailing forms (rules R51, R52, R56, R62). -/
namespace Sys2Proof

/-- One constructor per row of spec/opcode_table.json. `x` holds opcode bits 7:1, which are ignored (rule R53); they are
kept so that an instruction says which bytes it was read from (the notation `READ.o a` of rule R60). -/
inductive Instr where
  /-- READ a: format R, 2 bytes (rules R51, R97). -/
  | read (x : BitVec 7) (a : Byte)
  /-- WRITE a, d: format W, 3 bytes (rules R52, R98). -/
  | write (x : BitVec 7) (a d : Byte)
  /-- T1, a lone trailing byte `b` (rules R56, R99). -/
  | trailT1 (b : Byte)
  /-- T2, a WRITE opcode and address with no data byte (rules R56, R100). -/
  | trailT2 (x : BitVec 7) (a : Byte)
  deriving DecidableEq, Repr

/-- The two trailing forms are not instructions (rule R62). -/
def Instr.isTrailing : Instr → Bool
  | .read _ _ => false
  | .write _ _ _ => false
  | .trailT1 _ => true
  | .trailT2 _ _ => true

/-- The row's length in bytes (rules R55, R56). -/
def Instr.length : Instr → Nat
  | .read _ _ => 2
  | .write _ _ _ => 3
  | .trailT1 _ => 1
  | .trailT2 _ _ => 2

/-- The same instruction with its ignored opcode bits 0, as an encoder emits it (rules R58, R61). T1's byte is in opcode
position and has no canonical value. -/
def Instr.canonical : Instr → Instr
  | .read _ a => .read 0 a
  | .write _ a d => .write 0 a d
  | .trailT1 b => .trailT1 b
  | .trailT2 _ a => .trailT2 0 a

end Sys2Proof
end

