-- ==== Sys2Proof/WellFormed.lean ====
section
/-! DEFINITION. Where a row of the opcode table may stand in a stream: the table's `selected_when`, and a listing whose
only trailing form is its last entry (rules R55, R56, R61). Every field of `Instr` is legal at every value (R34, R58). -/
namespace Sys2Proof

/-- The row is selected when `rem` bytes remain: an instruction when all its bytes are there, a trailing form exactly at
the end of the stream (rule R56). -/
def Instr.selectedWhen (rem : Nat) : Instr → Bool
  | .read _ _ => 2 ≤ rem
  | .write _ _ _ => 3 ≤ rem
  | .trailT1 _ => rem = 1
  | .trailT2 _ _ => rem = 2

/-- A listing of a stream: a trailing form only as the last entry (rules R56, R60). -/
def wellFormedListing : List Instr → Bool
  | [] => true
  | [_] => true
  | i :: is => !i.isTrailing && wellFormedListing is

/-- A program is a listing without trailing forms (rule R61). -/
def isProgram (p : List Instr) : Bool := p.all fun i => !i.isTrailing

end Sys2Proof
end

