-- ==== Sys2Proof/Decode.lean ====
section
/-! DEFINITION. The decoder of rules R95 and R104, total on every byte list, and the encoder of rule R61. -/
namespace Sys2Proof

/-- Why the decoder gives no instruction. Every byte decodes (rules R57, R58): only the end of the stream stops it. -/
inductive DecodeStop where
  /-- No byte is left (rule R56): the scan ends. -/
  | endOfStream
  deriving DecidableEq, Repr

/-- Bit 0 of the opcode byte, the only bit that selects (rule R53): 1 is WRITE. -/
def opcodeSelects (o : Byte) : Bool := o.getLsbD 0

/-- Bits 7:1 of the opcode byte, ignored (rule R53). -/
def opcodeIgnored (o : Byte) : BitVec 7 := o.extractLsb' 1 7

/-- The opcode byte with ignored bits `x` and selector bit `op` (rules R51, R52). -/
def opcodeByte (x : BitVec 7) (op : Bool) : Byte := x ++ BitVec.ofBool op

/-- The row at the head of the bytes that remain, and what follows it (rules R54, R55, R56, R95). -/
def decodeNext : List Byte → Except DecodeStop (Instr × List Byte)
  | [] => .error .endOfStream
  | [b] => .ok (.trailT1 b, [])
  | o :: a :: rest =>
    if opcodeSelects o then
      match rest with
      | [] => .ok (.trailT2 (opcodeIgnored o) a, [])
      | d :: rest => .ok (.write (opcodeIgnored o) a d, rest)
    else .ok (.read (opcodeIgnored o) a, rest)

/-- `decode(s)` of rule R104: the instructions of a stream, and the trailing form it ends with, if any. -/
def decodeStream : List Byte → List Instr × Option Instr
  | [] => ([], none)
  | [b] => ([], some (.trailT1 b))
  | [o, a] =>
    if opcodeSelects o then ([], some (.trailT2 (opcodeIgnored o) a))
    else ([.read (opcodeIgnored o) a], none)
  | o :: a :: d :: rest =>
    if opcodeSelects o then
      let r := decodeStream rest
      (.write (opcodeIgnored o) a d :: r.1, r.2)
    else
      let r := decodeStream (d :: rest)
      (.read (opcodeIgnored o) a :: r.1, r.2)

/-- The bytes of one row (rules R51, R52, R56, R60). -/
def encode : Instr → List Byte
  | .read x a => [opcodeByte x false, a]
  | .write x a d => [opcodeByte x true, a, d]
  | .trailT1 b => [b]
  | .trailT2 x a => [opcodeByte x true, a]

/-- The bytes of a listing, with no gap (rules R50, R61). -/
def encodeStream (p : List Instr) : List Byte := p.flatMap encode

/-- `enc` of rule R61: every opcode in canonical form. -/
def encodeCanonical (p : List Instr) : List Byte := encodeStream (p.map Instr.canonical)

/-- The first `n` bytes of a number, the byte in bits 7..0 first. -/
def bytesOfNat : Nat → Nat → List Byte
  | 0, _ => []
  | n + 1, w => BitVec.ofNat 8 w :: bytesOfNat n (w / 256)

/-- The row the decoder reads from a stream of exactly the table's `nbits` bits (log 21): the number of bytes left is what
selects a trailing form (rules R56, R62). -/
def decodeTableWord (nbits w : Nat) : Option Instr :=
  match decodeNext (bytesOfNat (nbits / 8) w) with
  | .ok (i, _) => some i
  | .error _ => none

end Sys2Proof
end

