-- ==== Sys2Proof/Config.lean ====
section
/-! DEFINITION. What is fixed for one start-up (rule R6), the line set (rule R13), and the free values: opaque constants
that no proof can evaluate, one per point the spec leaves open as a draw. -/
namespace Sys2Proof

/-- A direction is `In` or `Out` (rule R7). -/
inductive Direction where
  | input
  | output
  deriving DecidableEq, Repr

/-- The 19 lines (rule R13). `addr n` is the line An, which carries bit n of the address byte; `data n` is the line Dn. -/
inductive Line where
  | req
  | ack
  | dir
  | addr (n : Fin 8)
  | data (n : Fin 8)
  deriving DecidableEq, Repr

/-- The draw at the entry of a `submit` (rules R110, R119, R120). -/
inductive EntryDraw where
  | ok
  | resourceExhausted
  | transferFault
  deriving DecidableEq, Repr, Inhabited

/-- The draw of `check_resources()`, just before each cycle (rule R119). -/
inductive ResourceDraw where
  | ok
  | resourceExhausted
  deriving DecidableEq, Repr, Inhabited

/-- The draw at the exit of a `submit` (rules R110, R120). -/
inductive ExitDraw where
  | ok
  | transferFault
  deriving DecidableEq, Repr, Inhabited

/-- A poll bound n >= 1 (rules R6, R73). -/
structure PollLimit where
  n : Nat
  positive : 1 ≤ n
  deriving DecidableEq, Repr

/-- The parameters that have an effect (rule R6): `ack_poll_limit` and `max_stream_len`. They are fixed at start-up and
no operation changes them (rule R20). -/
structure Params where
  ackPollLimit : Option PollLimit
  maxStreamLen : Option Nat
  deriving DecidableEq, Repr

/-- What a driver does with a truncated WRITE: the spec fixes `skip` (rule R6, 92_eei_decisions.md D2; log 15). -/
inductive TruncatedWritePolicy where
  | skip
  deriving DecidableEq, Repr

namespace Config

/-- The defaults of rule R6: wait forever, no bound on the stream. -/
def defaultParams : Params := { ackPollLimit := none, maxStreamLen := none }

/-- Fixed to `skip` (rule R6, D2; log 15). -/
def truncatedWritePolicy : TruncatedWritePolicy := .skip

/-- `line_id`, OPEN (rules R6, R13, R133; D24). No rule reads it (log 8). -/
opaque lineId : Line → Nat

/-- `poll_delay`, unspecified, with no effect on any rule (rules R6, R74; D11; log 8). -/
opaque pollDelay : Nat

/-- `init_out_levels`, the level of DIR at a start-up: a draw (rule R140; log 6). -/
opaque initDirLevel : Nat → Level

/-- `init_out_levels`, the levels of A7..A0 at a start-up: a draw (rule R140; log 6). -/
opaque initAddrLevels : Nat → Byte

/-- The latches of D7..D0 at a start-up, not driven while In: a draw (rule R139, U11; log 6). -/
opaque initDataLatches : Nat → Byte

/-- The latch of ACK at a start-up, never driven: a draw (rule R14; log 6). -/
opaque initAckLatch : Nat → Level

/-- The level a line in the peer's hands shows when the model does not say what the peer drives (rules R14, R68; log 3). -/
opaque freeLevel : Nat → Level

/-- The level a data line drives from its switch to Out until its next `SetLine` (rule R64, D6; log 7). -/
opaque freeLatch : Nat → Level

/-- An entry draw that the environment does not list (rule R110; log 4). -/
opaque freeEntry : Nat → EntryDraw

/-- A resource draw that the environment does not list (rule R119; log 4). -/
opaque freeResource : Nat → ResourceDraw

/-- An exit draw that the environment does not list (rule R110; log 4). -/
opaque freeExit : Nat → ExitDraw

end Config
end Sys2Proof
end

