-- ==== Sys2Proof/Machine/State.lean ====
section
/-! DEFINITION. The state of the core and of the world around it as plain data (rules R13 to R32), the reasons a step can
stop, and the state right after start-up (rules R137 to R141). -/
namespace Sys2Proof.Machine

/-! ### Lines (rules R13, R14) -/

/-- The direction and the output latch of one line (rule R14). -/
structure LineState where
  dir : Direction
  out : Level
  deriving DecidableEq, Repr

/-- The 19 lines (rule R13). Entry n of `addr` is An and entry n of `data` is Dn. -/
structure Lines where
  req : LineState
  ack : LineState
  dir : LineState
  addr : Vector LineState 8
  data : Vector LineState 8
  deriving DecidableEq, Repr

/-- Eight lines of one direction whose latches hold a byte, bit n at entry n (rule R13). -/
def busLines (d : Direction) (v : Byte) : Vector LineState 8 :=
  #v[⟨d, v.getLsbD 0⟩, ⟨d, v.getLsbD 1⟩, ⟨d, v.getLsbD 2⟩, ⟨d, v.getLsbD 3⟩,
     ⟨d, v.getLsbD 4⟩, ⟨d, v.getLsbD 5⟩, ⟨d, v.getLsbD 6⟩, ⟨d, v.getLsbD 7⟩]

/-! ### Transactions and cycles (rules R22, R23, R75) -/

/-- A BusTransaction (rule R22): direction, address, and a data byte for a Write only. Immutable: a Read's byte is the
cycle's output, not a field (90_conflicts.md C8). -/
inductive BusTransaction where
  | read (address : Byte)
  | write (address data : Byte)
  deriving DecidableEq, Repr

/-- The phases of the Handshake Engine (rule R23). -/
inductive Phase where
  | idle
  | addressAndDataAsserted
  | requestAsserted
  | peerAcknowledged
  | requestDeasserted
  deriving DecidableEq, Repr

/-- One line operation (rules R64 to R72). `waitAck b` is one poll of `WaitAck(b)`. -/
inductive LineOp where
  | setDir (l : Line) (d : Direction)
  | setLine (l : Line) (b : Level)
  | getLine (l : Line)
  | waitAck (b : Level)
  deriving DecidableEq, Repr

/-- A line operation of a cycle, with the number of the step it belongs to (`cstep`, rule R23) and the phase in which it is
performed (rule R80). -/
structure CycleOp where
  cstep : Nat
  phase : Phase
  op : LineOp
  deriving DecidableEq, Repr

/-- A cycle in progress: its record, the line operation that comes next, those after it, and the byte a running
`GetBus(DATA)` has assembled (rules R23, R71, R75). -/
structure Cycle where
  cur : BusTransaction
  now : CycleOp
  later : List CycleOp
  byte : Byte
  deriving DecidableEq, Repr

/-! ### The decoder's scan and the session (rules R24, R26, R108 to R111, R117) -/

/-- What the decoder holds for the duration of one `submit` (rule R24). -/
structure Scan where
  buf : List Byte
  pc : Nat
  results : List Byte
  deriving DecidableEq, Repr

/-- The identity of a caller (rule R3). -/
abbrev CallerId := Nat

/-- `SessionHandle(c)` (rule R108): the handle of caller c's session (log 28). -/
structure SessionHandle where
  caller : CallerId
  deriving DecidableEq, Repr

/-- Every error kind of rule R117. -/
inductive ErrorKind where
  | ok
  | resourceExhausted
  | busy
  | transferFault
  | timeout
  | lineMisuse
  | malformedTrailingInstruction
  deriving DecidableEq, Repr

/-- The kinds an `Error` outcome of `submit` can carry (rule R110). -/
inductive SubmitError where
  | resourceExhausted
  | transferFault
  | timeout
  deriving DecidableEq, Repr

/-- The outcome of a `submit` (rule R110). -/
inductive SubmitOutcome where
  | ok (results : List Byte) (consumed : Nat)
  | error (kind : SubmitError)
  deriving DecidableEq, Repr

/-- A host call of a caller (rules R108 to R110). -/
inductive HostOp where
  | acquire
  | release (h : SessionHandle)
  | submit (h : SessionHandle) (stream : List Byte)
  deriving DecidableEq, Repr

/-- Why a host operation is refused (rules R111, R143; U18, U21). -/
inductive CallRefusal where
  /-- The caller holds no session, or passes a handle that is not the active one (rule R111). -/
  | noSession
  /-- `submit` on a wedged core (rules R111, R122). -/
  | wedged
  /-- `submit` on a faulted core (rules R111, R123). -/
  | faulted
  /-- After shutdown there is no core (rule R143). -/
  | notRunning
  /-- A start-up of a running driver: the driver is started only when it is not running (rule R144; log 14). -/
  | alreadyRunning
  /-- Shutdown during a `submit` is not admitted (rule R143, U21). -/
  | submitInProgress
  deriving DecidableEq, Repr

/-- The agents (rule R3), and the platform that starts the driver up and shuts it down (rules R137, R143). -/
inductive Agent where
  | caller (c : CallerId)
  | core
  | peer
  | platform
  deriving DecidableEq, Repr

/-- What an operation answered to the agent that asked for it (rule R12; log 33). `refused` is the refusal mark of rule
R111, which a claim takes as absent (log 9). -/
inductive Reply where
  | handle (h : SessionHandle)
  | busy (c : CallerId)
  | released (c : CallerId)
  | returned (o : SubmitOutcome)
  | refused (who : Agent) (why : CallRefusal)
  deriving DecidableEq, Repr

/-- The sticky fault of rule R27. -/
inductive StickyFault where
  | lineMisuse
  deriving DecidableEq, Repr

/-- The event kinds of rule R30. -/
inductive Event where
  | evDir (l : Line) (d : Direction)
  | evSet (l : Line) (b : Level)
  | evGet (l : Line) (b : Level)
  | evBegin (tx : BusTransaction)
  | evEnd (tx : BusTransaction) (r : Option Byte)
  | evSubmit (n : Nat)
  | evReturn (o : SubmitOutcome)
  deriving DecidableEq, Repr

/-! ### The world around the core (rules R3, R31, R41, R75) -/

/-- The levels the peer drives now on ACK and on D7..D0 (entry n is Dn); `none` where the model says nothing, and a sample
is then a free draw (rules R14, R68; log 3). -/
structure PeerDrive where
  ack : Option Level
  data : Vector (Option Level) 8
  deriving DecidableEq, Repr

/-- One turn of one agent (rule R3). -/
inductive Turn where
  | core
  | peer (drive : PeerDrive)
  | call (c : CallerId) (op : HostOp)
  | startUp (p : Params)
  | shutdown
  deriving DecidableEq, Repr

/-- The world around the core as the step sees it: who moves next (with no turn listed the core moves, log 2), what the
peer drives, the coming draws (a draw that is not listed is free, log 4), and how many free values were taken. -/
structure Env where
  turns : List Turn
  peer : PeerDrive
  entryDraws : List EntryDraw
  resourceDraws : List ResourceDraw
  exitDraws : List ExitDraw
  drawn : Nat
  deriving DecidableEq, Repr

/-! ### The state (rule R32) -/

/-- Everything the spec gives the machine (rule R32) and the world around it. -/
structure State where
  /-- The driver is running (rules R137, R143). -/
  up : Bool
  /-- The parameters of this start-up (rule R6; log 5). -/
  params : Params
  /-- Directions and latches of the 19 lines (rule R14). -/
  lines : Lines
  /-- The engine's phase (rule R23). -/
  phase : Phase
  /-- `cur` and `cstep`, and what is left of the cycle (rule R23; log 25). -/
  cycle : Option Cycle
  /-- Wrong-level samples of the current `WaitAck` (rule R23); 0 again at the end of the cycle (rules R28, R32; log 13). -/
  polls : Nat
  /-- `buf`, `pc` and `results`, which exist only inside a `submit` (rules R24, R141). -/
  scan : Option Scan
  /-- The caller that holds the session; `held` is that there is one (rule R26). -/
  holder : Option CallerId
  /-- The sticky `fault` (rule R27). -/
  fault : Option StickyFault
  /-- The sticky `wedged` (rule R27). -/
  wedged : Bool
  /-- The event trace (rule R29). -/
  trace : List Event
  /-- What the operations answered, in order (log 33). -/
  replies : List Reply
  /-- The world around the core. -/
  env : Env
  deriving DecidableEq, Repr

/-- Why a step faults. -/
inductive Fault where
  /-- The core is to move inside a `submit` while `fault = LineMisuse`: it takes no step (rule R123). Raised by `coreStep`
  and by the meanings of READ and WRITE. Safe: the spec's own quiescent state. -/
  | lineMisuse
  deriving DecidableEq, Repr

/-- Why an instruction is given no meaning in a state. -/
inductive Refusal where
  /-- The instruction has no meaning yet. No arm of this model uses it. Safe. -/
  | notModelled (mnemonic : String)
  /-- No `submit` is in progress, so there is no `pc` and no `results` (rules R24, R107). Raised by the four meanings;
  `step` never runs an instruction there (log 22). Safe. -/
  | noSubmit
  /-- A cycle starts only when `phase = Idle` and `wedged = false` (rule R79). Raised by READ and WRITE; `step` never runs
  them there from a state that keeps the model's invariant (log 22). Safe. -/
  | engineNotReady
  deriving DecidableEq, Repr

/-! ### Start-up (rules R137 to R141) -/

/-- The lines at start-up number `n` (rules R138 to R140); the levels the spec leaves open are free values (log 6). -/
def Lines.startUp (n : Nat) : Lines where
  req := ⟨.output, false⟩
  ack := ⟨.input, Config.initAckLatch n⟩
  dir := ⟨.output, Config.initDirLevel n⟩
  addr := busLines .output (Config.initAddrLevels n)
  data := busLines .input (Config.initDataLatches n)

/-- The state a start-up with parameters `p` leaves (rules R137 to R141, R144): everything at its start-up value, the world
around the core as it was. -/
def State.startUp (p : Params) (e : Env) : State where
  up := true
  params := p
  lines := Lines.startUp e.drawn
  phase := .idle
  cycle := none
  polls := 0
  scan := none
  holder := none
  fault := none
  wedged := false
  trace := []
  replies := []
  env := { e with drawn := e.drawn + 1 }

/-- A peer of which the model says nothing: every sample is a free draw (rule R41; log 3). -/
def PeerDrive.unknown : PeerDrive := { ack := none, data := #v[none, none, none, none, none, none, none, none] }

/-- A world with nothing listed. -/
def Env.empty : Env :=
  { turns := [], peer := .unknown, entryDraws := [], resourceDraws := [], exitDraws := [], drawn := 0 }

/-- The machine right after reset, which is driver start-up with the default parameters (rules R6, R137). -/
def State.reset : State := State.startUp Config.defaultParams Env.empty

end Sys2Proof.Machine
end

