-- ==== Sys2Proof/Machine/Operands.lean ====
section
/-! DEFINITION. The only operands are whole bytes, carried bit by bit over the ordered lists of lines (rules R13, R37,
R54); this file holds the bit, byte and list helpers, and the fields of a transaction record (rule R22). -/
namespace Sys2Proof.Machine

/-- The ordered list `ADDR` (rule R13): the first line carries bit 7. -/
def addrBus : List Line := [.addr 7, .addr 6, .addr 5, .addr 4, .addr 3, .addr 2, .addr 1, .addr 0]

/-- The ordered list `DATA` (rule R13). -/
def dataBus : List Line := [.data 7, .data 6, .data 5, .data 4, .data 3, .data 2, .data 1, .data 0]

/-- The bits of a byte, bit 7 first: the levels `SetBus` puts on the lines of its list in order (rule R70). -/
def bitsMsbFirst (v : Byte) : List Level :=
  [v.getLsbD 7, v.getLsbD 6, v.getLsbD 5, v.getLsbD 4, v.getLsbD 3, v.getLsbD 2, v.getLsbD 1, v.getLsbD 0]

/-- `v[n] <- b` (rule R71). -/
def setBit (v : Byte) (n : Nat) (b : Level) : Byte :=
  if b then v ||| (1#8 <<< n) else v &&& ~~~(1#8 <<< n)

/-- The byte whose bit n is the latch of entry n (rule R13). -/
def busByte (ls : Vector LineState 8) : Byte :=
  setBit (setBit (setBit (setBit (setBit (setBit (setBit (setBit 0
    7 ls[7].out) 6 ls[6].out) 5 ls[5].out) 4 ls[4].out) 3 ls[3].out) 2 ls[2].out) 1 ls[1].out) 0 ls[0].out

/-- `direction = Write` (rule R22). -/
def BusTransaction.isWrite : BusTransaction → Bool
  | .read _ => false
  | .write _ _ => true

/-- The `address` field (rule R22). -/
def BusTransaction.address : BusTransaction → Byte
  | .read a => a
  | .write a _ => a

/-- The `data` field, required and meaningful only for a Write (rule R22). -/
def BusTransaction.data : BusTransaction → Option Byte
  | .read _ => none
  | .write _ d => some d

/-- The state of one line (rule R14). -/
def Lines.get (ls : Lines) : Line → LineState
  | .req => ls.req
  | .ack => ls.ack
  | .dir => ls.dir
  | .addr n => ls.addr[n]
  | .data n => ls.data[n]

/-- The lines with one line's state replaced. -/
def Lines.set (ls : Lines) (l : Line) (x : LineState) : Lines :=
  match l with
  | .req => { ls with req := x }
  | .ack => { ls with ack := x }
  | .dir => { ls with dir := x }
  | .addr n => { ls with addr := ls.addr.set n x }
  | .data n => { ls with data := ls.data.set n x }

/-- The level the peer drives on a line in its hands, where the model says one (rule R68; log 3). -/
def PeerDrive.level (p : PeerDrive) : Line → Option Level
  | .ack => p.ack
  | .data n => p.data[n]
  | .req => none
  | .dir => none
  | .addr _ => none

/-- A peer that drives ACK and a whole byte on D7..D0 (rule R41, P3). -/
def PeerDrive.acking (b : Level) (d : Byte) : PeerDrive where
  ack := some b
  data := #v[some (d.getLsbD 0), some (d.getLsbD 1), some (d.getLsbD 2), some (d.getLsbD 3),
             some (d.getLsbD 4), some (d.getLsbD 5), some (d.getLsbD 6), some (d.getLsbD 7)]

end Sys2Proof.Machine
end

