-- ==== Sys2Proof/Machine/Ops.lean ====
section
/-! DEFINITION. The shared operations: observation, draws, the Line Controller (rules R64 to R71), and the one way an error
is taken, which ends the `submit` in progress (rules R117 to R122, R128). There is no return from an error (R129). -/
namespace Sys2Proof.Machine

/-! ### Observation -/

/-- `emit ev` (rules R9, R29): append an event to the trace. -/
def State.emit (ev : Event) (s : State) : State := { s with trace := s.trace ++ [ev] }

/-- An operation's answer (rule R12; log 33). -/
def State.answer (r : Reply) (s : State) : State := { s with replies := s.replies ++ [r] }

/-- `fault LineMisuse` (rules R9, R27): sticky; no line changes and no line event. -/
def State.misuse (s : State) : State := { s with fault := some .lineMisuse }

/-! ### Draws (rules R9, R31) -/

/-- Count one free value (log 4). -/
def State.countDraw (s : State) : State := { s with env := { s.env with drawn := s.env.drawn + 1 } }

/-- The level the peer drives on line `l` now, or a free level (rules R14, R68; log 3). -/
def drawLevel (l : Line) (s : State) : Level × State :=
  match s.env.peer.level l with
  | some b => (b, s)
  | none => (Config.freeLevel s.env.drawn, s.countDraw)

/-- The level a data line drives right after it turns Out (rule R64, D6; log 7). -/
def drawLatch (s : State) : Level × State := (Config.freeLatch s.env.drawn, s.countDraw)

/-- The draw at the entry of a `submit` (rule R110; log 4). -/
def drawEntry (s : State) : EntryDraw × State :=
  match s.env.entryDraws with
  | x :: xs => (x, { s with env := { s.env with entryDraws := xs } })
  | [] => (Config.freeEntry s.env.drawn, s.countDraw)

/-- The draw of `check_resources()` (rule R119; log 4). -/
def drawResource (s : State) : ResourceDraw × State :=
  match s.env.resourceDraws with
  | x :: xs => (x, { s with env := { s.env with resourceDraws := xs } })
  | [] => (Config.freeResource s.env.drawn, s.countDraw)

/-- The draw at the exit of a `submit` (rule R110; log 4). -/
def drawExit (s : State) : ExitDraw × State :=
  match s.env.exitDraws with
  | x :: xs => (x, { s with env := { s.env with exitDraws := xs } })
  | [] => (Config.freeExit s.env.drawn, s.countDraw)

/-! ### The Line Controller (rules R64 to R71)

Each line operation is a step of the core (rule R75). A faulted core takes no step (rule R123), and after a shutdown there is
no core (rule R143): there `setDir`, `setLine` and `getLine`, and with them `setBus` and `getBus`, do nothing, whoever issues
them (DEDUCED, log 34 and log 36). -/

/-- There is a core, and it takes steps: the driver runs (rule R143), with no sticky fault (rule R123). -/
def State.operating (s : State) : Bool := s.up && s.fault.isNone

/-- `SetDir(l, d)` (rules R64, R65); nothing where no core takes steps (rules R123, R143; log 34, log 36). -/
def setDir (l : Line) (d : Direction) (s : State) : State :=
  if !s.operating then s
  else match l with
    | .data n =>
      if s.lines.data[n].dir = d then s
      else match d with
        | .input =>
          State.emit (.evDir l d) { s with lines := s.lines.set l { s.lines.data[n] with dir := .input } }
        | .output =>
          let r := drawLatch s
          State.emit (.evDir l d) { r.2 with lines := s.lines.set l ⟨.output, r.1⟩ }
    | .req => s.misuse
    | .ack => s.misuse
    | .dir => s.misuse
    | .addr _ => s.misuse

/-- A redundant `SetDir`: no change and no event (rule R64), so it is no step of the core (rule R75). -/
def redundant (ls : Lines) : LineOp → Bool
  | .setDir (.data n) d => ls.data[n].dir = d
  | .setDir _ _ => false
  | .setLine _ _ => false
  | .getLine _ => false
  | .waitAck _ => false

/-- `SetLine(l, b)` (rules R66, R67); nothing where no core takes steps (rules R123, R143; log 34, log 36). -/
def setLine (l : Line) (b : Level) (s : State) : State :=
  if !s.operating then s
  else if (s.lines.get l).dir = .output then
    State.emit (.evSet l b) { s with lines := s.lines.set l { s.lines.get l with out := b } }
  else s.misuse

/-- Which lines may be sampled: ACK always, a data line while it is In (rules R68, R69). -/
def sampleable (ls : Lines) : Line → Bool
  | .ack => true
  | .data n => ls.data[n].dir = .input
  | .req => false
  | .dir => false
  | .addr _ => false

/-- `GetLine(l)` (rules R68, R69): the level sampled, or none and a fault; where no core takes steps no sample is taken
(rules R123, R143; log 34, log 36). -/
def getLine (l : Line) (s : State) : Option Level × State :=
  if !s.operating then (none, s)
  else if sampleable s.lines l then
    let r := drawLevel l s
    (some r.1, State.emit (.evGet l r.1) r.2)
  else (none, s.misuse)

/-- The line operations of `SetBus(ls, v)` in order, MSB first (rule R70). -/
def setBusOps (ls : List Line) (v : Byte) : List LineOp := List.zipWith .setLine ls (bitsMsbFirst v)

/-- `SetBus(ls, v)` issued by a harness (rule R70). It stops at its first misuse: on the core then faulted no `SetLine` acts. -/
def setBus (ls : List Line) (v : Byte) (s : State) : State :=
  (ls.zip (bitsMsbFirst v)).foldl (fun s x => setLine x.1 x.2 s) s

/-- `v[n] <- b` for the level sampled on line Dn (rule R71). -/
def recordSample (v : Byte) (l : Line) (b : Level) : Byte :=
  match l with
  | .data n => setBit v n b
  | .req => v
  | .ack => v
  | .dir => v
  | .addr _ => v

/-- `GetBus` over a list of lines from the byte `v` on, issued by a harness (rule R71): none at its first misuse. -/
def getBusFrom : List Line → Byte → State → Option Byte × State
  | [], v, s => (some v, s)
  | l :: ls, v, s =>
    match getLine l s with
    | (some b, s) => getBusFrom ls (recordSample v l b) s
    | (none, s) => (none, s)

/-- `GetBus(ls)` (rule R71). -/
def getBus (ls : List Line) (s : State) : Option Byte × State := getBusFrom ls 0 s

/-! ### Errors (rules R117 to R122) -/

/-- The code of each error kind (rule R117). -/
def ErrorKind.code : ErrorKind → Nat
  | .ok => 0
  | .resourceExhausted => 1
  | .busy => 2
  | .transferFault => 3
  | .timeout => 4
  | .lineMisuse => 5
  | .malformedTrailingInstruction => 6

/-- The kind of a `submit` error (rules R110, R117). -/
def SubmitError.kind : SubmitError → ErrorKind
  | .resourceExhausted => .resourceExhausted
  | .transferFault => .transferFault
  | .timeout => .timeout

/-- The kind an outcome reports (rule R117). -/
def SubmitOutcome.kind : SubmitOutcome → ErrorKind
  | .ok _ _ => .ok
  | .error e => e.kind

/-- End the `submit` in progress with an outcome (rule R110): decoder state does not outlive it (R24), the lines and the
session stay (R115, R121). -/
def endSubmit (o : SubmitOutcome) (s : State) : State :=
  State.answer (.returned o) (State.emit (.evReturn o) { s with scan := none })

/-- `raise E` (rules R9, R121, R128): the one way an error is taken. No result bytes, no retry, nothing else changes. -/
def raise (e : SubmitError) (s : State) : State := endSubmit (.error e) s

/-- A timeout (rule R122): the core is wedged, the cycle is left part-done where it stopped (log 12). -/
def timeOut (s : State) : State := raise .timeout { s with wedged := true }

/-- A refused operation: no effect but the refusal mark (rule R111; log 9). -/
def refuseCall (who : Agent) (why : CallRefusal) (s : State) : State := State.answer (.refused who why) s

end Sys2Proof.Machine
end

