-- ==== Sys2Proof/Machine/Trailing.lean ====
section
/-! DEFINITION. The trailing forms T1 and T2 (rules R99, R100): skipped, their bytes count as consumed. -/
namespace Sys2Proof.Machine

/-- Skip bytes: no transaction, no line operation, no error; only `pc` moves (rules R99, R100, R125). -/
def skipTo (f : Scan → Nat) (s : State) : Host.Outcome State Fault Refusal :=
  match s.scan with
  | none => .refused .noSubmit
  | some sc => .next { s with scan := some { sc with pc := f sc } }

/-- T1, a lone trailing byte: `pc <- len(buf)` (rule R99). Its value does not matter (rule R56). -/
def execTrailT1 (_b : Byte) (s : State) : Host.Outcome State Fault Refusal :=
  skipTo (fun sc => sc.buf.length) s

/-- T2, a truncated WRITE, under the policy `skip`: `pc <- pc + 2` (rule R100, D2; log 15). -/
def execTrailT2 (_x : BitVec 7) (_a : Byte) (s : State) : Host.Outcome State Fault Refusal :=
  match Config.truncatedWritePolicy with
  | .skip => skipTo (fun sc => sc.pc + 2) s

end Sys2Proof.Machine
end

