-- ==== Sys2Proof/Machine/Engine.lean ====
section
/-! DEFINITION. The Handshake Engine: the two cycles as lists of line operations (rules R81, R82), and one atomic step of a
cycle (rules R72, R73, R75, R80). -/
namespace Sys2Proof.Machine

/-- Line operations that belong to one step and one phase. -/
def cycleStep (k : Nat) (p : Phase) (ops : List LineOp) : List CycleOp := ops.map fun op => ⟨k, p, op⟩

/-- Step 1 of both cycles: `SetLine(DIR, 1)` for a Write and `SetLine(DIR, 0)` for a Read (rules R16, R81, R82). -/
def firstOp (tx : BusTransaction) : CycleOp := ⟨1, .idle, .setLine .dir tx.isWrite⟩

/-- Steps 2 to 7 of the write cycle (rule R81), in the order of decision D23 (log 16). -/
def writeOps (a d : Byte) : List CycleOp :=
  cycleStep 2 .idle (setBusOps addrBus a)
  ++ cycleStep 3 .idle (dataBus.map fun l => .setDir l .output)
  ++ cycleStep 3 .idle (setBusOps dataBus d)
  ++ cycleStep 4 .addressAndDataAsserted [.setLine .req true]
  ++ cycleStep 5 .requestAsserted [.waitAck true]
  ++ cycleStep 6 .peerAcknowledged [.setLine .req false]
  ++ cycleStep 7 .requestDeasserted [.waitAck false]

/-- Steps 2 to 8 of the read cycle (rule R82). -/
def readOps (a : Byte) : List CycleOp :=
  cycleStep 2 .idle (setBusOps addrBus a)
  ++ cycleStep 3 .idle (dataBus.map fun l => .setDir l .input)
  ++ cycleStep 4 .addressAndDataAsserted [.setLine .req true]
  ++ cycleStep 5 .requestAsserted [.waitAck true]
  ++ cycleStep 6 .peerAcknowledged (dataBus.map .getLine)
  ++ cycleStep 7 .peerAcknowledged [.setLine .req false]
  ++ cycleStep 8 .requestDeasserted [.waitAck false]

/-- The line operations of a cycle after the first (rule R78). -/
def laterOps : BusTransaction → List CycleOp
  | .read a => readOps a
  | .write a d => writeOps a d

/-- All line operations of a cycle in order, the redundant direction changes among them. -/
def cycleOps (tx : BusTransaction) : List CycleOp := firstOp tx :: laterOps tx

/-- The number of the step in progress (`cstep`, rule R23). -/
def State.cstep (s : State) : Option Nat := s.cycle.map fun c => c.now.cstep

/-- The transaction in progress (`cur`, rule R23). -/
def State.cur (s : State) : Option BusTransaction := s.cycle.map fun c => c.cur

/-- `WaitAck` starts with `polls <- 0` (rule R72). -/
def pollsEntering (op : LineOp) (polls : Nat) : Nat :=
  match op with
  | .waitAck _ => 0
  | .setDir _ _ => polls
  | .setLine _ _ => polls
  | .getLine _ => polls

/-- The value a cycle returns: the sampled byte of a Read, none for a Write (rules R30, R83, R84). -/
def Cycle.result (c : Cycle) : Option Byte :=
  match c.cur with
  | .read _ => some c.byte
  | .write _ _ => none

/-- `results <- results ++ [r]` for a Read, nothing for a Write (rules R83, R97, R98). -/
def Scan.collect (r : Option Byte) (sc : Scan) : Scan :=
  match r with
  | some b => { sc with results := sc.results ++ [b] }
  | none => sc

/-- The end of a cycle (rules R78, R80, R81, R82): back to Idle, `cur`, `cstep` and `polls` cleared, which live for one cycle
(rule R32), `EvEnd`, the byte of a Read handed to the decoder. It happens in the step of the last ACK sample (rule R42;
log 1). -/
def finishCycle (c : Cycle) (s : State) : State :=
  State.emit (.evEnd c.cur c.result)
    { s with cycle := none, phase := .idle, polls := 0, scan := s.scan.map (Scan.collect c.result) }

/-- The line operation of `c.now` is done: go on to the next that is not a redundant `SetDir` (rules R64, R75), entering its
phase in this same step (rule R80), or end the cycle. After a misuse nothing goes on (rule R123). -/
def advance (c : Cycle) (s : State) : State :=
  if s.fault.isSome then s
  else match c.later.dropWhile fun o => redundant s.lines o.op with
    | [] => finishCycle c s
    | o :: os =>
      { s with
        cycle := some { c with now := o, later := os }
        phase := o.phase
        polls := pollsEntering o.op s.polls }

/-- A wrong-level sample (rules R72, R73): poll again, or time out at the n-th. -/
def pollAgain (s : State) : State :=
  match s.params.ackPollLimit with
  | none => { s with polls := s.polls + 1 }
  | some lim =>
    if lim.n ≤ s.polls + 1 then timeOut { s with polls := s.polls + 1 } else { s with polls := s.polls + 1 }

/-- One atomic step of a cycle: exactly one line operation (rule R75). -/
def engineStep (c : Cycle) (s : State) : State :=
  match c.now.op with
  | .setDir l d => advance c (setDir l d s)
  | .setLine l b => advance c (setLine l b s)
  | .getLine l =>
    match getLine l s with
    | (some b, s) => advance { c with byte := recordSample c.byte l b } s
    | (none, s) => s
  | .waitAck b =>
    match getLine .ack s with
    | (some x, s) => if x = b then advance c s else pollAgain s
    | (none, s) => s

/-- A fresh cycle for a fresh record (rules R78, R96). -/
def Cycle.start (tx : BusTransaction) : Cycle :=
  { cur := tx, now := firstOp tx, later := laterOps tx, byte := 0 }

/-- Begin a cycle and perform its step 1 (rules R78, R81, R82; log 1). -/
def beginCycle (tx : BusTransaction) (s : State) : State :=
  engineStep (Cycle.start tx) (State.emit (.evBegin tx) { s with cycle := some (Cycle.start tx) })

end Sys2Proof.Machine
end

