-- ==== Sys2Proof/Machine/Transfer.lean ====
section
/-! DEFINITION. READ and WRITE (rules R97, R98). Each starts its cycle; the engine goes on with it line operation by line
operation in the steps that follow (rule R75). -/
namespace Sys2Proof.Machine

/-- What READ and WRITE share (rules R79, R95, R119): inside a `submit`, with the engine ready, `check_resources()`, then
`pc <- pc + len`, then the cycle of a fresh record. -/
def transfer (len : Nat) (tx : BusTransaction) (s : State) : Host.Outcome State Fault Refusal :=
  match s.scan with
  | none => .refused .noSubmit
  | some sc =>
    if s.fault.isSome then .fault .lineMisuse
    else if s.wedged || s.phase != .idle || s.cycle.isSome then .refused .engineNotReady
    else match drawResource s with
      | (.resourceExhausted, s) => .next (raise .resourceExhausted s)
      | (.ok, s) => .next (beginCycle tx { s with scan := some { sc with pc := sc.pc + len } })

/-- READ a (rule R97). The opcode's ignored bits have no effect (rule R53). -/
def execRead (_x : BitVec 7) (a : Byte) (s : State) : Host.Outcome State Fault Refusal :=
  transfer 2 (.read a) s

/-- WRITE a, d (rule R98). -/
def execWrite (_x : BitVec 7) (a d : Byte) (s : State) : Host.Outcome State Fault Refusal :=
  transfer 3 (.write a d) s

end Sys2Proof.Machine
end

