-- ==== Sys2Proof/Machine/Dispatch.lean ====
section
/-! DEFINITION. One arm per row of the opcode table. -/
namespace Sys2Proof.Machine

def exec (i : Instr) (s : State) : Host.Outcome State Fault Refusal :=
  match i with
  | .read x a => Sys2Proof.Machine.execRead x a s
  | .write x a d => Sys2Proof.Machine.execWrite x a d s
  | .trailT1 b => Sys2Proof.Machine.execTrailT1 b s
  | .trailT2 x a => Sys2Proof.Machine.execTrailT2 x a s

end Sys2Proof.Machine
end

