-- ==== Sys2Proof/Machine/Session.lean ====
section
/-! DEFINITION. The Session Boundary and the driver's life: acquire, release, submit (rules R107 to R116), start-up and
shutdown (rules R137, R143, R144). -/
namespace Sys2Proof.Machine

/-- `held` (rule R26). -/
def State.held (s : State) : Bool := s.holder.isSome

/-- The caller holds the session and passes its active handle (rules R109 to R111; log 10). -/
def holdsWith (c : CallerId) (h : SessionHandle) (s : State) : Bool := s.holder = some c && h = ⟨c⟩

/-- `acquire()` by caller c: an atomic test-and-set (rule R108). -/
def acquire (c : CallerId) (s : State) : State :=
  if s.held then State.answer (.busy c) s
  else State.answer (.handle ⟨c⟩) { s with holder := some c }

/-- `release(h)` by caller c (rules R109, R111). It is allowed on a wedged core (rule R122). -/
def release (c : CallerId) (h : SessionHandle) (s : State) : State :=
  if holdsWith c h s then State.answer (.released c) { s with holder := none }
  else refuseCall (.caller c) .noSession s

/-- A stream longer than `max_stream_len` (rules R110, R119). -/
def overLength (stream : List Byte) (s : State) : Bool :=
  match s.params.maxStreamLen with
  | some m => m < stream.length
  | none => false

/-- The entry of a `submit` (rules R94, R110, R126): a forced over-length error beats the draw; then the snapshot of the
stream, with the cursor at 0 and no results. -/
def enterSubmit (stream : List Byte) (s : State) : State :=
  let r := drawEntry (State.emit (.evSubmit stream.length) s)
  match (if overLength stream s then .resourceExhausted else r.1) with
  | .resourceExhausted => raise .resourceExhausted r.2
  | .transferFault => raise .transferFault r.2
  | .ok => { r.2 with scan := some { buf := stream, pc := 0, results := [] } }

/-- `submit(h, s)` by caller c (rules R110, R111). The scan itself is the core's (`coreStep`). -/
def submit (c : CallerId) (h : SessionHandle) (stream : List Byte) (s : State) : State :=
  if holdsWith c h s then
    if s.wedged then refuseCall (.caller c) .wedged s
    else if s.fault.isSome then refuseCall (.caller c) .faulted s
    else enterSubmit stream s
  else refuseCall (.caller c) .noSession s

/-- The exit of a `submit` whose scan is at its end (rules R102, R110, R114): the copy-out draw, then the outcome. -/
def finishSubmit (sc : Scan) (s : State) : State :=
  match drawExit s with
  | (.transferFault, s) => raise .transferFault s
  | (.ok, s) => endSubmit (.ok sc.results sc.buf.length) s

/-- A host call (rules R108 to R110); after shutdown every operation is refused (rule R143). -/
def hostCall (c : CallerId) (op : HostOp) (s : State) : State :=
  if s.up then
    match op with
    | .acquire => acquire c s
    | .release h => release c h s
    | .submit h stream => submit c h stream s
  else refuseCall (.caller c) .notRunning s

/-- Driver shutdown (rule R143): there is no core any more (log 14). Not admitted during a `submit` (U21). -/
def shutDown (s : State) : State :=
  if s.up then
    if s.scan.isSome then refuseCall .platform .submitInProgress s
    else { s with up := false }
  else refuseCall .platform .notRunning s

/-- A start-up of a driver that is not running: every piece of state at its start-up value (rules R137, R144). -/
def startUp (p : Params) (s : State) : State :=
  if s.up then refuseCall .platform .alreadyRunning s
  else State.startUp p s.env

/-- A step of the peer: it changes the levels it drives (rules R3, R75). -/
def peerMove (d : PeerDrive) (s : State) : State := { s with env := { s.env with peer := d } }

end Sys2Proof.Machine
end

