-- ==== Sys2Proof/Machine/Run.lean ====
section
/-! DEFINITION. One step of the core (rules R75, R95), which agent moves next (rules R3, R112), and how a table word is
placed where the next step runs it. -/
namespace Sys2Proof.Machine

/-- One step of the core. Inside a `submit` it goes on with the cycle in progress by one line operation (rule R75), or else
runs the row at `pc`, or ends the scan (rule R95). A faulted core takes no step (rule R123). With no `submit` in progress,
or no driver running, the core has nothing to do and the state stays (log 24). -/
def coreStep (s : State) : Host.Outcome State Fault Refusal :=
  if s.up then
    match s.scan with
    | none => .next s
    | some sc =>
      if s.fault.isSome then .fault .lineMisuse
      else match s.cycle with
        | some c => .next (engineStep c s)
        | none =>
          match decodeNext (sc.buf.drop sc.pc) with
          | .ok (i, _) => exec i s
          | .error .endOfStream => .next (finishSubmit sc s)
  else .next s

/-- A caller inside its own `submit` makes no call until the `submit` has returned (rules R109, R112; log 11). -/
def callWaits (c : CallerId) (s : State) : Bool := s.scan.isSome && s.holder = some c

/-- The turn that is taken next: the first listed one, unless it is a call that has to wait; the core's otherwise, which is
no entry of the list (log 2, log 11). -/
def nextTurn (s : State) : Option Turn :=
  match s.env.turns with
  | [] => none
  | .call c op :: _ => if callWaits c s then none else some (.call c op)
  | .core :: _ => some .core
  | .peer d :: _ => some (.peer d)
  | .startUp p :: _ => some (.startUp p)
  | .shutdown :: _ => some .shutdown

/-- The agent a turn belongs to (rule R3). -/
def Turn.agent : Turn → Agent
  | .core => .core
  | .peer _ => .peer
  | .call c _ => .caller c
  | .startUp _ => .platform
  | .shutdown => .platform

/-- The agent that moves next (rule R3). -/
def State.mover (s : State) : Agent :=
  match nextTurn s with
  | none => .core
  | some t => t.agent

/-- The state with its first listed turn taken off. -/
def State.popTurn (s : State) : State := { s with env := { s.env with turns := s.env.turns.tail } }

/-- One step of the machine: one step of the agent that moves next (rules R3, R75). -/
def machineStep (s : State) : Host.Outcome State Fault Refusal :=
  match nextTurn s with
  | none => coreStep s
  | some .core => coreStep s.popTurn
  | some (.peer d) => .next (peerMove d s.popTurn)
  | some (.call c op) => .next (hostCall c op s.popTurn)
  | some (.startUp p) => .next (startUp p s.popTurn)
  | some .shutdown => .next (shutDown s.popTurn)

/-- The state in which a caller (number 0) has submitted exactly these bytes to a ready core, the core is to move, and the
first resource draw is ok, so that the next step runs the row they hold (rules R94, R110; log 21). -/
def placeStream (stream : List Byte) (s : State) : State :=
  { s with
    up := true
    phase := .idle
    cycle := none
    scan := some { buf := stream, pc := 0, results := [] }
    holder := some 0
    fault := none
    wedged := false
    env := { s.env with turns := [], resourceDraws := .ok :: s.env.resourceDraws } }

end Sys2Proof.Machine
end

