-- ==== Sys2Proof/Machine/Step.lean ====
section
/-! DEFINITION. One step of the machine, and the placing of a table word. -/
namespace Sys2Proof.Machine

/-- One step of the agent that moves next (rules R3, R75). -/
def step (s : State) : Host.Outcome State Fault Refusal := Sys2Proof.Machine.machineStep s

/-- `s` inside a `submit` whose stream is exactly the table's `nbits` bits (log 21). -/
def State.withFetchWord (s : State) (nbits w : Nat) : State :=
  Sys2Proof.Machine.placeStream (Sys2Proof.bytesOfNat (nbits / 8) w) s

end Sys2Proof.Machine
end

