-- ==== Sys2Proof/Machine/EchoPeer.lean ====
section
/-! DEFINITION. The echo peer F-ECHO of 95_test_vectors.md section 1 and the machine closed with it. A fixture: one peer
among all those the unconstrained peer of rule R41 admits, no part of the hardware (rule R35; log 32). -/
namespace Sys2Proof.Machine

/-- The peer's locations: addresses strictly rising, no entry that holds what an unlisted location reads as, 0x00. -/
abbrev Memory := List Host.Cell

/-- The canonical form, from address `lo` on. -/
def memoryWfFrom : Nat → Memory → Bool
  | _, [] => true
  | lo, (a, v) :: m => lo ≤ a && v != 0 && memoryWfFrom (a + 1) m

/-- The canonical form. -/
def Memory.wf (m : Memory) : Bool := memoryWfFrom 0 m

/-- `M[a]`: an unlisted location holds 0x00, as all do at F-ECHO's start-up. -/
def Memory.read : Memory → Nat → Byte
  | [], _ => 0
  | (b, v) :: m, a => if a = b then v else if a < b then 0 else Memory.read m a

/-- A cell in front, unless it holds what an unlisted location reads as. -/
def consCell (a : Nat) (v : Byte) (m : Memory) : Memory := if v = 0 then m else (a, v) :: m

/-- `M[a] <- v`, in canonical form. -/
def Memory.write (a : Nat) (v : Byte) : Memory → Memory
  | [] => consCell a v []
  | (b, w) :: m =>
    if a = b then consCell a v m
    else if a < b then consCell a v ((b, w) :: m)
    else (b, w) :: Memory.write a v m

/-- F-ECHO's state: the map `M`, `ack` and `drv`. -/
structure EchoPeer where
  mem : Memory
  ack : Level
  drv : Bool
  deriving DecidableEq, Repr

/-- What F-ECHO drives: `ack` always, and `M[A]` on D7..D0 while `drv`. -/
def EchoPeer.drive (e : EchoPeer) (ls : Lines) : PeerDrive :=
  if e.drv then PeerDrive.acking e.ack (Memory.read e.mem (busByte ls.addr).toNat)
  else { PeerDrive.unknown with ack := some e.ack }

/-- F-ECHO's reaction, immediately after a core step that changed `out(REQ)` (P2, P3, P4). -/
def EchoPeer.react (before after : Lines) (e : EchoPeer) : EchoPeer :=
  if before.req.out = after.req.out then e
  else if after.req.out then
    if after.dir.out then
      { e with mem := Memory.write (busByte after.addr).toNat (busByte after.data) e.mem, ack := true }
    else { e with drv := true, ack := true }
  else { e with drv := false, ack := false }

/-- The machine and F-ECHO together. -/
structure EchoSystem where
  host : State
  peer : EchoPeer
  deriving DecidableEq, Repr

/-- One step of the machine against the levels F-ECHO drives, and F-ECHO's reaction to it. -/
def echoStep (e : EchoSystem) : Host.Outcome EchoSystem Fault Refusal :=
  match step (peerMove (e.peer.drive e.host.lines) e.host) with
  | .next s => .next { host := s, peer := e.peer.react e.host.lines s.lines }
  | .fault r => .fault r
  | .refused r => .refused r

/-- `n` steps of the machine and F-ECHO. -/
def echoRun : Nat → EchoSystem → Host.Outcome EchoSystem Fault Refusal
  | 0, e => .next e
  | n + 1, e =>
    match echoStep e with
    | .next e => echoRun n e
    | .fault r => .fault r
    | .refused r => .refused r

end Sys2Proof.Machine
end

