-- ==== Sys2Proof/Safety.lean ====
section
/-! DEFINITION. What claims are stated in: the invariant of every run from start-up (rules R15, R28, R77, R80, R85), the
peer contract as named premises (rule R41), and the events a whole cycle leaves (rules R81, R82, R89, R90). -/
namespace Sys2Proof.Machine

/-! ### Lines -/

/-- The fixed directions of rule R15. -/
structure Lines.FixedDirections (ls : Lines) : Prop where
  req : ls.req.dir = .output
  ack : ls.ack.dir = .input
  dir : ls.dir.dir = .output
  addr : ∀ n : Fin 8, ls.addr[n].dir = .output

/-- All eight data lines have direction `d` (rule R86). -/
def Lines.dataAll (d : Direction) (ls : Lines) : Prop := ∀ n : Fin 8, ls.data[n].dir = d

/-- What a line operation does to directions and latches, the drawn latch of a line that turns Out left aside. -/
def Lines.apply (ls : Lines) : LineOp → Lines
  | .setDir l d => ls.set l { ls.get l with dir := d }
  | .setLine l b => ls.set l { ls.get l with out := b }
  | .getLine _ => ls
  | .waitAck _ => ls

/-- The lines after some line operations. -/
def Lines.replay (ls : Lines) (ops : List CycleOp) : Lines := ops.foldl (fun ls o => ls.apply o.op) ls

/-- The line operation is no misuse (rules R65, R67, R69). -/
def legalOp (ls : Lines) : LineOp → Bool
  | .setDir (.data _) _ => true
  | .setDir _ _ => false
  | .setLine l _ => (ls.get l).dir = .output
  | .getLine l => sampleable ls l
  | .waitAck _ => true

/-- None of the line operations is a misuse, each after the ones before it (rule R77). -/
def legalOps : Lines → List CycleOp → Bool
  | _, [] => true
  | ls, o :: os => legalOp ls o.op && legalOps (ls.apply o.op) os

/-- DIR, the address lines and the data lines are as a cycle for `tx` holds them from the end of its step 3 on (rules R81,
R82, R85, R86). -/
def asserts (tx : BusTransaction) (ls : Lines) : Prop :=
  ls.dir.out = tx.isWrite ∧ busByte ls.addr = tx.address ∧
  match tx with
  | .read _ => ls.dataAll .input
  | .write _ d => ls.dataAll .output ∧ busByte ls.data = d

/-! ### The invariant -/

/-- A cycle in progress: what is left of it is an end of its record's list of line operations, the phase is the one of the
next operation (rule R80), which is no redundant `SetDir` (rule R75), no operation left is a misuse (rule R77), and performing them leaves the lines as the record
says (rule R85). -/
structure CycleInv (s : State) (c : Cycle) : Prop where
  left : c.now :: c.later <:+ cycleOps c.cur
  effective : redundant s.lines c.now.op = false
  phase : c.now.phase = s.phase
  legal : legalOps s.lines (c.now :: c.later) = true
  lines : asserts c.cur (s.lines.replay (c.now :: c.later))

/-- The invariant of every run from start-up. -/
structure State.Inv (s : State) : Prop where
  /-- Rule R15. -/
  fixed : s.lines.FixedDirections
  /-- Rule R77. -/
  noFault : s.fault = none
  /-- No cycle in progress, so Idle (rule R88). -/
  idle : s.cycle = none → s.phase = .idle
  /-- `polls` lives for one cycle (rules R28, R32). -/
  polls : s.cycle = none → s.polls = 0
  /-- REQ is 1 from RequestAsserted until RequestDeasserted (rules R17, R28, R80). -/
  req : s.lines.req.out = (s.phase == .requestAsserted || s.phase == .peerAcknowledged)
  cycle : ∀ c, s.cycle = some c → CycleInv s c
  /-- A `submit` runs only in a session, on a core that is not wedged (rules R107, R111, R122). -/
  submit : s.scan ≠ none → s.wedged = false ∧ s.holder ≠ none
  /-- A cycle runs only inside a `submit`, but for the part-done cycle of a timeout (rules R107, R122). -/
  running : s.cycle ≠ none → s.wedged = false → s.scan ≠ none
  /-- Rule R25. -/
  cursor : ∀ sc, s.scan = some sc → sc.pc ≤ sc.buf.length
  /-- A `submit` runs only while the driver does (rule R143). -/
  alive : s.scan ≠ none → s.up = true

/-! ### The peer contract (rule R41) -/

/-- P1: ACK is 0 whenever REQ is 0 and the previous cycle has ended. -/
def PeerContract.p1 (s : State) : Prop :=
  s.phase = .idle ∨ s.phase = .addressAndDataAsserted → s.env.peer.ack = some false

/-- P2, on a move to drive `d` in a write cycle: ACK leaves 0 only while REQ is 1, and goes to 1. -/
def PeerContract.p2 (s : State) (d : PeerDrive) : Prop :=
  s.lines.dir.out = true → s.env.peer.ack ≠ some true → d.ack ≠ some false → s.lines.req.out = true ∧ d.ack = some true

/-- P3, on a move to drive `d` in a read cycle: ACK leaves 0 only while REQ is 1, and goes to 1, with every data line driven;
from then on, until REQ is 0, every move holds the data lines as they are and ACK at 1, so that the hold cannot lapse. -/
def PeerContract.p3 (s : State) (d : PeerDrive) : Prop :=
  s.lines.dir.out = false →
  (s.env.peer.ack ≠ some true → d.ack ≠ some false →
    s.lines.req.out = true ∧ d.ack = some true ∧ ∀ n : Fin 8, d.data[n] ≠ none) ∧
  (s.env.peer.ack = some true → s.lines.req.out = true → d.ack = some true ∧ d.data = s.env.peer.data)

/-- P4, on a move to drive `d`: ACK leaves 1 only while REQ is 0, and goes to 0, in a read cycle with no data line driven any
more. -/
def PeerContract.p4 (s : State) (d : PeerDrive) : Prop :=
  s.env.peer.ack = some true → d.ack ≠ some true →
  s.lines.req.out = false ∧ d.ack = some false ∧ (s.lines.dir.out = false → ∀ n : Fin 8, d.data[n] = none)

/-- P5: a data line is driven only between REQ = 1 with DIR = 0 and ACK back at 0: while the host waits for ACK = 1, or,
after that, while ACK is still 1. -/
def PeerContract.p5 (s : State) : Prop :=
  (∃ n : Fin 8, s.env.peer.data[n] ≠ none) →
  s.lines.dir.out = false ∧ (s.phase = .requestAsserted ∨
    (s.phase = .peerAcknowledged ∨ s.phase = .requestDeasserted) ∧ s.env.peer.ack = some true)

/-- What the model holds for ACK at the coming samples of a waiting core, in order. Every turn of the core is a sample, and a
move of the peer changes what the next one reads. With no turn left, or at a call of the holder, which waits for the `submit`
to return (log 11), only the core still moves: all its further samples read the same level, which is listed once (log 35). -/
def ackAtSamples (holder : Option CallerId) : List Turn → Option Level → List (Option Level)
  | [], ack => [ack]
  | .core :: ts, ack => ack :: ackAtSamples holder ts ack
  | .peer d :: ts, _ => ackAtSamples holder ts d.ack
  | .call c _ :: ts, ack => if holder = some c then [ack] else ackAtSamples holder ts ack
  | .startUp _ :: ts, ack => ackAtSamples holder ts ack
  | .shutdown :: ts, ack => ackAtSamples holder ts ack

/-- P6: while the core waits for ACK, one of its coming samples reads the awaited level, which the peer drives by then. It is
a premise along a run: `AlongRun PeerContract.p6 s`. -/
def PeerContract.p6 (s : State) : Prop :=
  ∀ (c : Cycle) (b : Level), s.scan ≠ none → s.cycle = some c → c.now.op = .waitAck b →
    some b ∈ ackAtSamples s.holder s.env.turns s.env.peer.ack

/-- Host and peer drive a data line at once (rule R149). -/
def contention (s : State) : Prop :=
  ∃ n : Fin 8, s.lines.data[n].dir = .output ∧ s.env.peer.data[n] ≠ none

/-! ### Several steps -/

/-- `n` steps of the machine, stopping at the first fault or refusal. -/
def runSteps : Nat → State → Host.Outcome State Fault Refusal
  | 0, s => .next s
  | n + 1, s =>
    match step s with
    | .next t => runSteps n t
    | .fault r => .fault r
    | .refused r => .refused r

/-- `P` holds of `s` and of every state its run reaches: how a row of the peer contract is a premise (rule R41). -/
def AlongRun (P : State → Prop) (s : State) : Prop := ∀ n t, runSteps n s = .next t → P t

/-! ### A whole cycle -/

/-- The data lines a `SetDir(_, d)` changes, D7 first: the k lines of rules R89 and R90. -/
def turningLines (ls : Lines) (d : Direction) : List Line :=
  dataBus.filter fun l => (ls.get l).dir != d

/-- The events of a `SetBus` (rule R70). -/
def setBusEvents (ls : List Line) (v : Byte) : List Event := List.zipWith .evSet ls (bitsMsbFirst v)

/-- How many of the data lines Dk and above carry no level of the peer's that the model holds: samples of them are free draws
(log 3). A `GetBus` has counted so many of them when it is about to sample D(k-1) (rule R71). -/
def PeerDrive.freeFrom (p : PeerDrive) (k : Nat) : Nat :=
  (List.finRange 8).countP fun n => k ≤ n.val && p.data[n].isNone

/-- The events of a `GetBus` that reads `v` (rule R71). -/
def getBusEvents (ls : List Line) (v : Byte) : List Event := List.zipWith .evGet ls (bitsMsbFirst v)

/-- The trace of a write cycle from lines `ls` whose waits see `p` and `q` wrong levels (rules R81, R89). -/
def writeEvents (ls : Lines) (a d : Byte) (p q : Nat) : List Event :=
  [.evBegin (.write a d), .evSet .dir true] ++ setBusEvents addrBus a
  ++ (turningLines ls .output).map (fun l => .evDir l .output) ++ setBusEvents dataBus d
  ++ [.evSet .req true] ++ List.replicate p (.evGet .ack false) ++ [.evGet .ack true, .evSet .req false]
  ++ List.replicate q (.evGet .ack true) ++ [.evGet .ack false, .evEnd (.write a d) none]

/-- The trace of a read cycle that samples `r` (rules R82, R90). -/
def readEvents (ls : Lines) (a r : Byte) (p q : Nat) : List Event :=
  [.evBegin (.read a), .evSet .dir false] ++ setBusEvents addrBus a
  ++ (turningLines ls .input).map (fun l => .evDir l .input)
  ++ [.evSet .req true] ++ List.replicate p (.evGet .ack false) ++ [.evGet .ack true] ++ getBusEvents dataBus r
  ++ [.evSet .req false] ++ List.replicate q (.evGet .ack true) ++ [.evGet .ack false, .evEnd (.read a) (some r)]

/-- The lines after a write cycle (rules R28, R81). -/
def Lines.afterWrite (ls : Lines) (a d : Byte) : Lines :=
  { ls with req := ⟨.output, false⟩, dir := ⟨.output, true⟩, addr := busLines .output a, data := busLines .output d }

/-- Every data line In, its latch kept (rule R64). -/
def allInput (v : Vector LineState 8) : Vector LineState 8 := v.map fun x => { x with dir := .input }

/-- The lines after a read cycle (rules R28, R82). -/
def Lines.afterRead (ls : Lines) (a : Byte) : Lines :=
  { ls with req := ⟨.output, false⟩, dir := ⟨.output, false⟩, addr := busLines .output a, data := allInput ls.data }

/-- The turns of a cycle after its first step: `before` core turns up to REQ = 1, `p` wrong samples, the peer raises ACK
(drive `u`), `between` core turns up to REQ = 0, `q` wrong samples, the peer lowers ACK (drive `d`), the last sample. The
peer answers both waits (P6) and meanwhile holds each level (P1 to P4). -/
def cycleTurns (before p between q : Nat) (u d : PeerDrive) : List Turn :=
  List.replicate (before + p) .core ++ [.peer u] ++ List.replicate (between + q) .core ++ [.peer d, .core]

/-- `n` wrong samples do not reach the poll bound (rule R73). -/
def waitsWithin (p : Params) (n : Nat) : Prop := ∀ lim, p.ackPollLimit = some lim → n < lim.n

/-- The engine is ready to start a cycle inside a `submit` (rule R79). -/
structure State.Ready (s : State) : Prop where
  running : s.up = true
  phase : s.phase = .idle
  cycle : s.cycle = none
  fault : s.fault = none
  wedged : s.wedged = false
  fixed : s.lines.FixedDirections

/-- The events of line operations, as opposed to markers (rule R30). -/
def Event.isLine : Event → Bool
  | .evDir _ _ => true
  | .evSet _ _ => true
  | .evGet _ _ => true
  | .evBegin _ => false
  | .evEnd _ _ => false
  | .evSubmit _ => false
  | .evReturn _ => false

/-- How many line operations a trace records. -/
def lineEvents (t : List Event) : Nat := (t.filter Event.isLine).length

end Sys2Proof.Machine
end

