-- ==== Sys2Proof/Certificates/Slice0/Obligations.lean ====
section
/-! DEFINITION. The statements for the provers. Each docstring names the rule of spec/ it formalises; where the spec marks a
rule as its own inference, or the model's log is what a clause rests on, it says so. -/
open Sys2Proof Sys2Proof.Machine

/-! ### Start-up -/

/-- R138 and R141: start-up state of the fixed-direction lines, of the engine, and of everything else but the data lines and
the levels of DIR and A7..A0. -/
def Obligations.ResetState : Prop :=
  State.reset.lines.req.dir = .output ∧ State.reset.lines.dir.dir = .output ∧
  (∀ n : Fin 8, State.reset.lines.addr[n].dir = .output) ∧ State.reset.lines.ack.dir = .input ∧
  State.reset.lines.req.out = false ∧ State.reset.phase = .idle ∧
  State.reset.held = false ∧ State.reset.holder = none ∧ State.reset.fault = none ∧ State.reset.wedged = false ∧
  State.reset.cur = none ∧ State.reset.cstep = none ∧ State.reset.polls = 0 ∧ State.reset.trace = [] ∧
  State.reset.scan = none

/-- R139: the data lines are In at start-up; the first `SetDir(Dn, Out)` replaces the latch with a draw. The latch itself is
a free value of the model (log 6), of which nothing is stated. -/
def Obligations.ResetDataLines : Prop :=
  ∀ n : Fin 8, State.reset.lines.data[n].dir = .input ∧
    (setDir (.data n) .output State.reset).lines.data[n] = ⟨.output, Config.freeLatch State.reset.env.drawn⟩

/-- The invariant holds after every start-up, whatever the parameters and the world around the core. -/
def Obligations.StartUpInv : Prop := ∀ (p : Params) (e : Env), (State.startUp p e).Inv

/-! ### The invariant of every step -/

/-- Every step keeps the invariant: fixed directions, no LineMisuse, the phase and REQ in agreement, every operation left of
a cycle legal, the cursor inside the stream (derived: R15, R25, R28, R77, R80, R85, R107). -/
def Obligations.StepKeepsInv : Prop := ∀ s t : State, s.Inv → step s = .next t → t.Inv

/-- From a state with the invariant no step stops: no fault and no refusal (derived: R77, R63). -/
def Obligations.StepNeverStops : Prop := ∀ s : State, s.Inv → ∃ t, step s = .next t

/-! ### Decoding and encoding -/

/-- Every row, at every value of its fields, is decoded from its own encoding wherever it is selected, and the bytes after
it are left (R51, R52, R56). -/
def Obligations.DecodeEncode : Prop :=
  ∀ (i : Instr) (rest : List Byte), i.selectedWhen (encode i ++ rest).length = true →
    decodeNext (encode i ++ rest) = .ok (i, rest)

/-- R61: the encoder's bytes, an opcode 0x00 or 0x01 and the operands, one instruction after the other; and decoding a
program made by it gives back the same list, in canonical form, with no trailing form. -/
def Obligations.DecodeProgram : Prop :=
  (∀ (x : BitVec 7) (a : Byte), encodeCanonical [.read x a] = [0x00, a]) ∧
  (∀ (x : BitVec 7) (a d : Byte), encodeCanonical [.write x a d] = [0x01, a, d]) ∧
  (∀ p q : List Instr, encodeCanonical (p ++ q) = encodeCanonical p ++ encodeCanonical q) ∧
  (∀ p : List Instr, isProgram p = true → decodeStream (encodeCanonical p) = (p.map Instr.canonical, none))

/-- Every stream is the encoding of what it decodes to: no byte is dropped, and the listing is well formed; and the other
way round a listing with any opcode bits decodes to itself, one that ends in a trailing form to the program and that form
(derived: R56, R57, R63, R104). That a listing keeps the ignored bits and may hold a trailing form is the model's choice
(log 30, log 26). -/
def Obligations.EncodeDecode : Prop :=
  (∀ s : List Byte,
    encodeStream ((decodeStream s).1 ++ (decodeStream s).2.toList) = s ∧
    isProgram (decodeStream s).1 = true ∧ (∀ i, (decodeStream s).2 = some i → i.isTrailing = true)) ∧
  (∀ p : List Instr, isProgram p = true → decodeStream (encodeStream p) = (p, none)) ∧
  (∀ (p : List Instr) (i : Instr), isProgram p = true → i.isTrailing = true →
    decodeStream (encodeStream (p ++ [i])) = (p, some i))

/-- The scan's row by row decoding is the pure decode of R104. -/
def Obligations.ScanIsDecode : Prop :=
  ∀ s : List Byte, decodeStream s =
    match decodeNext s with
    | .error .endOfStream => ([], none)
    | .ok (i, rest) =>
      if i.isTrailing then ([], some i) else (i :: (decodeStream rest).1, (decodeStream rest).2)

/-- The opcode byte alone sets the length of an instruction, `2 + o[0]`, and the next one starts right after it (from the
encoding's section on lengths and boundaries, R55). -/
def Obligations.LengthFromOpcode : Prop :=
  ∀ (o : Byte) (s rest : List Byte) (i : Instr), decodeNext (o :: s) = .ok (i, rest) → i.isTrailing = false →
    i.length = 2 + (o.getLsbD 0).toNat ∧ i.length ≤ (o :: s).length ∧ rest = (o :: s).drop i.length

/-- R53: only bit 0 of the opcode byte selects, 0 a READ and 1 a WRITE (or, with its data byte missing, the truncated WRITE
T2); bits 7 to 1 change neither the decoding nor the execution. A lone last byte is T1 whatever it is, bit 0 among its bits,
and any two values of it execute alike. -/
def Obligations.OpcodeBitsIgnored : Prop :=
  (∀ (o o' : Byte) (s : List Byte), o.getLsbD 0 = o'.getLsbD 0 →
    ∃ i i' rest, decodeNext (o :: s) = .ok (i, rest) ∧ decodeNext (o' :: s) = .ok (i', rest) ∧
      (∀ t : State, exec i t = exec i' t) ∧
      (s ≠ [] → i.canonical = i'.canonical ∧
        (o.getLsbD 0 = false → ∃ x a, i = .read x a) ∧
        (o.getLsbD 0 = true → (∃ x a d, i = .write x a d) ∨ (∃ x a, i = .trailT2 x a ∧ rest = [])))) ∧
  (∀ b b' : Byte, decodeNext [b] = .ok (.trailT1 b, []) ∧ ∀ t : State, exec (.trailT1 b) t = exec (.trailT1 b') t)

/-- Words written out from the encodings of R51, R52 and R56 decode as the table says (95_test_vectors.md section 4). -/
def Obligations.DecodeWords : Prop :=
  decodeStream [0x00, 0x05] = ([.read 0 0x05], none) ∧
  decodeStream [0xFE, 0x33] = ([.read 0x7F 0x33], none) ∧
  decodeStream [0x03, 0x44, 0x55] = ([.write 1 0x44 0x55], none) ∧
  decodeStream [0x00, 0x01, 0xAA] = ([.read 0 0x01], some (.trailT1 0xAA)) ∧
  decodeStream [0x02, 0x10, 0x01, 0x10] = ([.read 1 0x10], some (.trailT2 0 0x10)) ∧
  decodeStream [0x01, 0x02, 0x03, 0x04, 0x05] = ([.write 0 0x02 0x03, .read 2 0x05], none)

/-! ### The step and the scan -/

/-- A step of the core inside a `submit`, with no fault and no cycle in progress, runs the row decoded at `pc` (R95): on the
state as it stands when no turn is listed, on the state with the turn taken off when the core's turn is listed. -/
def Obligations.StepRunsDecoded : Prop :=
  ∀ (s : State) (sc : Scan) (i : Instr) (rest : List Byte),
    s.up = true → s.scan = some sc → s.fault = none → s.cycle = none →
    decodeNext (sc.buf.drop sc.pc) = .ok (i, rest) →
    (s.env.turns = [] → step s = exec i s) ∧
    (∀ ts, s.env.turns = .core :: ts → step s = exec i s.popTurn)

/-- A step of the core inside a cycle is one engine step of that cycle; the decoder does not look at the stream (R75, R88). -/
def Obligations.StepRunsCycle : Prop :=
  ∀ (s : State) (sc : Scan) (c : Cycle),
    s.up = true → s.scan = some sc → s.fault = none → s.cycle = some c →
    (s.env.turns = [] → step s = .next (engineStep c s)) ∧
    (∀ ts, s.env.turns = .core :: ts → step s = .next (engineStep c s.popTurn))

/-- R102, R114: at the end of the stream, with an ok exit draw, `submit` returns the results and `consumed = len(buf)`; with
a TransferFault draw it returns that error with no result bytes. Decoder state is gone, all else stays (R24, R121). That the
end of the scan is one step is the model's choice (log 1). -/
def Obligations.ScanEnds : Prop :=
  ∀ (s s0 : State) (sc : Scan),
    s.up = true → s.scan = some sc → s.fault = none → s.cycle = none → s.env.turns = [] →
    sc.pc = sc.buf.length →
    (drawExit s = (.ok, s0) →
      step s = .next { s0 with
        scan := none
        trace := s.trace ++ [.evReturn (.ok sc.results sc.buf.length)]
        replies := s.replies ++ [.returned (.ok sc.results sc.buf.length)] }) ∧
    (drawExit s = (.transferFault, s0) →
      step s = .next { s0 with
        scan := none
        trace := s.trace ++ [.evReturn (.error .transferFault)]
        replies := s.replies ++ [.returned (.error .transferFault)] })

/-- R114: whatever the stream holds, every `Ok` outcome carries the number of bytes of the stream as consumed; it comes at
the end of the stream, with the results of the scan. -/
def Obligations.OkConsumesAll : Prop :=
  ∀ (s t : State) (rs : List Byte) (n : Nat), s.Inv → s.up = true → step s = .next t →
    .evReturn (.ok rs n) ∈ t.trace.drop s.trace.length →
    ∃ sc, s.scan = some sc ∧ n = sc.buf.length ∧ sc.pc = n ∧ rs = sc.results

/-- What an aborted `submit` leaves (from R121, R122, R128): no scan, so no further transaction and no result byte; the lines
and the session as they were; after ResourceExhausted and TransferFault the phase is Idle, REQ 0, no cycle is left and `polls` is
0 (R28); after Timeout the phase is that of the wait and the core is wedged. -/
def Obligations.AbortLeaves : Prop :=
  ∀ (s t : State) (e : SubmitError), s.Inv → s.up = true → step s = .next t →
    .evReturn (.error e) ∈ t.trace.drop s.trace.length →
    t.scan = none ∧ t.lines = s.lines ∧ t.holder = s.holder ∧ t.phase = s.phase ∧
    (e ≠ .timeout → t.phase = .idle ∧ t.lines.req.out = false ∧ t.wedged = s.wedged ∧ t.cycle = none ∧ t.polls = 0) ∧
    (e = .timeout → t.wedged = true ∧ (t.phase = .requestAsserted ∧ t.lines.req.out = true ∨
      t.phase = .requestDeasserted ∧ t.lines.req.out = false))

/-! ### READ and WRITE -/

/-- READ starts its cycle (R97, R78, R82 step 1): `pc + 2`, a fresh record of its own bytes, DIR driven to 0, and nothing
else changed but the trace and the draw of `check_resources()`. That all this is one step is the model's choice (log 1). -/
def Obligations.ReadBegins : Prop :=
  ∀ (s s0 : State) (sc : Scan) (x : BitVec 7) (a : Byte),
    s.Ready → s.scan = some sc → drawResource s = (.ok, s0) →
    exec (.read x a) s = .next { s0 with
      scan := some { sc with pc := sc.pc + 2 }
      lines := { s.lines with dir := ⟨.output, false⟩ }
      trace := s.trace ++ [.evBegin (.read a), .evSet .dir false]
      cycle := some { cur := .read a, now := ⟨2, .idle, .setLine (.addr 7) (a.getLsbD 7)⟩,
                      later := (readOps a).tail, byte := 0 } }

/-- WRITE starts its cycle (R98, R78, R81 step 1): `pc + 3`, a fresh record of its own bytes, DIR driven to 1, and nothing
else changed but the trace and the draw of `check_resources()`. That all this is one step is the model's choice (log 1). -/
def Obligations.WriteBegins : Prop :=
  ∀ (s s0 : State) (sc : Scan) (x : BitVec 7) (a d : Byte),
    s.Ready → s.scan = some sc → drawResource s = (.ok, s0) →
    exec (.write x a d) s = .next { s0 with
      scan := some { sc with pc := sc.pc + 3 }
      lines := { s.lines with dir := ⟨.output, true⟩ }
      trace := s.trace ++ [.evBegin (.write a d), .evSet .dir true]
      cycle := some { cur := .write a d, now := ⟨2, .idle, .setLine (.addr 7) (a.getLsbD 7)⟩,
                      later := (writeOps a d).tail, byte := 0 } }

/-- WRITE completes (R81, R98, R83): started on a ready core, with a peer that answers both waits (P1 to P4, P6) after any
numbers `p` and `q` of wrong samples inside the poll bound, its whole cycle runs in the following steps. DIR = 1, A = a,
D7..D0 Out driving d, REQ = 0, phase Idle, `polls` cleared (R32), `pc + 3`, no result byte, the trace of R81 in order, and
nothing else changed. Whatever the directions of the data lines were before. The number of steps, one for each line operation
after the first and none for the decoding, the markers and the end of the cycle, rests on log 1, and the form of the turns on
log 2 and log 3. -/
def Obligations.WriteCompletes : Prop :=
  ∀ (s s0 : State) (sc : Scan) (x : BitVec 7) (a d : Byte) (p q : Nat) (u dn : PeerDrive) (rest : List Turn),
    s.Ready → s.scan = some sc → drawResource s = (.ok, s0) →
    s.env.peer.ack = some false → u.ack = some true → dn.ack = some false →
    waitsWithin s.params p → waitsWithin s.params q →
    s.env.turns = cycleTurns (17 + (turningLines s.lines .output).length) p 2 q u dn ++ rest →
    ∃ s1, exec (.write x a d) s = .next s1 ∧
      runSteps (22 + (turningLines s.lines .output).length + p + q) s1 = .next { s0 with
        scan := some { sc with pc := sc.pc + 3 }
        lines := s.lines.afterWrite a d
        trace := s.trace ++ writeEvents s.lines a d p q
        polls := 0
        env := { s0.env with
          turns := rest
          peer := dn
          drawn := s0.env.drawn + (turningLines s.lines .output).length } }

/-- READ completes (R82, R84, R97): as for WRITE, with a peer that drives the byte r while it holds ACK at 1 (P3). DIR = 0,
A = a, D7..D0 In, REQ = 0, phase Idle, `polls` cleared (R32), `pc + 2`, exactly the byte r appended to `results`, the trace of
R82 in order, and nothing else changed. The number of steps rests on log 1, the form of the turns on log 2 and log 3. -/
def Obligations.ReadCompletes : Prop :=
  ∀ (s s0 : State) (sc : Scan) (x : BitVec 7) (a r : Byte) (p q : Nat) (dn : PeerDrive) (rest : List Turn),
    s.Ready → s.scan = some sc → drawResource s = (.ok, s0) →
    s.env.peer.ack = some false → dn.ack = some false →
    waitsWithin s.params p → waitsWithin s.params q →
    s.env.turns =
      cycleTurns (9 + (turningLines s.lines .input).length) p 10 q (PeerDrive.acking true r) dn ++ rest →
    ∃ s1, exec (.read x a) s = .next s1 ∧
      runSteps (22 + (turningLines s.lines .input).length + p + q) s1 = .next { s0 with
        scan := some { sc with pc := sc.pc + 2, results := sc.results ++ [r] }
        lines := s.lines.afterRead a
        trace := s.trace ++ readEvents s.lines a r p q
        polls := 0
        env := { s0.env with turns := rest, peer := dn } }

/-- The trace of a cycle that runs to its end grows by 21 + k line events, k the number of data lines that turn (0 to 8), and
by one more for each wrong-level sample (derived: R89, R90). Under the hypotheses of `WriteCompletes` and `ReadCompletes`; the
number of steps rests on log 1. -/
def Obligations.CycleTraceLength : Prop :=
  (∀ (s s0 : State) (sc : Scan) (x : BitVec 7) (a d : Byte) (p q : Nat) (u dn : PeerDrive) (rest : List Turn),
    s.Ready → s.scan = some sc → drawResource s = (.ok, s0) →
    s.env.peer.ack = some false → u.ack = some true → dn.ack = some false →
    waitsWithin s.params p → waitsWithin s.params q →
    s.env.turns = cycleTurns (17 + (turningLines s.lines .output).length) p 2 q u dn ++ rest →
    (turningLines s.lines .output).length ≤ 8 ∧
    ∃ s1 t, exec (.write x a d) s = .next s1 ∧
      runSteps (22 + (turningLines s.lines .output).length + p + q) s1 = .next t ∧ t.phase = .idle ∧
      lineEvents t.trace = lineEvents s.trace + (21 + (turningLines s.lines .output).length) + p + q) ∧
  (∀ (s s0 : State) (sc : Scan) (x : BitVec 7) (a r : Byte) (p q : Nat) (dn : PeerDrive) (rest : List Turn),
    s.Ready → s.scan = some sc → drawResource s = (.ok, s0) →
    s.env.peer.ack = some false → dn.ack = some false →
    waitsWithin s.params p → waitsWithin s.params q →
    s.env.turns =
      cycleTurns (9 + (turningLines s.lines .input).length) p 10 q (PeerDrive.acking true r) dn ++ rest →
    (turningLines s.lines .input).length ≤ 8 ∧
    ∃ s1 t, exec (.read x a) s = .next s1 ∧
      runSteps (22 + (turningLines s.lines .input).length + p + q) s1 = .next t ∧ t.phase = .idle ∧
      lineEvents t.trace = lineEvents s.trace + (21 + (turningLines s.lines .input).length) + p + q)

/-- R119, R121: when `check_resources()` draws ResourceExhausted, READ and WRITE end the `submit` with that error before
their cycle begins: no line operation, no result bytes, the session stays held. -/
def Obligations.ResourceExhaustedAborts : Prop :=
  ∀ (s s0 : State) (sc : Scan) (x : BitVec 7) (a d : Byte),
    s.Ready → s.scan = some sc → drawResource s = (.resourceExhausted, s0) →
    let t : State := { s0 with
      scan := none
      trace := s.trace ++ [.evReturn (.error .resourceExhausted)]
      replies := s.replies ++ [.returned (.error .resourceExhausted)] }
    exec (.read x a) s = .next t ∧ exec (.write x a d) s = .next t ∧
    t.lines = s.lines ∧ t.phase = .idle ∧ t.holder = s.holder

/-- READ and WRITE start no cycle unless the phase is Idle and the core neither faulted nor wedged (from R79). That they then
answer no next state at all is the model's choice: a refusal by name (log 22), or the fault of a faulted core (log 23). -/
def Obligations.NoCycleUnlessReady : Prop :=
  ∀ (s t : State) (x : BitVec 7) (a d : Byte),
    s.phase ≠ .idle ∨ s.fault ≠ none ∨ s.wedged = true →
    exec (.read x a) s ≠ .next t ∧ exec (.write x a d) s ≠ .next t

/-- Frame of READ and WRITE: whenever either answers a next state, every line but DIR is as it was, DIR keeps its direction,
and the parameters, the session, the poll count, the peer, the turns and the stream with its results so far are as they
were; `wedged` is not set (R78, R97, R98, R115, R121). -/
def Obligations.TransferFrame : Prop :=
  ∀ (s t : State) (x : BitVec 7) (a d : Byte),
    exec (.read x a) s = .next t ∨ exec (.write x a d) s = .next t →
    t.lines.req = s.lines.req ∧ t.lines.ack = s.lines.ack ∧ t.lines.addr = s.lines.addr ∧
    t.lines.data = s.lines.data ∧ t.lines.dir.dir = s.lines.dir.dir ∧
    t.up = s.up ∧ t.params = s.params ∧ t.holder = s.holder ∧ t.polls = s.polls ∧ t.wedged = s.wedged ∧
    t.env.peer = s.env.peer ∧ t.env.turns = s.env.turns ∧ t.env.entryDraws = s.env.entryDraws ∧
    t.env.exitDraws = s.env.exitDraws ∧
    (∀ sc sc', s.scan = some sc → t.scan = some sc' → sc'.buf = sc.buf ∧ sc'.results = sc.results)

/-! ### Trailing forms -/

/-- T1 performs no transaction and no line operation and raises no error; `pc <- len(buf)`, and nothing else (from R99). In
particular a stream of length 1 yields zero transactions and an empty result with its byte consumed; that T1 and the end of
the scan take one step each is the model's choice (log 1). -/
def Obligations.TrailT1Skips : Prop :=
  (∀ (s : State) (sc : Scan) (b : Byte), s.scan = some sc →
    exec (.trailT1 b) s = .next { s with scan := some { sc with pc := sc.buf.length } }) ∧
  (∀ (s : State) (sc : Scan) (b : Byte) (xs : List ExitDraw),
    s.up = true → s.fault = none → s.cycle = none → s.scan = some sc → s.env.turns = [] →
    sc.buf = [b] → sc.pc = 0 → sc.results = [] → s.env.exitDraws = .ok :: xs →
    runSteps 2 s = .next { s with
      scan := none
      trace := s.trace ++ [.evReturn (.ok [] 1)]
      replies := s.replies ++ [.returned (.ok [] 1)]
      env := { s.env with exitDraws := xs } })

/-- R100: T2 performs no transaction and no line operation and raises no error; `pc <- pc + 2`, which is `len(buf)` where T2
is selected, and nothing else. The policy `skip` is the spec's decision D2 (log 15). -/
def Obligations.TrailT2Skips : Prop :=
  ∀ (s : State) (sc : Scan) (x : BitVec 7) (a : Byte), s.scan = some sc →
    exec (.trailT2 x a) s = .next { s with scan := some { sc with pc := sc.pc + 2 } } ∧
    ∀ rest, decodeNext (sc.buf.drop sc.pc) = .ok (.trailT2 x a, rest) → sc.pc + 2 = sc.buf.length

/-- Outside a `submit` no row has a meaning (R107: no transaction outside an active session; log 22), and no step of the core
runs one: the state stays as it is (log 24). -/
def Obligations.NothingOutsideSubmit : Prop :=
  ∀ s : State, s.scan = none → (∀ i : Instr, exec i s = .refused .noSubmit) ∧ coreStep s = .next s

/-! ### The Line Controller -/

/-- R64: a redundant `SetDir` on a data line changes nothing and emits nothing; a switch to In keeps the latch; a switch to
Out drives a level that is a draw, any one; each switch emits one event and changes nothing else; on any other line it is
misuse. On a running driver's core that is not faulted; `FaultedCoreStops` and `ShutdownEnds` say what happens otherwise. -/
def Obligations.SetDirData : Prop :=
  ∀ (s : State) (n : Fin 8) (d : Direction), s.up = true → s.fault = none →
    (s.lines.data[n].dir = d → setDir (.data n) d s = s) ∧
    (s.lines.data[n].dir = .output → d = .input → setDir (.data n) d s = { s with
      lines := { s.lines with data := s.lines.data.set n ⟨.input, s.lines.data[n].out⟩ }
      trace := s.trace ++ [.evDir (.data n) .input] }) ∧
    (s.lines.data[n].dir = .input → d = .output → ∃ b, setDir (.data n) d s = { s with
      lines := { s.lines with data := s.lines.data.set n ⟨.output, b⟩ }
      trace := s.trace ++ [.evDir (.data n) .output]
      env := { s.env with drawn := s.env.drawn + 1 } }) ∧
    (∀ t, t = setDir (.data n) d s → t.fault = none ∧ setDir (.data n) d t = t) ∧
    (∀ l : Line, (∀ m, l ≠ .data m) → (setDir l d s).fault = some .lineMisuse)

/-- R65: `SetDir` on REQ, ACK, DIR or any of A7..A0 is misuse: `fault <- LineMisuse`, no line changed, no event; and a
faulted core takes no further step. While the driver runs; `ShutdownEnds` says what happens otherwise. -/
def Obligations.SetDirMisuse : Prop :=
  ∀ (s : State) (l : Line) (d : Direction), s.up = true → (∀ n, l ≠ .data n) →
    setDir l d s = { s with fault := some .lineMisuse } ∧
    ∀ t, coreStep (setDir l d s) = .next t → t = setDir l d s

/-- R66 and R67: `SetLine` on an Out line sets its latch and emits its event, also when the level is the one it had; on an
In line it is misuse: `fault <- LineMisuse`, the latch unchanged, no event. No direction changes, no other line. On a running
driver's core that is not faulted; `FaultedCoreStops` and `ShutdownEnds` say what happens otherwise. -/
def Obligations.SetLineDrives : Prop :=
  ∀ (s : State) (l : Line) (b : Level), s.up = true → s.fault = none →
    ((s.lines.get l).dir = .output →
      (setLine l b s).lines.get l = ⟨.output, b⟩ ∧
      (∀ l', l' ≠ l → (setLine l b s).lines.get l' = s.lines.get l') ∧
      setLine l b s = { s with lines := (setLine l b s).lines, trace := s.trace ++ [.evSet l b] }) ∧
    ((s.lines.get l).dir = .input → setLine l b s = { s with fault := some .lineMisuse })

/-- R68 and R69: `GetLine` of ACK, or of a data line that is In, returns a level and emits its event, and changes nothing
else but the count of free values; of any other line it is misuse and returns no value. On a running driver's core that is
not faulted; `FaultedCoreStops` and `ShutdownEnds` say what happens otherwise. -/
def Obligations.GetLineSamples : Prop :=
  ∀ (s : State) (l : Line), s.up = true → s.fault = none →
    (l = .ack ∨ (∃ n, l = .data n ∧ s.lines.data[n].dir = .input) →
      ∃ b k, getLine l s = (some b, { s with
        trace := s.trace ++ [.evGet l b]
        env := { s.env with drawn := k } })) ∧
    (¬(l = .ack ∨ (∃ n, l = .data n ∧ s.lines.data[n].dir = .input)) →
      getLine l s = (none, { s with fault := some .lineMisuse }))

/-- Which level a sample reads (R68: the level the peer drives now): the one the model holds for the peer on that line, and
where it holds none a free value, a new one for each sample. The peer's levels as data are the model's choice (log 3). -/
def Obligations.SampleReadsPeer : Prop :=
  ∀ (s : State) (l : Line), s.up = true → s.fault = none →
    l = .ack ∨ (∃ n, l = .data n ∧ s.lines.data[n].dir = .input) →
    (∀ b, s.env.peer.level l = some b → getLine l s = (some b, { s with trace := s.trace ++ [.evGet l b] })) ∧
    (s.env.peer.level l = none → getLine l s = (some (Config.freeLevel s.env.drawn), { s with
      trace := s.trace ++ [.evGet l (Config.freeLevel s.env.drawn)]
      env := { s.env with drawn := s.env.drawn + 1 } }))

/-- R70: `SetBus` on eight Out lines drives bit 7 - i of the byte onto the i-th line of the list, in order, one event each,
also for lines that had the level; it stops with the misuse of `SetLine` at the first line, here number m, that is not Out,
with the lines before it driven. While the driver runs, on a core that is not faulted. -/
def Obligations.SetBusMsbFirst : Prop :=
  ∀ (s : State) (v : Byte), s.up = true → s.fault = none →
    ((∀ n : Fin 8, s.lines.addr[n].dir = .output) →
      setBus addrBus v s = { s with
        lines := { s.lines with addr := busLines .output v }
        trace := s.trace ++ setBusEvents addrBus v }) ∧
    (s.lines.dataAll .output →
      setBus dataBus v s = { s with
        lines := { s.lines with data := busLines .output v }
        trace := s.trace ++ setBusEvents dataBus v }) ∧
    (∀ m : Fin 8, s.lines.addr[m].dir = .input → (∀ n : Fin 8, m < n → s.lines.addr[n].dir = .output) →
      ∃ w : Vector LineState 8,
        (∀ n : Fin 8, w[n] = if m < n then ⟨.output, v.getLsbD n⟩ else s.lines.addr[n]) ∧
        setBus addrBus v s = { s with
          lines := { s.lines with addr := w }
          trace := s.trace ++ (setBusEvents addrBus v).take (7 - m)
          fault := some .lineMisuse }) ∧
    (∀ m : Fin 8, s.lines.data[m].dir = .input → (∀ n : Fin 8, m < n → s.lines.data[n].dir = .output) →
      ∃ w : Vector LineState 8,
        (∀ n : Fin 8, w[n] = if m < n then ⟨.output, v.getLsbD n⟩ else s.lines.data[n]) ∧
        setBus dataBus v s = { s with
          lines := { s.lines with data := w }
          trace := s.trace ++ (setBusEvents dataBus v).take (7 - m)
          fault := some .lineMisuse })

/-- R71: `GetBus(DATA)` with every data line In samples D7 first and D0 last, one event each, and returns the byte whose bit
n is the sample of Dn; each sample is a draw of its own: the level the peer drives on Dn, or, where the model holds none, the
free level at a count no other sample uses (log 3). With an Out line it stops with the misuse of `GetLine` at the first one,
here number m, and returns nothing. This is a harness's call on a running driver's core that is not faulted; inside a
READ each sample is a step of its own (`OneLineOperationPerStep`). -/
def Obligations.GetBusMsbFirst : Prop :=
  ∀ s : State, s.up = true → s.fault = none →
    (s.lines.dataAll .input → ∃ v : Byte,
      (∀ n : Fin 8, v.getLsbD n =
        s.env.peer.data[n].getD (Config.freeLevel (s.env.drawn + s.env.peer.freeFrom (n + 1)))) ∧
      getBus dataBus s = (some v, { s with
        trace := s.trace ++ getBusEvents dataBus v
        env := { s.env with drawn := s.env.drawn + s.env.peer.freeFrom 0 } })) ∧
    (∀ m : Fin 8, s.lines.data[m].dir = .output → (∀ n : Fin 8, m < n → s.lines.data[n].dir = .input) →
      ∃ v : Byte,
        (∀ n : Fin 8, m < n → v.getLsbD n =
          s.env.peer.data[n].getD (Config.freeLevel (s.env.drawn + s.env.peer.freeFrom (n + 1)))) ∧
        getBus dataBus s = (none, { s with
          trace := s.trace ++ (getBusEvents dataBus v).take (7 - m)
          fault := some .lineMisuse
          env := { s.env with drawn := s.env.drawn + s.env.peer.freeFrom (m + 1) } }))

/-! ### Waiting -/

/-- R72: in a `WaitAck(b)` each wrong-level sample is one event and one count, and the first sample that reads `b` ends it:
the wait is on a level. -/
def Obligations.WaitEndsOnLevel : Prop :=
  ∀ (s : State) (sc : Scan) (c : Cycle) (b : Level) (p : Nat) (u : PeerDrive) (rest : List Turn),
    s.up = true → s.scan = some sc → s.fault = none → s.cycle = some c → c.now.op = .waitAck b → s.polls = 0 →
    s.env.peer.ack = some (!b) → u.ack = some b → waitsWithin s.params p →
    s.env.turns = List.replicate p .core ++ .peer u :: .core :: rest →
    runSteps (p + 2) s = .next (advance c { s with
      polls := p
      trace := s.trace ++ List.replicate p (.evGet .ack (!b)) ++ [.evGet .ack b]
      env := { s.env with turns := rest, peer := u } })

/-- The poll bound is `none` by default. With a bound n, a `WaitAck` whose first n samples all read the wrong level raises
Timeout at the n-th wrong sample and takes no further sample (from R73); it leaves phase, REQ and every other line as they
were, the session held and the core wedged (from R122). That the part-done cycle stays in the state is the model's inference
(log 12). -/
def Obligations.PollBound : Prop :=
  State.reset.params.ackPollLimit = none ∧
  ∀ (s : State) (sc : Scan) (c : Cycle) (b : Level) (lim : PollLimit),
    s.up = true → s.scan = some sc → s.fault = none → s.cycle = some c → c.now.op = .waitAck b → s.polls = 0 →
    s.env.peer.ack = some (!b) → s.env.turns = [] → s.params.ackPollLimit = some lim →
    (∀ k, k < lim.n → runSteps k s = .next { s with
      polls := k
      trace := s.trace ++ List.replicate k (.evGet .ack (!b)) }) ∧
    (∀ m, runSteps (lim.n + m) s = .next { s with
      polls := lim.n
      scan := none
      wedged := true
      trace := s.trace ++ List.replicate lim.n (.evGet .ack (!b)) ++ [.evReturn (.error .timeout)]
      replies := s.replies ++ [.returned (.error .timeout)] })

/-- R124: without a poll bound, while the peer never drives ACK to the awaited level, the `submit` never returns, whatever
the other agents do: after any number of steps it is still in the same wait, the lines are as they were, the session is
held by the same caller, and every `acquire` returns Busy. -/
def Obligations.DeadPeerHangs : Prop :=
  ∀ (s : State) (sc : Scan) (c : Cycle) (b : Level) (h : CallerId),
    s.up = true → s.scan = some sc → s.holder = some h → s.fault = none → s.cycle = some c → c.now.op = .waitAck b →
    s.params.ackPollLimit = none → s.env.peer.ack = some (!b) →
    (∀ d, Turn.peer d ∈ s.env.turns → d.ack = some (!b)) →
    ∀ k, ∃ t, runSteps k s = .next t ∧ t.scan = some sc ∧ t.cycle = some c ∧ t.phase = s.phase ∧
      t.lines = s.lines ∧ t.holder = some h ∧
      ∀ c', hostCall c' .acquire t = State.answer (.busy c') t

/-! ### Whole-machine rules -/

/-- Every step of the core inside a cycle performs exactly one line operation (derived: R75, R92). -/
def Obligations.OneLineOperationPerStep : Prop :=
  ∀ s t : State, s.Inv → s.up = true → s.scan ≠ none → s.cycle ≠ none → s.mover = .core → step s = .next t →
    lineEvents t.trace = lineEvents s.trace + 1

/-- R80: while the driver runs, the phase stays or moves along Idle, AddressAndDataAsserted, RequestAsserted,
PeerAcknowledged, RequestDeasserted, Idle. -/
def Obligations.PhaseMachine : Prop :=
  ∀ s t : State, s.Inv → s.up = true → step s = .next t →
    t.phase = s.phase ∨
    (s.phase = .idle ∧ t.phase = .addressAndDataAsserted) ∨
    (s.phase = .addressAndDataAsserted ∧ t.phase = .requestAsserted) ∨
    (s.phase = .requestAsserted ∧ t.phase = .peerAcknowledged) ∨
    (s.phase = .peerAcknowledged ∧ t.phase = .requestDeasserted) ∨
    (s.phase = .requestDeasserted ∧ t.phase = .idle)

/-- A cycle begins (its `EvBegin`) only with the phase Idle and no cycle in progress, so after the end of the one before
(from R88: cycles never overlap). -/
def Obligations.CyclesNeverOverlap : Prop :=
  ∀ (s t : State) (tx : BusTransaction), s.Inv → s.up = true → step s = .next t →
    .evBegin tx ∈ t.trace.drop s.trace.length → s.phase = .idle ∧ s.cycle = none ∧ s.lines.req.out = false

/-- From AddressAndDataAsserted on, DIR, the address lines and the data lines are as the record says: driven before REQ rises
(derived: R85, R86, R147). -/
def Obligations.AssertedBeforeRequest : Prop :=
  ∀ (s : State) (c : Cycle), s.Inv → s.cycle = some c → s.phase ≠ .idle → asserts c.cur s.lines

/-- None of DIR, A7..A0 and D7..D0 changes from AddressAndDataAsserted until the cycle has ended (derived: R85, R86). -/
def Obligations.LinesStableWhileRequested : Prop :=
  ∀ s t : State, s.Inv → s.up = true → s.phase ≠ .idle → step s = .next t →
    t.lines.dir = s.lines.dir ∧ t.lines.addr = s.lines.addr ∧ t.lines.data = s.lines.data

/-- Data lines are sampled only after ACK has read 1 in the same cycle and before REQ falls (derived: R85). -/
def Obligations.SamplesOnlyWhenAcknowledged : Prop :=
  ∀ (s t : State) (n : Fin 8) (b : Level), s.Inv → s.up = true → step s = .next t →
    t.trace = s.trace ++ [.evGet (.data n) b] → s.phase = .peerAcknowledged ∧ s.lines.req.out = true

/-- R15: a start-up leaves REQ, DIR and A7..A0 Out and ACK In, no step changes any of these directions, in any state of a
running driver, and a `SetDir` on one of these lines is misuse there. -/
def Obligations.FixedDirectionsNeverChange : Prop :=
  (∀ (p : Params) (e : Env), (State.startUp p e).lines.FixedDirections) ∧
  (∀ s t : State, s.up = true → step s = .next t →
    t.lines.req.dir = s.lines.req.dir ∧ t.lines.dir.dir = s.lines.dir.dir ∧ t.lines.ack.dir = s.lines.ack.dir ∧
    ∀ n : Fin 8, t.lines.addr[n].dir = s.lines.addr[n].dir) ∧
  (∀ (s : State) (l : Line) (d : Direction), s.up = true → (∀ n, l ≠ .data n) → (setDir l d s).fault = some .lineMisuse)

/-- R29: the trace is append-only for the lifetime of a driver, and R6: no operation changes a parameter. -/
def Obligations.TraceAppendOnly : Prop :=
  ∀ s t : State, s.up = true → step s = .next t → s.trace <+: t.trace ∧ t.params = s.params

/-- R25 and R47: inside one `submit` the stream never changes, the cursor never goes back, and the results only grow. -/
def Obligations.StreamNeverChanges : Prop :=
  ∀ (s t : State) (sc sc' : Scan), step s = .next t → s.scan = some sc → t.scan = some sc' → sc.pc ≤ sc.buf.length →
    sc'.buf = sc.buf ∧ sc.pc ≤ sc'.pc ∧ sc.results <+: sc'.results

/-- Only steps of the core, and a start-up, touch the lines, the engine and the decoder state of a `submit` in progress
(derived: R115, R116). -/
def Obligations.OnlyCoreTouchesLines : Prop :=
  ∀ s t : State, s.up = true → s.mover ≠ .core → step s = .next t →
    t.lines = s.lines ∧ t.phase = s.phase ∧ t.cycle = s.cycle ∧ t.polls = s.polls ∧
    lineEvents t.trace = lineEvents s.trace ∧ (∀ sc, s.scan = some sc → t.scan = some sc)

/-- Under P5 host and peer never drive a data line at once (derived: R149, R86). -/
def Obligations.NoContention : Prop := ∀ s : State, s.Inv → PeerContract.p5 s → ¬contention s

/-! ### The session -/

/-- R108: `acquire` is a test-and-set: Busy at once and no other change while a session is active, also for its holder;
otherwise the caller holds the session and gets its handle. It touches no line. -/
def Obligations.AcquireTestAndSet : Prop :=
  ∀ (s : State) (c : CallerId), s.up = true →
    (∀ h, s.holder = some h → hostCall c .acquire s = { s with replies := s.replies ++ [.busy c] }) ∧
    (s.holder = none →
      hostCall c .acquire s = { s with holder := some c, replies := s.replies ++ [.handle ⟨c⟩] })

/-- R109: `release` with the active handle by its holder frees the session and changes no line, also on a wedged core, and
after it an `acquire` by any caller succeeds; with no session held, or a handle that is not the holder's, it is refused. (Why
the holder cannot make it during its own `submit`: `SubmitIsSynchronous`.) -/
def Obligations.ReleaseFrees : Prop :=
  ∀ (s : State) (c c' : CallerId), s.up = true →
    (s.holder = some c →
      hostCall c (.release ⟨c⟩) s = { s with holder := none, replies := s.replies ++ [.released c] } ∧
      (hostCall c' .acquire (hostCall c (.release ⟨c⟩) s)).holder = some c') ∧
    (∀ h, (∀ c₀, s.holder = some c₀ → h ≠ ⟨c₀⟩) → ∃ why, hostCall c (.release h) s = refuseCall (.caller c) why s)

/-- R111: `release` and `submit` without the session or with another handle, and `submit` on a wedged or faulted core, are
refused: nothing but a refusal mark. -/
def Obligations.CallsRefused : Prop :=
  ∀ (s : State) (c : CallerId) (h : SessionHandle) (stream : List Byte), s.up = true →
    (s.holder ≠ some c ∨ h ≠ ⟨c⟩ → ∃ why, hostCall c (.release h) s = refuseCall (.caller c) why s) ∧
    (s.holder ≠ some c ∨ h ≠ ⟨c⟩ ∨ s.wedged = true ∨ s.fault ≠ none →
      ∃ why, hostCall c (.submit h stream) s = refuseCall (.caller c) why s)

/-- R110 and R94, the entry of an allowed `submit`: `EvSubmit`, one entry draw; ok takes a snapshot of the stream with
`pc = 0` and no results, unless the stream is over-length; an error returns at once, a forced over-length
ResourceExhausted before a drawn TransferFault (R119, R120, R126). No line changes. -/
def Obligations.SubmitEntry : Prop :=
  ∀ (s s0 : State) (c : CallerId) (stream : List Byte) (e : EntryDraw),
    s.up = true → s.holder = some c → s.wedged = false → s.fault = none →
    drawEntry { s with trace := s.trace ++ [.evSubmit stream.length] } = (e, s0) →
    (overLength stream s = false → e = .ok →
      hostCall c (.submit ⟨c⟩ stream) s = { s0 with scan := some { buf := stream, pc := 0, results := [] } }) ∧
    (overLength stream s = true ∨ e = .resourceExhausted →
      hostCall c (.submit ⟨c⟩ stream) s = raise .resourceExhausted s0) ∧
    (overLength stream s = false → e = .transferFault →
      hostCall c (.submit ⟨c⟩ stream) s = raise .transferFault s0) ∧
    (hostCall c (.submit ⟨c⟩ stream) s).lines = s.lines

/-- An empty stream performs no transaction and no line operation and returns `Ok([], 0)` (from R103). That the entry and the
end of the scan take one step each is the model's choice (log 1). -/
def Obligations.EmptyStream : Prop :=
  ∀ (s : State) (c : CallerId) (es : List EntryDraw) (xs : List ExitDraw),
    s.up = true → s.holder = some c → s.wedged = false → s.fault = none → s.cycle = none → s.scan = none →
    s.env.turns = [.call c (.submit ⟨c⟩ [])] → s.env.entryDraws = .ok :: es → s.env.exitDraws = .ok :: xs →
    runSteps 2 s = .next { s with
      trace := s.trace ++ [.evSubmit 0, .evReturn (.ok [] 0)]
      replies := s.replies ++ [.returned (.ok [] 0)]
      env := { s.env with turns := [], entryDraws := es, exitDraws := xs } }

/-- The holder of the session makes no call, a `release` as little as any other, while its `submit` is in progress (from R109,
R112). That in a list of turns such a call waits and the core moves instead is the model's choice (log 11). -/
def Obligations.SubmitIsSynchronous : Prop :=
  ∀ (s : State) (sc : Scan) (c : CallerId) (op : HostOp) (ts : List Turn),
    s.scan = some sc → s.holder = some c → s.env.turns = .call c op :: ts → step s = coreStep s

/-- Another caller's `acquire` during a `submit` returns Busy in its own step, without waiting, and the `submit` is as it
was (derived: R116, R118). -/
def Obligations.BusyDuringSubmit : Prop :=
  ∀ (s : State) (sc : Scan) (c c' : CallerId) (ts : List Turn),
    s.up = true → s.scan = some sc → s.holder = some c → c' ≠ c → s.env.turns = .call c' .acquire :: ts →
    step s = .next { s with replies := s.replies ++ [.busy c'], env := { s.env with turns := ts } }

/-! ### Faults, start-up and shutdown -/

/-- A faulted core takes no step (from R123): inside a `submit` the step faults by name, outside one nothing changes (log 23);
a line operation issued by a harness does nothing, emits nothing and samples nothing (log 34); and every later `submit` is
refused (R111). -/
def Obligations.FaultedCoreStops : Prop :=
  ∀ s : State, s.up = true → s.fault = some .lineMisuse →
    (s.scan ≠ none → coreStep s = .fault .lineMisuse) ∧ (s.scan = none → coreStep s = .next s) ∧
    (∀ l d, setDir l d s = s) ∧ (∀ l b, setLine l b s = s) ∧ (∀ l, getLine l s = (none, s)) ∧
    (∀ ls v, setBus ls v s = s) ∧ getBus dataBus s = (none, s) ∧
    ∀ c h stream, ∃ why, hostCall c (.submit h stream) s = refuseCall (.caller c) why s

/-- After shutdown every operation of a caller is refused and the core does nothing; shutdown during a `submit` is not
admitted, U21 (from R143). That a line operation issued by a harness then does nothing, emits nothing and samples nothing is
the model's inference (log 36). -/
def Obligations.ShutdownEnds : Prop :=
  ∀ s : State, s.up = true →
    (s.scan = none → shutDown s = { s with up := false } ∧
      coreStep (shutDown s) = .next (shutDown s) ∧
      (∀ c op, hostCall c op (shutDown s) = refuseCall (.caller c) .notRunning (shutDown s)) ∧
      (∀ l d, setDir l d (shutDown s) = shutDown s) ∧ (∀ l b, setLine l b (shutDown s) = shutDown s) ∧
      (∀ l, getLine l (shutDown s) = (none, shutDown s)) ∧ (∀ ls v, setBus ls v (shutDown s) = shutDown s) ∧
      getBus dataBus (shutDown s) = (none, shutDown s)) ∧
    (s.scan ≠ none → shutDown s = refuseCall .platform .submitInProgress s)

/-- R144: a start-up after a shutdown clears `wedged` and `fault` and resets all state to what R138 to R141 give (the world
around the core stays), and no other step clears either. -/
def Obligations.StartUpResets : Prop :=
  (∀ (s : State) (p : Params) (ts : List Turn), s.up = false → s.env.turns = .startUp p :: ts →
    ∃ t, step s = .next t ∧ t = State.startUp p { s.env with turns := ts } ∧
      t.up = true ∧ t.params = p ∧ t.fault = none ∧ t.wedged = false ∧ t.phase = .idle ∧
      t.cycle = none ∧ t.scan = none ∧ t.polls = 0 ∧ t.holder = none ∧ t.trace = [] ∧
      t.lines.FixedDirections ∧ t.lines.dataAll .input ∧ t.lines.req.out = false ∧
      t.env.turns = ts ∧ t.env.peer = s.env.peer) ∧
  (∀ s t : State, step s = .next t → s.fault ≠ none ∧ t.fault = none ∨ s.wedged = true ∧ t.wedged = false →
    s.up = false ∧ ∃ p ts, s.env.turns = .startUp p :: ts)

/-! ### The echo peer -/

/-- The round trip of 95_test_vectors.md S1 as one stream (S1 itself is two submits): against F-ECHO, for every address and
every value, a WRITE followed by a READ of the same address yields the value, in 50 + k steps, and F-ECHO's map holds it
(derived; F-ECHO is a fixture, log 32; the number of steps rests on log 1). The invariant (`StartUpInv`, `StepKeepsInv`) rules
out a state, which no run reaches, with REQ at 1 in Idle: there F-ECHO would see no rise of REQ to react to. -/
def Obligations.EchoRoundTrip : Prop :=
  ∀ (s : State) (sc : Scan) (m : Memory) (o o' a v : Byte) (tail : List Byte) (rs : List ResourceDraw),
    s.Inv → s.Ready → s.scan = some sc → sc.buf.drop sc.pc = o :: a :: v :: o' :: a :: tail →
    o.getLsbD 0 = true → o'.getLsbD 0 = false → Memory.wf m = true →
    s.env.turns = [] → s.env.resourceDraws = .ok :: .ok :: rs →
    ∃ t, echoRun (50 + (turningLines s.lines .output).length) { host := s, peer := ⟨m, false, false⟩ } =
        .next { host := t, peer := ⟨Memory.write a.toNat v m, false, false⟩ } ∧
      t.scan = some { sc with pc := sc.pc + 5, results := sc.results ++ [v] } ∧
      t.phase = .idle ∧ t.cycle = none ∧ t.lines.req.out = false ∧ t.lines.dataAll .input
end

