-- ==== Sys2Proof/Laws/Bits.lean ====
section
/-! SUPPORT. The bits of a byte over eight lines (rules R13, R70, R71). -/
namespace Sys2Proof.Machine

/-- `v[n] <- b` sets bit n and no other. -/
theorem getLsbD_setBit (v : Byte) (n : Nat) (b : Level) (i : Nat) (hi : i < 8) :
    (setBit v n b).getLsbD i = if i = n then b else v.getLsbD i := by
  have h1 : (1#8 <<< n).getLsbD i = decide (i = n) := by
    rw [BitVec.getLsbD_shiftLeft, BitVec.getLsbD_one]
    by_cases h : i = n
    · subst h; simp [hi]
    · by_cases h2 : i < n <;> simp [h, h2]; omega
  unfold setBit
  cases b <;> simp only [Bool.false_eq_true, if_false, if_true, BitVec.getLsbD_and, BitVec.getLsbD_or,
    BitVec.getLsbD_not, h1, hi, decide_true, Bool.true_and]
  all_goals by_cases h : i = n <;> simp [h]

/-- Eight lines whose latches hold a byte carry that byte. -/
theorem busByte_busLines (d : Direction) (v : Byte) : busByte (busLines d v) = v := by
  apply BitVec.eq_of_getLsbD_eq
  intro i hi
  simp only [busByte, getLsbD_setBit _ _ _ _ hi, busLines]
  interval_cases i <;> rfl

/-- Entry n of eight lines carries bit n. -/
theorem busLines_get (d : Direction) (v : Byte) (n : Fin 8) : (busLines d v)[n] = ⟨d, v.getLsbD n⟩ := by
  fin_cases n <;> rfl

/-- Eight samples, MSB first, assemble the byte whose bits they are (rule R71). -/
theorem recordSamples (v : Byte) (b7 b6 b5 b4 b3 b2 b1 b0 : Level) :
    bitsMsbFirst (setBit (setBit (setBit (setBit (setBit (setBit (setBit (setBit v
      7 b7) 6 b6) 5 b5) 4 b4) 3 b3) 2 b2) 1 b1) 0 b0) = [b7, b6, b5, b4, b3, b2, b1, b0] := by
  simp (disch := decide) only [bitsMsbFirst, getLsbD_setBit]
  rfl

/-- A byte is its bits. -/
theorem bitsMsbFirst_inj {v w : Byte} (h : bitsMsbFirst v = bitsMsbFirst w) : v = w := by
  apply BitVec.eq_of_getLsbD_eq
  simp only [bitsMsbFirst, List.cons.injEq] at h
  obtain ⟨h7, h6, h5, h4, h3, h2, h1, h0, -⟩ := h
  intro i hi
  interval_cases i <;> assumption

end Sys2Proof.Machine
end

