-- ==== Sys2Proof/Laws/Lines.lean ====
section
/-! SUPPORT. Reading and replacing one line, and what a line operation does to the lines. -/
namespace Sys2Proof.Machine

@[simp] theorem Lines.get_set_self (ls : Lines) (l : Line) (x : LineState) : (ls.set l x).get l = x := by
  cases l <;> simp [Lines.get, Lines.set]

theorem Lines.get_set_ne (ls : Lines) {l l' : Line} (x : LineState) (h : l' ≠ l) :
    (ls.set l x).get l' = ls.get l' := by
  cases l <;> cases l' <;> simp_all [Lines.get, Lines.set]
  all_goals
    rename_i n m
    have hne : n.val ≠ m.val := fun e => h (Fin.ext e.symm)
    simp [hne]

@[simp] theorem Lines.set_get (ls : Lines) (l : Line) : ls.set l (ls.get l) = ls := by
  cases l <;> simp [Lines.get, Lines.set]

/-- Two line sets are equal when every line is. -/
theorem Lines.ext_get {ls ls' : Lines} (h : ∀ l, ls.get l = ls'.get l) : ls = ls' := by
  obtain ⟨r, a, d, ad, da⟩ := ls
  obtain ⟨r', a', d', ad', da'⟩ := ls'
  have h1 : r = r' := h .req
  have h2 : a = a' := h .ack
  have h3 : d = d' := h .dir
  have h4 : ad = ad' := Vector.ext fun i hi => h (.addr ⟨i, hi⟩)
  have h5 : da = da' := Vector.ext fun i hi => h (.data ⟨i, hi⟩)
  subst h1 h2 h3 h4 h5
  rfl

/-- Same directions on every line: all that legality and redundancy depend on. -/
def Lines.SameDirs (ls ls' : Lines) : Prop := ∀ l, (ls.get l).dir = (ls'.get l).dir

theorem Lines.SameDirs.refl (ls : Lines) : ls.SameDirs ls := fun _ => rfl

theorem Lines.SameDirs.data {ls ls' : Lines} (h : ls.SameDirs ls') (n : Fin 8) :
    ls.data[n].dir = ls'.data[n].dir := h (.data n)

theorem Lines.SameDirs.fixed {ls ls' : Lines} (h : ls.SameDirs ls') (hf : ls.FixedDirections) :
    ls'.FixedDirections :=
  ⟨(h .req).symm.trans hf.req, (h .ack).symm.trans hf.ack, (h .dir).symm.trans hf.dir,
   fun n => (h (.addr n)).symm.trans (hf.addr n)⟩

/-- Replacing one line's state by one of the same direction. -/
theorem Lines.SameDirs.set (ls : Lines) (l : Line) (x : LineState) (h : x.dir = (ls.get l).dir) :
    ls.SameDirs (ls.set l x) := by
  intro l'
  by_cases e : l' = l
  · subst e; simp [h]
  · rw [Lines.get_set_ne ls x e]

/-- Replacing a data line keeps the fixed directions. -/
theorem Lines.FixedDirections.set_data {ls : Lines} (h : ls.FixedDirections) (n : Fin 8) (x : LineState) :
    (ls.set (.data n) x).FixedDirections := ⟨h.req, h.ack, h.dir, h.addr⟩

theorem Lines.SameDirs.apply {ls ls' : Lines} (h : ls.SameDirs ls') (op : LineOp) :
    (ls.apply op).SameDirs (ls'.apply op) := by
  intro l'
  cases op with
  | setDir l d =>
    by_cases e : l' = l
    · subst e; simp [Lines.apply]
    · simp only [Lines.apply, Lines.get_set_ne _ _ e]; exact h l'
  | setLine l b =>
    by_cases e : l' = l
    · subst e; simpa [Lines.apply] using h l'
    · simp only [Lines.apply, Lines.get_set_ne _ _ e]; exact h l'
  | getLine l => exact h l'
  | waitAck b => exact h l'

theorem Lines.SameDirs.redundant {ls ls' : Lines} (h : ls.SameDirs ls') (op : LineOp) :
    Machine.redundant ls op = Machine.redundant ls' op := by
  cases op with
  | setDir l d => cases l <;> simp [Machine.redundant]; rename_i n; have := h.data n; simp_all
  | setLine l b => rfl
  | getLine l => rfl
  | waitAck b => rfl

theorem Lines.SameDirs.legalOp {ls ls' : Lines} (h : ls.SameDirs ls') (op : LineOp) :
    Machine.legalOp ls op = Machine.legalOp ls' op := by
  cases op with
  | setDir l d => cases l <;> rfl
  | setLine l b => simp [Machine.legalOp, h l]
  | getLine l =>
    cases l <;> simp [Machine.legalOp, sampleable]
    rename_i n; have := h.data n; simp_all
  | waitAck b => rfl

theorem Lines.SameDirs.legalOps {ls ls' : Lines} (h : ls.SameDirs ls') (ops : List CycleOp) :
    Machine.legalOps ls ops = Machine.legalOps ls' ops := by
  induction ops generalizing ls ls' with
  | nil => rfl
  | cons o os ih => simp [Machine.legalOps, h.legalOp o.op, ih (h.apply o.op)]

/-- A redundant operation leaves the lines as they are. -/
theorem Lines.apply_redundant {ls : Lines} {op : LineOp} (h : redundant ls op = true) : ls.apply op = ls := by
  cases op with
  | setDir l d =>
    cases l <;> simp [redundant] at h
    rename_i n
    have : { ls.get (.data n) with dir := d } = ls.get (.data n) := by subst h; rfl
    rw [Lines.apply, this, Lines.set_get]
  | setLine l b => simp [redundant] at h
  | getLine l => rfl
  | waitAck b => rfl

/-- Skipping redundant operations does not change what the others do. -/
theorem Lines.replay_dropWhile (ls : Lines) (ops : List CycleOp) :
    ls.replay (ops.dropWhile fun o => redundant ls o.op) = ls.replay ops := by
  induction ops with
  | nil => rfl
  | cons o os ih =>
    by_cases h : redundant ls o.op
    · rw [List.dropWhile_cons_of_pos (by simpa using h), ih]
      simp [Lines.replay, Lines.apply_redundant h]
    · rw [List.dropWhile_cons_of_neg (by simpa using h)]

theorem legalOps_dropWhile {ls : Lines} {ops : List CycleOp} (h : legalOps ls ops = true) :
    legalOps ls (ops.dropWhile fun o => redundant ls o.op) = true := by
  induction ops with
  | nil => rfl
  | cons o os ih =>
    by_cases hr : redundant ls o.op
    · rw [List.dropWhile_cons_of_pos (by simpa using hr)]
      simp only [legalOps, Lines.apply_redundant hr, Bool.and_eq_true] at h
      exact ih h.2
    · rwa [List.dropWhile_cons_of_neg (by simpa using hr)]

end Sys2Proof.Machine
end

