-- ==== Sys2Proof/Laws/State.lean ====
section
/-! SUPPORT. One lemma per field per named update of the state, so that no later proof unfolds a record update. -/
namespace Sys2Proof.Machine

section
variable (s : State)

/-! ### emit -/

@[simp] theorem emit_up (ev : Event) : (s.emit ev).up = s.up := rfl
@[simp] theorem emit_params (ev : Event) : (s.emit ev).params = s.params := rfl
@[simp] theorem emit_lines (ev : Event) : (s.emit ev).lines = s.lines := rfl
@[simp] theorem emit_phase (ev : Event) : (s.emit ev).phase = s.phase := rfl
@[simp] theorem emit_cycle (ev : Event) : (s.emit ev).cycle = s.cycle := rfl
@[simp] theorem emit_polls (ev : Event) : (s.emit ev).polls = s.polls := rfl
@[simp] theorem emit_scan (ev : Event) : (s.emit ev).scan = s.scan := rfl
@[simp] theorem emit_holder (ev : Event) : (s.emit ev).holder = s.holder := rfl
@[simp] theorem emit_fault (ev : Event) : (s.emit ev).fault = s.fault := rfl
@[simp] theorem emit_wedged (ev : Event) : (s.emit ev).wedged = s.wedged := rfl
@[simp] theorem emit_trace (ev : Event) : (s.emit ev).trace = s.trace ++ [ev] := rfl
@[simp] theorem emit_replies (ev : Event) : (s.emit ev).replies = s.replies := rfl
@[simp] theorem emit_env (ev : Event) : (s.emit ev).env = s.env := rfl

/-! ### answer -/

@[simp] theorem answer_up (r : Reply) : (s.answer r).up = s.up := rfl
@[simp] theorem answer_params (r : Reply) : (s.answer r).params = s.params := rfl
@[simp] theorem answer_lines (r : Reply) : (s.answer r).lines = s.lines := rfl
@[simp] theorem answer_phase (r : Reply) : (s.answer r).phase = s.phase := rfl
@[simp] theorem answer_cycle (r : Reply) : (s.answer r).cycle = s.cycle := rfl
@[simp] theorem answer_polls (r : Reply) : (s.answer r).polls = s.polls := rfl
@[simp] theorem answer_scan (r : Reply) : (s.answer r).scan = s.scan := rfl
@[simp] theorem answer_holder (r : Reply) : (s.answer r).holder = s.holder := rfl
@[simp] theorem answer_fault (r : Reply) : (s.answer r).fault = s.fault := rfl
@[simp] theorem answer_wedged (r : Reply) : (s.answer r).wedged = s.wedged := rfl
@[simp] theorem answer_trace (r : Reply) : (s.answer r).trace = s.trace := rfl
@[simp] theorem answer_replies (r : Reply) : (s.answer r).replies = s.replies ++ [r] := rfl
@[simp] theorem answer_env (r : Reply) : (s.answer r).env = s.env := rfl

/-! ### misuse -/

@[simp] theorem misuse_up : (s.misuse).up = s.up := rfl
@[simp] theorem misuse_params : (s.misuse).params = s.params := rfl
@[simp] theorem misuse_lines : (s.misuse).lines = s.lines := rfl
@[simp] theorem misuse_phase : (s.misuse).phase = s.phase := rfl
@[simp] theorem misuse_cycle : (s.misuse).cycle = s.cycle := rfl
@[simp] theorem misuse_polls : (s.misuse).polls = s.polls := rfl
@[simp] theorem misuse_scan : (s.misuse).scan = s.scan := rfl
@[simp] theorem misuse_holder : (s.misuse).holder = s.holder := rfl
@[simp] theorem misuse_fault : (s.misuse).fault = some .lineMisuse := rfl
@[simp] theorem misuse_wedged : (s.misuse).wedged = s.wedged := rfl
@[simp] theorem misuse_trace : (s.misuse).trace = s.trace := rfl
@[simp] theorem misuse_replies : (s.misuse).replies = s.replies := rfl
@[simp] theorem misuse_env : (s.misuse).env = s.env := rfl

/-! ### countDraw -/

@[simp] theorem countDraw_up : (s.countDraw).up = s.up := rfl
@[simp] theorem countDraw_params : (s.countDraw).params = s.params := rfl
@[simp] theorem countDraw_lines : (s.countDraw).lines = s.lines := rfl
@[simp] theorem countDraw_phase : (s.countDraw).phase = s.phase := rfl
@[simp] theorem countDraw_cycle : (s.countDraw).cycle = s.cycle := rfl
@[simp] theorem countDraw_polls : (s.countDraw).polls = s.polls := rfl
@[simp] theorem countDraw_scan : (s.countDraw).scan = s.scan := rfl
@[simp] theorem countDraw_holder : (s.countDraw).holder = s.holder := rfl
@[simp] theorem countDraw_fault : (s.countDraw).fault = s.fault := rfl
@[simp] theorem countDraw_wedged : (s.countDraw).wedged = s.wedged := rfl
@[simp] theorem countDraw_trace : (s.countDraw).trace = s.trace := rfl
@[simp] theorem countDraw_replies : (s.countDraw).replies = s.replies := rfl
@[simp] theorem countDraw_env : (s.countDraw).env = { s.env with drawn := s.env.drawn + 1 } := rfl

/-! ### popTurn -/

@[simp] theorem popTurn_up : (s.popTurn).up = s.up := rfl
@[simp] theorem popTurn_params : (s.popTurn).params = s.params := rfl
@[simp] theorem popTurn_lines : (s.popTurn).lines = s.lines := rfl
@[simp] theorem popTurn_phase : (s.popTurn).phase = s.phase := rfl
@[simp] theorem popTurn_cycle : (s.popTurn).cycle = s.cycle := rfl
@[simp] theorem popTurn_polls : (s.popTurn).polls = s.polls := rfl
@[simp] theorem popTurn_scan : (s.popTurn).scan = s.scan := rfl
@[simp] theorem popTurn_holder : (s.popTurn).holder = s.holder := rfl
@[simp] theorem popTurn_fault : (s.popTurn).fault = s.fault := rfl
@[simp] theorem popTurn_wedged : (s.popTurn).wedged = s.wedged := rfl
@[simp] theorem popTurn_trace : (s.popTurn).trace = s.trace := rfl
@[simp] theorem popTurn_replies : (s.popTurn).replies = s.replies := rfl
@[simp] theorem popTurn_env : (s.popTurn).env = { s.env with turns := s.env.turns.tail } := rfl

/-! ### peerMove -/

@[simp] theorem peerMove_up (d : PeerDrive) : (peerMove d s).up = s.up := rfl
@[simp] theorem peerMove_params (d : PeerDrive) : (peerMove d s).params = s.params := rfl
@[simp] theorem peerMove_lines (d : PeerDrive) : (peerMove d s).lines = s.lines := rfl
@[simp] theorem peerMove_phase (d : PeerDrive) : (peerMove d s).phase = s.phase := rfl
@[simp] theorem peerMove_cycle (d : PeerDrive) : (peerMove d s).cycle = s.cycle := rfl
@[simp] theorem peerMove_polls (d : PeerDrive) : (peerMove d s).polls = s.polls := rfl
@[simp] theorem peerMove_scan (d : PeerDrive) : (peerMove d s).scan = s.scan := rfl
@[simp] theorem peerMove_holder (d : PeerDrive) : (peerMove d s).holder = s.holder := rfl
@[simp] theorem peerMove_fault (d : PeerDrive) : (peerMove d s).fault = s.fault := rfl
@[simp] theorem peerMove_wedged (d : PeerDrive) : (peerMove d s).wedged = s.wedged := rfl
@[simp] theorem peerMove_trace (d : PeerDrive) : (peerMove d s).trace = s.trace := rfl
@[simp] theorem peerMove_replies (d : PeerDrive) : (peerMove d s).replies = s.replies := rfl
@[simp] theorem peerMove_env (d : PeerDrive) : (peerMove d s).env = { s.env with peer := d } := rfl

/-! ### refuseCall -/

@[simp] theorem refuseCall_up (a : Agent) (w : CallRefusal) : (refuseCall a w s).up = s.up := rfl
@[simp] theorem refuseCall_params (a : Agent) (w : CallRefusal) : (refuseCall a w s).params = s.params := rfl
@[simp] theorem refuseCall_lines (a : Agent) (w : CallRefusal) : (refuseCall a w s).lines = s.lines := rfl
@[simp] theorem refuseCall_phase (a : Agent) (w : CallRefusal) : (refuseCall a w s).phase = s.phase := rfl
@[simp] theorem refuseCall_cycle (a : Agent) (w : CallRefusal) : (refuseCall a w s).cycle = s.cycle := rfl
@[simp] theorem refuseCall_polls (a : Agent) (w : CallRefusal) : (refuseCall a w s).polls = s.polls := rfl
@[simp] theorem refuseCall_scan (a : Agent) (w : CallRefusal) : (refuseCall a w s).scan = s.scan := rfl
@[simp] theorem refuseCall_holder (a : Agent) (w : CallRefusal) : (refuseCall a w s).holder = s.holder := rfl
@[simp] theorem refuseCall_fault (a : Agent) (w : CallRefusal) : (refuseCall a w s).fault = s.fault := rfl
@[simp] theorem refuseCall_wedged (a : Agent) (w : CallRefusal) : (refuseCall a w s).wedged = s.wedged := rfl
@[simp] theorem refuseCall_trace (a : Agent) (w : CallRefusal) : (refuseCall a w s).trace = s.trace := rfl
@[simp] theorem refuseCall_replies (a : Agent) (w : CallRefusal) : (refuseCall a w s).replies = s.replies ++ [.refused a w] := rfl
@[simp] theorem refuseCall_env (a : Agent) (w : CallRefusal) : (refuseCall a w s).env = s.env := rfl

/-! ### endSubmit -/

@[simp] theorem endSubmit_up (o : SubmitOutcome) : (endSubmit o s).up = s.up := rfl
@[simp] theorem endSubmit_params (o : SubmitOutcome) : (endSubmit o s).params = s.params := rfl
@[simp] theorem endSubmit_lines (o : SubmitOutcome) : (endSubmit o s).lines = s.lines := rfl
@[simp] theorem endSubmit_phase (o : SubmitOutcome) : (endSubmit o s).phase = s.phase := rfl
@[simp] theorem endSubmit_cycle (o : SubmitOutcome) : (endSubmit o s).cycle = s.cycle := rfl
@[simp] theorem endSubmit_polls (o : SubmitOutcome) : (endSubmit o s).polls = s.polls := rfl
@[simp] theorem endSubmit_scan (o : SubmitOutcome) : (endSubmit o s).scan = none := rfl
@[simp] theorem endSubmit_holder (o : SubmitOutcome) : (endSubmit o s).holder = s.holder := rfl
@[simp] theorem endSubmit_fault (o : SubmitOutcome) : (endSubmit o s).fault = s.fault := rfl
@[simp] theorem endSubmit_wedged (o : SubmitOutcome) : (endSubmit o s).wedged = s.wedged := rfl
@[simp] theorem endSubmit_trace (o : SubmitOutcome) : (endSubmit o s).trace = s.trace ++ [.evReturn o] := rfl
@[simp] theorem endSubmit_replies (o : SubmitOutcome) : (endSubmit o s).replies = s.replies ++ [.returned o] := rfl
@[simp] theorem endSubmit_env (o : SubmitOutcome) : (endSubmit o s).env = s.env := rfl

/-! ### raise -/

@[simp] theorem raise_up (e : SubmitError) : (raise e s).up = s.up := rfl
@[simp] theorem raise_params (e : SubmitError) : (raise e s).params = s.params := rfl
@[simp] theorem raise_lines (e : SubmitError) : (raise e s).lines = s.lines := rfl
@[simp] theorem raise_phase (e : SubmitError) : (raise e s).phase = s.phase := rfl
@[simp] theorem raise_cycle (e : SubmitError) : (raise e s).cycle = s.cycle := rfl
@[simp] theorem raise_polls (e : SubmitError) : (raise e s).polls = s.polls := rfl
@[simp] theorem raise_scan (e : SubmitError) : (raise e s).scan = none := rfl
@[simp] theorem raise_holder (e : SubmitError) : (raise e s).holder = s.holder := rfl
@[simp] theorem raise_fault (e : SubmitError) : (raise e s).fault = s.fault := rfl
@[simp] theorem raise_wedged (e : SubmitError) : (raise e s).wedged = s.wedged := rfl
@[simp] theorem raise_trace (e : SubmitError) : (raise e s).trace = s.trace ++ [.evReturn (.error e)] := rfl
@[simp] theorem raise_replies (e : SubmitError) : (raise e s).replies = s.replies ++ [.returned (.error e)] := rfl
@[simp] theorem raise_env (e : SubmitError) : (raise e s).env = s.env := rfl

/-! ### timeOut -/

@[simp] theorem timeOut_up : (timeOut s).up = s.up := rfl
@[simp] theorem timeOut_params : (timeOut s).params = s.params := rfl
@[simp] theorem timeOut_lines : (timeOut s).lines = s.lines := rfl
@[simp] theorem timeOut_phase : (timeOut s).phase = s.phase := rfl
@[simp] theorem timeOut_cycle : (timeOut s).cycle = s.cycle := rfl
@[simp] theorem timeOut_polls : (timeOut s).polls = s.polls := rfl
@[simp] theorem timeOut_scan : (timeOut s).scan = none := rfl
@[simp] theorem timeOut_holder : (timeOut s).holder = s.holder := rfl
@[simp] theorem timeOut_fault : (timeOut s).fault = s.fault := rfl
@[simp] theorem timeOut_wedged : (timeOut s).wedged = true := rfl
@[simp] theorem timeOut_trace : (timeOut s).trace = s.trace ++ [.evReturn (.error .timeout)] := rfl
@[simp] theorem timeOut_replies : (timeOut s).replies = s.replies ++ [.returned (.error .timeout)] := rfl
@[simp] theorem timeOut_env : (timeOut s).env = s.env := rfl

end

end Sys2Proof.Machine
end

