-- ==== Sys2Proof/Laws/Ops.lean ====
section
/-! SUPPORT. One lemma per shared operation that says everything it can do; the provers cite these instead of unfolding. -/
namespace Sys2Proof.Machine

/-! ### Draws -/

/-- A sample's draw counts at most one free value. -/
theorem drawLevel_frame (l : Line) (s : State) :
    ∃ n, (drawLevel l s).2 = { s with env := { s.env with drawn := n } } := by
  unfold drawLevel
  split
  · exact ⟨s.env.drawn, rfl⟩
  · exact ⟨s.env.drawn + 1, rfl⟩

/-- A sample reads the level the peer drives, where the model says one. -/
theorem drawLevel_driven {l : Line} {s : State} {b : Level} (h : s.env.peer.level l = some b) :
    drawLevel l s = (b, s) := by
  simp [drawLevel, h]

/-- A resource draw changes nothing but the listed draws and the count. -/
theorem drawResource_frame (s : State) :
    ∃ rs n, (drawResource s).2 = { s with env := { s.env with resourceDraws := rs, drawn := n } } := by
  unfold drawResource
  split
  · exact ⟨_, s.env.drawn, rfl⟩
  · exact ⟨s.env.resourceDraws, s.env.drawn + 1, rfl⟩

/-- An entry draw changes nothing but the listed draws and the count. -/
theorem drawEntry_frame (s : State) :
    ∃ es n, (drawEntry s).2 = { s with env := { s.env with entryDraws := es, drawn := n } } := by
  unfold drawEntry
  split
  · exact ⟨_, s.env.drawn, rfl⟩
  · exact ⟨s.env.entryDraws, s.env.drawn + 1, rfl⟩

/-- An exit draw changes nothing but the listed draws and the count. -/
theorem drawExit_frame (s : State) :
    ∃ xs n, (drawExit s).2 = { s with env := { s.env with exitDraws := xs, drawn := n } } := by
  unfold drawExit
  split
  · exact ⟨_, s.env.drawn, rfl⟩
  · exact ⟨s.env.exitDraws, s.env.drawn + 1, rfl⟩

/-! ### The Line Controller -/

/-- A misuse on a faulted core sets what is set: there is one sticky fault (rule R27). -/
theorem misuse_faulted {s : State} (h : s.fault ≠ none) : s.misuse = s := by
  obtain ⟨f, hf⟩ := Option.ne_none_iff_exists'.1 h
  cases f
  simp only [State.misuse, ← hf]

theorem operating_iff (s : State) : s.operating = true ↔ s.up = true ∧ s.fault = none := by
  simp [State.operating]

theorem operating_of {s : State} (hu : s.up = true) (hf : s.fault = none) : s.operating = true :=
  (operating_iff s).2 ⟨hu, hf⟩

/-- On a faulted core, and where there is none, no line operation acts (rules R123, R143; log 34, log 36). -/
theorem setDir_idle {s : State} (h : s.operating = false) (l : Line) (d : Direction) : setDir l d s = s :=
  if_pos (by simp [h])

theorem setLine_idle {s : State} (h : s.operating = false) (l : Line) (b : Level) : setLine l b s = s :=
  if_pos (by simp [h])

theorem getLine_idle {s : State} (h : s.operating = false) (l : Line) : getLine l s = (none, s) :=
  if_pos (by simp [h])

/-- The fault alone stops the line operations (rule R123; log 34). -/
theorem operating_faulted {s : State} (h : s.fault ≠ none) : s.operating = false := by
  rw [State.operating, Option.isNone_eq_false_iff.2 (Option.isSome_iff_ne_none.2 h), Bool.and_false]

theorem not_idle {s : State} (h : s.operating = true) : ¬(!s.operating) = true := by simp [h]

/-- A `SetDir` of a fixed-direction line is misuse (rule R65). -/
theorem setDir_fixed {l : Line} (h : ∀ n, l ≠ .data n) (d : Direction) {s : State} (hu : s.up = true) :
    setDir l d s = s.misuse := by
  by_cases hf : s.fault = none
  · cases l with
    | data n => exact absurd rfl (h n)
    | req | ack | dir | addr n => simp [setDir, operating_of hu hf]
  · rw [setDir_idle (operating_faulted hf), misuse_faulted hf]

/-- A redundant `SetDir` does nothing (rule R64). -/
theorem setDir_redundant {n : Fin 8} {d : Direction} {s : State} (h : s.lines.data[n].dir = d) :
    setDir (.data n) d s = s := by
  unfold setDir
  split
  · rfl
  · exact if_pos h

/-- An effective `SetDir` of a data line turns that line, whose latch is drawn when it turns Out (rule R64). -/
theorem setDir_data {n : Fin 8} {d : Direction} {s : State} (ho : s.operating = true)
    (h : s.lines.data[n].dir ≠ d) :
    ∃ b k, setDir (.data n) d s = { s with
        lines := s.lines.set (.data n) ⟨d, b⟩
        trace := s.trace ++ [.evDir (.data n) d]
        env := { s.env with drawn := k } } ∧
      (d = .input → b = s.lines.data[n].out ∧ k = s.env.drawn) ∧
      (d = .output → b = Config.freeLatch s.env.drawn ∧ k = s.env.drawn + 1) := by
  cases d with
  | input =>
    refine ⟨s.lines.data[n].out, s.env.drawn, ?_, fun _ => ⟨rfl, rfl⟩, fun h => nomatch h⟩
    simp only [setDir, if_neg (not_idle ho), if_neg h]
    rfl
  | output =>
    refine ⟨_, s.env.drawn + 1, ?_, (fun h => nomatch h), fun _ => ⟨rfl, rfl⟩⟩
    simp only [setDir, if_neg (not_idle ho), if_neg h]
    rfl

/-- `SetLine` of an Out line (rule R66). -/
theorem setLine_out {l : Line} {s : State} (ho : s.operating = true) (h : (s.lines.get l).dir = .output) (b : Level) :
    setLine l b s = { s with
      lines := s.lines.set l { s.lines.get l with out := b }
      trace := s.trace ++ [.evSet l b] } := by
  simp only [setLine, if_neg (not_idle ho), if_pos h]
  rfl

/-- `SetLine` of an In line is misuse (rule R67). -/
theorem setLine_in {l : Line} {s : State} (hu : s.up = true) (h : (s.lines.get l).dir ≠ .output) (b : Level) :
    setLine l b s = s.misuse := by
  by_cases hf : s.fault = none
  · simp only [setLine, if_neg (not_idle (operating_of hu hf)), if_neg h]
  · rw [setLine_idle (operating_faulted hf), misuse_faulted hf]

/-- `GetLine` of a line that may be sampled (rule R68). -/
theorem getLine_some {l : Line} {s : State} (ho : s.operating = true) (h : sampleable s.lines l = true) :
    ∃ b k, getLine l s = (some b, { s with
        trace := s.trace ++ [.evGet l b]
        env := { s.env with drawn := k } }) ∧ b = (drawLevel l s).1 := by
  obtain ⟨k, hk⟩ := drawLevel_frame l s
  refine ⟨(drawLevel l s).1, k, ?_, rfl⟩
  simp only [getLine, if_neg (not_idle ho), if_pos h, hk]
  rfl

/-- `GetLine` of a line whose level the peer is known to drive. -/
theorem getLine_driven {l : Line} {s : State} {b : Level} (ho : s.operating = true) (h : sampleable s.lines l = true)
    (hp : s.env.peer.level l = some b) :
    getLine l s = (some b, { s with trace := s.trace ++ [.evGet l b] }) := by
  simp only [getLine, if_neg (not_idle ho), if_pos h, drawLevel_driven hp]
  rfl

/-- Any other `GetLine` is misuse (rule R69). -/
theorem getLine_none {l : Line} {s : State} (hu : s.up = true) (h : sampleable s.lines l ≠ true) :
    getLine l s = (none, s.misuse) := by
  by_cases hf : s.fault = none
  · simp only [getLine, if_neg (not_idle (operating_of hu hf)), if_neg h]
  · rw [getLine_idle (operating_faulted hf), misuse_faulted hf]

/-! ### One line operation of a cycle -/

/-- The event a line operation leaves (rule R30). -/
def eventOf : LineOp → Event → Bool
  | .setDir l d, ev => ev = .evDir l d
  | .setLine l b, ev => ev = .evSet l b
  | .getLine l, ev => ev = .evGet l false || ev = .evGet l true
  | .waitAck _, ev => ev = .evGet .ack false || ev = .evGet .ack true

/-- `s₁` is `s` after the line operation `op`, which left the event `ev`. -/
structure Performed (op : LineOp) (s s₁ : State) (ev : Event) : Prop where
  frame : s₁ = { s with
    lines := s₁.lines
    trace := s.trace ++ [ev]
    env := { s.env with drawn := s₁.env.drawn } }
  event : ev.isLine = true
  kind : eventOf op ev = true
  dirs : (s.lines.apply op).SameDirs s₁.lines
  lines : s₁.lines = s.lines.apply op ∨
    ∃ n b, op = .setDir (.data n) .output ∧ s₁.lines = s.lines.set (.data n) ⟨.output, b⟩

theorem performed_setDir {l : Line} {d : Direction} {s : State} (ho : s.operating = true)
    (hl : legalOp s.lines (.setDir l d) = true)
    (he : redundant s.lines (.setDir l d) = false) :
    Performed (.setDir l d) s (setDir l d s) (.evDir l d) := by
  cases l with
  | data n =>
    have hd : s.lines.data[n].dir ≠ d := by simpa [redundant] using he
    obtain ⟨b, k, h, hi, _⟩ := setDir_data ho hd
    rw [h]
    have hdirs : (s.lines.apply (.setDir (.data n) d)).SameDirs (s.lines.set (.data n) ⟨d, b⟩) := by
      intro l'
      by_cases e : l' = .data n
      · subst e; simp [Lines.apply]
      · simp [Lines.apply, Lines.get_set_ne _ _ e]
    refine ⟨rfl, rfl, by simp [eventOf], hdirs, ?_⟩
    cases d with
    | input => left; obtain ⟨hb, -⟩ := hi rfl; subst hb; rfl
    | output => right; exact ⟨n, b, rfl, rfl⟩
  | req => simp [legalOp] at hl
  | ack => simp [legalOp] at hl
  | dir => simp [legalOp] at hl
  | addr n => simp [legalOp] at hl

theorem performed_setLine {l : Line} {b : Level} {s : State} (ho : s.operating = true)
    (hl : legalOp s.lines (.setLine l b) = true) :
    Performed (.setLine l b) s (setLine l b s) (.evSet l b) := by
  have hd : (s.lines.get l).dir = .output := by simpa [legalOp] using hl
  rw [setLine_out ho hd]
  exact ⟨rfl, rfl, by simp [eventOf], Lines.SameDirs.refl _, .inl rfl⟩

theorem performed_getLine {l : Line} {s : State} (ho : s.operating = true) (hl : sampleable s.lines l = true) :
    ∃ b s₁, getLine l s = (some b, s₁) ∧ Performed (.getLine l) s s₁ (.evGet l b) ∧ b = (drawLevel l s).1 := by
  obtain ⟨b, k, h, hb⟩ := getLine_some ho hl
  exact ⟨b, _, h, ⟨rfl, rfl, by cases b <;> simp [eventOf], Lines.SameDirs.refl _, .inl rfl⟩, hb⟩

end Sys2Proof.Machine
end

