-- ==== Sys2Proof/Laws/Bus.lean ====
section
/-! SUPPORT. A `SetBus` and a `GetBus` issued by a harness, line by line (rules R70, R71). -/
namespace Sys2Proof.Machine

/-! ### SetBus -/

/-- `SetLine`s of Out lines, in order (rule R70). -/
theorem setLines_out {ls : List Line} {bs : List Level} {s : State} (ho : s.operating = true) (hl : ls.length = bs.length)
    (hd : ∀ l ∈ ls, (s.lines.get l).dir = .output) :
    (ls.zip bs).foldl (fun s x => setLine x.1 x.2 s) s = { s with
      lines := (ls.zip bs).foldl (fun (ls : Lines) x => ls.set x.1 ⟨.output, x.2⟩) s.lines
      trace := s.trace ++ List.zipWith .evSet ls bs } := by
  induction ls generalizing bs s with
  | nil => simp
  | cons l ls ih =>
    obtain - | ⟨b, bs⟩ := bs
    · simp at hl
    have hd1 := hd l (by simp)
    simp only [List.zip_cons_cons, List.foldl_cons]
    rw [setLine_out ho hd1]
    simp only [hd1]
    rw [ih (by exact ho) (by simpa using hl) ?_]
    · simp
    · intro l' hl'
      by_cases e : l' = l
      · subst e; simp
      · simp only [Lines.get_set_ne _ _ e]; exact hd l' (by simp [hl'])

/-- Where no core takes steps no `SetLine` of a `SetBus` acts (rules R123, R143; log 34, log 36). -/
theorem setLines_idle {z : List (Line × Level)} {s : State} (h : s.operating = false) :
    z.foldl (fun s x => setLine x.1 x.2 s) s = s := by
  induction z with
  | nil => rfl
  | cons y z ih => rw [List.foldl_cons, setLine_idle h]; exact ih

/-- Driving some lines leaves every other line alone. -/
theorem get_setLines {ls : List Line} {bs : List Level} {s : Lines} {l : Line} (h : l ∉ ls) :
    ((ls.zip bs).foldl (fun (s : Lines) x => s.set x.1 ⟨.output, x.2⟩) s).get l = s.get l := by
  induction ls generalizing bs s with
  | nil => simp
  | cons y ls ih =>
    cases bs with
    | nil => simp
    | cons b bs =>
      simp only [List.mem_cons, not_or] at h
      simp only [List.zip_cons_cons, List.foldl_cons]
      rw [ih h.2, Lines.get_set_ne _ _ h.1]

/-- A `SetBus` stops at its first line that is In, with the lines before it driven (rule R70). -/
theorem setLines_in {ls ms : List Line} {bs cs : List Level} {l : Line} {b : Level} {s : State} (ho : s.operating = true)
    (hl : ls.length = bs.length) (hd : ∀ l ∈ ls, (s.lines.get l).dir = .output) (hin : (s.lines.get l).dir = .input) :
    ((ls ++ l :: ms).zip (bs ++ b :: cs)).foldl (fun s x => setLine x.1 x.2 s) s = { s with
      lines := (ls.zip bs).foldl (fun (ls : Lines) x => ls.set x.1 ⟨.output, x.2⟩) s.lines
      trace := s.trace ++ List.zipWith .evSet ls bs
      fault := some .lineMisuse } := by
  have hn : l ∉ ls := fun h => by rw [hd l h] at hin; cases hin
  rw [List.zip_append hl, List.foldl_append, setLines_out ho hl hd, List.zip_cons_cons, List.foldl_cons,
    setLine_in (l := l) (by exact ((operating_iff s).1 ho).1) (by simp only [get_setLines hn, hin]; nofun),
    setLines_idle (operating_faulted (by simp))]
  rfl

/-! ### GetBus -/

/-- The free draws of a `GetBus` that is past line Dn: one more where the model holds no level on Dn. -/
theorem freeFrom_step (p : PeerDrive) (n : Fin 8) :
    p.freeFrom n = p.freeFrom (n + 1) + if p.data[n].isNone then 1 else 0 := by
  have e : List.finRange 8 = [0, 1, 2, 3, 4, 5, 6, 7] := rfl
  fin_cases n <;> simp [PeerDrive.freeFrom, e, List.countP_cons]

/-- No data line has a number above 7. -/
theorem freeFrom_end (p : PeerDrive) : p.freeFrom 8 = 0 := by simp [PeerDrive.freeFrom]

/-- The sample of Dn in a `GetBus`: the peer's level, or the free level at that draw's own count (rules R68, R71; log 3). -/
def busSample (s : State) (n : Fin 8) : Level :=
  s.env.peer.data[n].getD (Config.freeLevel (s.env.drawn + s.env.peer.freeFrom (n + 1)))

/-- One line of a `GetBus`: `k` is `n + 1` and `j` is `n`, written as the numerals they are. -/
theorem getBusFrom_data {s : State} {n : Fin 8} (k j : Nat) (hk : (n : Nat) + 1 = k) (hj : (n : Nat) = j)
    {ls : List Line} {v : Byte} {tr : List Event} (ho : s.operating = true) (hd : s.lines.data[n].dir = .input) :
    getBusFrom (.data n :: ls) v { s with
        trace := tr
        env := { s.env with drawn := s.env.drawn + s.env.peer.freeFrom k } } =
      getBusFrom ls (setBit v n (busSample s n)) { s with
        trace := tr ++ [.evGet (.data n) (busSample s n)]
        env := { s.env with drawn := s.env.drawn + s.env.peer.freeFrom j } } := by
  subst hk hj
  have h : getLine (.data n) { s with
        trace := tr
        env := { s.env with drawn := s.env.drawn + s.env.peer.freeFrom (n + 1) } } =
      (some (busSample s n), { s with
        trace := tr ++ [.evGet (.data n) (busSample s n)]
        env := { s.env with drawn := s.env.drawn + s.env.peer.freeFrom n } }) := by
    rw [freeFrom_step]
    obtain ⟨hu, hf⟩ := (operating_iff s).1 ho
    simp only [getLine, State.operating, hu, hf, sampleable, hd, drawLevel, PeerDrive.level, busSample]
    cases s.env.peer.data[n] <;> simp [State.emit, State.countDraw, Nat.add_assoc]
  simp only [getBusFrom, h, recordSample]

end Sys2Proof.Machine
end

