-- ==== Sys2Proof/Laws/Engine.lean ====
section
/-! SUPPORT. What one step of a cycle can do, and what holds of every operation in the two cycles' lists. -/
namespace Sys2Proof.Machine

/-! ### Inversion of the engine's step -/

/-- A legal, effective operation is performed; then the engine goes on, or, on a wrong ACK sample, polls again. -/
theorem engineStep_cases {c : Cycle} {s : State} (hr : s.operating = true)
    (hl : legalOp s.lines c.now.op = true)
    (he : redundant s.lines c.now.op = false) :
    ∃ s₁ ev, Performed c.now.op s s₁ ev ∧
      ((∃ v, engineStep c s = advance { c with byte := v } s₁) ∨
       (∃ b, c.now.op = .waitAck b ∧ engineStep c s = pollAgain s₁)) := by
  unfold engineStep
  cases h : c.now.op with
  | setDir l d =>
    rw [h] at hl he
    exact ⟨_, _, performed_setDir hr hl he, .inl ⟨c.byte, rfl⟩⟩
  | setLine l b =>
    rw [h] at hl
    exact ⟨_, _, performed_setLine hr hl, .inl ⟨c.byte, rfl⟩⟩
  | getLine l =>
    rw [h] at hl
    obtain ⟨b, s₁, hg, hp, -⟩ := performed_getLine (s := s) (l := l) hr hl
    refine ⟨s₁, _, hp, .inl ⟨recordSample c.byte l b, ?_⟩⟩
    simp only [hg]
  | waitAck b =>
    obtain ⟨x, s₁, hg, hp, -⟩ := performed_getLine (s := s) (l := .ack) hr rfl
    refine ⟨s₁, _, ⟨hp.frame, hp.event, hp.kind, hp.dirs, ?_⟩, ?_⟩
    · rcases hp.lines with h | ⟨n, b, h, -⟩
      · exact .inl h
      · nomatch h
    · simp only [hg]
      by_cases hx : x = b
      · exact .inl ⟨c.byte, by simp [hx]⟩
      · exact .inr ⟨b, rfl, by simp [hx]⟩

/-- Going on with a cycle: it ends, or the next effective operation is entered. -/
theorem advance_cases {c : Cycle} {s : State} (hf : s.fault = none) :
    ((c.later.dropWhile fun o => redundant s.lines o.op) = [] ∧ advance c s = finishCycle c s) ∨
    (∃ o os, (c.later.dropWhile fun o => redundant s.lines o.op) = o :: os ∧
      advance c s = { s with
        cycle := some { c with now := o, later := os }
        phase := o.phase
        polls := pollsEntering o.op s.polls }) := by
  cases h : c.later.dropWhile fun o => redundant s.lines o.op with
  | nil => exact .inl ⟨rfl, by simp [advance, hf, h]⟩
  | cons o os => exact .inr ⟨o, os, rfl, by simp [advance, hf, h]⟩

/-- A wrong sample: one more poll, or a timeout at the bound. -/
theorem pollAgain_cases (s : State) :
    pollAgain s = { s with polls := s.polls + 1 } ∨
    (pollAgain s = timeOut { s with polls := s.polls + 1 } ∧
      ∃ lim, s.params.ackPollLimit = some lim ∧ lim.n ≤ s.polls + 1) := by
  unfold pollAgain
  split
  · exact .inl rfl
  · rename_i lim h
    by_cases hl : lim.n ≤ s.polls + 1
    · exact .inr ⟨by simp [hl], lim, h, hl⟩
    · exact .inl (by simp [hl])

/-- The end of a cycle, field by field. -/
theorem finishCycle_eq (c : Cycle) (s : State) :
    finishCycle c s = { s with
      cycle := none
      phase := .idle
      polls := 0
      scan := s.scan.map (Scan.collect c.result)
      trace := s.trace ++ [.evEnd c.cur c.result] } := rfl

@[simp] theorem collect_buf (r : Option Byte) (sc : Scan) : (Scan.collect r sc).buf = sc.buf := by cases r <;> rfl
@[simp] theorem collect_pc (r : Option Byte) (sc : Scan) : (Scan.collect r sc).pc = sc.pc := by cases r <;> rfl

/-! ### What holds of the operations of a cycle -/

/-- REQ is 1 in these phases (rules R17, R80). -/
def reqLevel (p : Phase) : Level := p == .requestAsserted || p == .peerAcknowledged

/-- The phase stays or is the next one (rule R80). -/
def phaseLink : Phase → Phase → Bool
  | .idle, .idle => true
  | .idle, .addressAndDataAsserted => true
  | .addressAndDataAsserted, .requestAsserted => true
  | .requestAsserted, .peerAcknowledged => true
  | .peerAcknowledged, .peerAcknowledged => true
  | .peerAcknowledged, .requestDeasserted => true
  | _, _ => false

/-- An operation agrees with its phase: directions and the address and data lines change only in Idle, data lines are
sampled only in PeerAcknowledged, and nothing but REQ is driven outside Idle (rules R80, R85, R86). -/
def opInPhase (o : CycleOp) : Bool :=
  match o.op with
  | .setDir (.data _) _ => o.phase == .idle
  | .setDir _ _ => false
  | .setLine .req _ => o.phase == .addressAndDataAsserted || o.phase == .peerAcknowledged
  | .setLine _ _ => o.phase == .idle
  | .getLine _ => o.phase == .peerAcknowledged
  | .waitAck _ => o.phase == .requestAsserted || o.phase == .requestDeasserted

/-- REQ after the operation is what the next phase asks for. -/
def reqLink (o : CycleOp) (p : Phase) : Bool :=
  match o.op with
  | .setLine .req b => b == reqLevel p
  | .setLine _ _ => reqLevel o.phase == reqLevel p
  | .setDir _ _ => reqLevel o.phase == reqLevel p
  | .getLine _ => reqLevel o.phase == reqLevel p
  | .waitAck _ => reqLevel o.phase == reqLevel p

/-- Every data line that turns Out is driven later on (rule R81 step 3). -/
def drivenLater (o : CycleOp) (os : List CycleOp) : Bool :=
  match o.op with
  | .setDir l .output => os.any fun o' => match o'.op with
    | .setLine l' _ => l' == l
    | .setDir _ _ => false
    | .getLine _ => false
    | .waitAck _ => false
  | .setDir _ .input => true
  | .setLine _ _ => true
  | .getLine _ => true
  | .waitAck _ => true

/-- The four properties along a list of operations; after the last one comes Idle. -/
def wellLinked : List CycleOp → Bool
  | [] => true
  | [o] => opInPhase o && reqLink o .idle && drivenLater o [] && o.phase == .requestDeasserted
  | o :: o' :: os =>
    opInPhase o && reqLink o o'.phase && phaseLink o.phase o'.phase && drivenLater o (o' :: os)
      && wellLinked (o' :: os)

/-- Both cycles have them. -/
theorem wellLinked_cycleOps (tx : BusTransaction) : wellLinked (cycleOps tx) = true := by
  cases tx <;> rfl

theorem wellLinked_tail {o : CycleOp} {os : List CycleOp} (h : wellLinked (o :: os) = true) :
    wellLinked os = true := by
  cases os with
  | nil => rfl
  | cons o' os => simp only [wellLinked, Bool.and_eq_true] at h; exact h.2

/-- They hold of every end of a list. -/
theorem wellLinked_suffix {l l' : List CycleOp} (h : wellLinked l = true) (hs : l' <:+ l) : wellLinked l' = true := by
  induction l with
  | nil => simp_all
  | cons o os ih =>
    rcases List.suffix_cons_iff.1 hs with rfl | hs
    · exact h
    · exact ih (wellLinked_tail h) hs

theorem wellLinked_head {o : CycleOp} {os : List CycleOp} (h : wellLinked (o :: os) = true) :
    opInPhase o = true ∧ drivenLater o os = true := by
  cases os with
  | nil => simp only [wellLinked, Bool.and_eq_true] at h; exact ⟨h.1.1.1, h.1.2⟩
  | cons o' os => simp only [wellLinked, Bool.and_eq_true] at h; exact ⟨h.1.1.1.1, h.1.2⟩

/-- Only a `SetDir` can be redundant, and it is an operation of Idle. -/
theorem redundant_idle {ls : Lines} {o : CycleOp} (hr : redundant ls o.op = true) (h : opInPhase o = true) :
    o.phase = .idle := by
  unfold opInPhase at h
  cases ho : o.op with
  | setDir l d => rw [ho] at h; cases l <;> simp_all
  | setLine l b => simp [ho, redundant] at hr
  | getLine l => simp [ho, redundant] at hr
  | waitAck b => simp [ho, redundant] at hr

/-- From one operation to the next effective one: the phase is linked, and REQ fits. -/
theorem link_dropWhile {ls : Lines} {x o : CycleOp} {later os : List CycleOp} (h : wellLinked (x :: later) = true)
    (hd : (later.dropWhile fun o => redundant ls o.op) = o :: os) :
    phaseLink x.phase o.phase = true ∧ reqLink x o.phase = true := by
  induction later generalizing x with
  | nil => simp at hd
  | cons y ys ih =>
    simp only [wellLinked, Bool.and_eq_true] at h
    obtain ⟨⟨⟨⟨hx, hq⟩, hp⟩, _⟩, ht⟩ := h
    by_cases hr : redundant ls y.op
    · rw [List.dropWhile_cons_of_pos (by simpa using hr)] at hd
      have hy : y.phase = .idle := redundant_idle hr (wellLinked_head ht).1
      obtain ⟨h1, h2⟩ := ih ht hd
      have hxi : x.phase = .idle := by
        rw [hy] at hp; revert hp; cases x.phase <;> simp [phaseLink]
      have h3 : reqLevel y.phase = reqLevel o.phase := by
        rw [hy] at h1 ⊢; revert h1; cases o.phase <;> simp [phaseLink] <;> rfl
      refine ⟨by rw [hxi, ← hy]; exact h1, ?_⟩
      unfold reqLink at hq ⊢
      rw [← h3]; exact hq
    · rw [List.dropWhile_cons_of_neg (by simpa using hr)] at hd
      obtain ⟨rfl, rfl⟩ := List.cons.inj hd
      exact ⟨hp, hq⟩

/-- When no effective operation is left, the one just done was the last of the list: the wait for ACK = 0. -/
theorem last_dropWhile {ls : Lines} {x : CycleOp} {later : List CycleOp} (h : wellLinked (x :: later) = true)
    (hd : (later.dropWhile fun o => redundant ls o.op) = []) :
    later = [] := by
  induction later generalizing x with
  | nil => rfl
  | cons y ys ih =>
    by_cases hr : redundant ls y.op
    · rw [List.dropWhile_cons_of_pos (by simpa using hr)] at hd
      have ht := wellLinked_tail h
      have hys := ih ht hd
      subst hys
      have hy : y.phase = .idle := redundant_idle hr (wellLinked_head ht).1
      simp [wellLinked, hy] at ht
    · rw [List.dropWhile_cons_of_neg (by simpa using hr)] at hd
      simp at hd

/-- Operations whose lists drive a line later do not see what its latch was before. -/
theorem replay_latch {ls : Lines} {l : Line} {x x' : LineState} (hx : x.dir = x'.dir) {ops : List CycleOp}
    (h : (ops.any fun o' => match o'.op with
      | .setLine l' _ => l' == l
      | .setDir _ _ => false
      | .getLine _ => false
      | .waitAck _ => false) = true) :
    (ls.set l x).replay ops = (ls.set l x').replay ops := by
  induction ops generalizing ls x x' with
  | nil => simp at h
  | cons o os ih =>
    have set_comm : ∀ (l' : Line) (y z : LineState), l' ≠ l → (ls.set l y).set l' z = (ls.set l' z).set l y := by
      intro l' y z hne
      apply Lines.ext_get
      intro m
      by_cases h1 : m = l <;> by_cases h2 : m = l'
      · exact absurd (h2.symm.trans h1) hne
      · subst h1; rw [Lines.get_set_ne _ _ h2]; simp
      · subst h2; rw [Lines.get_set_self, Lines.get_set_ne _ _ h1]; simp
      · rw [Lines.get_set_ne _ _ h2, Lines.get_set_ne _ _ h1, Lines.get_set_ne _ _ h1, Lines.get_set_ne _ _ h2]
    have set_set : ∀ y z : LineState, (ls.set l y).set l z = ls.set l z := by
      intro y z
      apply Lines.ext_get
      intro m
      by_cases h1 : m = l
      · subst h1; simp
      · simp [Lines.get_set_ne _ _ h1]
    simp only [Lines.replay, List.foldl_cons]
    cases ho : o.op with
    | setDir l' d =>
      rw [List.any_cons, ho] at h
      by_cases e : l' = l
      · subst e
        simp only [Lines.apply, Lines.get_set_self, set_set]
        exact ih rfl (by simpa using h)
      · simp only [Lines.apply, Lines.get_set_ne _ _ e]
        rw [set_comm l' x _ e, set_comm l' x' _ e]
        exact ih hx (by simpa using h)
    | setLine l' b =>
      by_cases e : l' = l
      · subst e
        simp only [Lines.apply, Lines.get_set_self, set_set, hx]
      · rw [List.any_cons, ho] at h
        simp only [Lines.apply, Lines.get_set_ne _ _ e]
        rw [set_comm l' x _ e, set_comm l' x' _ e]
        exact ih hx (by simpa [e] using h)
    | getLine l' =>
      rw [List.any_cons, ho] at h
      exact ih hx (by simpa using h)
    | waitAck b =>
      rw [List.any_cons, ho] at h
      exact ih hx (by simpa using h)

end Sys2Proof.Machine
end

