-- ==== Sys2Proof/Laws/Step.lean ====
section
/-! SUPPORT. What a meaning, a step of the core and a step of the machine can do: one inversion lemma each. -/
namespace Sys2Proof.Machine

/-- The four meanings unfolded to the two operations they share. -/
theorem exec_read (x : BitVec 7) (a : Byte) (s : State) : exec (.read x a) s = transfer 2 (.read a) s := rfl
theorem exec_write (x : BitVec 7) (a d : Byte) (s : State) : exec (.write x a d) s = transfer 3 (.write a d) s := rfl
theorem exec_trailT1 (b : Byte) (s : State) : exec (.trailT1 b) s = skipTo (fun sc => sc.buf.length) s := rfl
theorem exec_trailT2 (x : BitVec 7) (a : Byte) (s : State) : exec (.trailT2 x a) s = skipTo (fun sc => sc.pc + 2) s := rfl

/-- When READ or WRITE answers a next state, it raised ResourceExhausted or began its cycle. -/
theorem transfer_next {len : Nat} {tx : BusTransaction} {s t : State} (h : transfer len tx s = .next t) :
    ∃ sc, s.scan = some sc ∧ s.fault = none ∧ s.wedged = false ∧ s.phase = .idle ∧ s.cycle = none ∧
      (((drawResource s).1 = .resourceExhausted ∧ t = raise .resourceExhausted (drawResource s).2) ∨
       ((drawResource s).1 = .ok ∧
        t = beginCycle tx { (drawResource s).2 with scan := some { sc with pc := sc.pc + len } })) := by
  unfold transfer at h
  split at h
  · cases h
  · rename_i sc hsc
    split at h
    · cases h
    · rename_i hf
      split at h
      · cases h
      · rename_i hr
        simp only [Bool.or_eq_true, not_or, bne_iff_ne, ne_eq, Decidable.not_not, Bool.not_eq_true,
          Option.isSome_eq_false_iff, Option.isNone_iff_eq_none] at hr hf
        refine ⟨sc, hsc, hf, hr.1.1, hr.1.2, hr.2, ?_⟩
        split at h
        · rename_i s₀ hd
          left; cases h; exact ⟨by rw [hd], by rw [hd]⟩
        · rename_i s₀ hd
          right; cases h; exact ⟨by rw [hd], by rw [hd]⟩

/-- READ and WRITE on a ready core, with an ok draw: the cycle begins. -/
theorem transfer_ok {len : Nat} {tx : BusTransaction} {s s₀ : State} {sc : Scan} (hr : s.Ready)
    (hs : s.scan = some sc) (hd : drawResource s = (.ok, s₀)) :
    transfer len tx s = .next (beginCycle tx { s₀ with scan := some { sc with pc := sc.pc + len } }) := by
  have hp := hr.phase
  simp [transfer, hs, hr.fault, hr.wedged, hr.cycle, hp, hd]

/-- READ and WRITE on a ready core, with an exhausted draw: the `submit` ends. -/
theorem transfer_exhausted {len : Nat} {tx : BusTransaction} {s s₀ : State} {sc : Scan} (hr : s.Ready)
    (hs : s.scan = some sc) (hd : drawResource s = (.resourceExhausted, s₀)) :
    transfer len tx s = .next (raise .resourceExhausted s₀) := by
  have hp := hr.phase
  simp [transfer, hs, hr.fault, hr.wedged, hr.cycle, hp, hd]

/-- A trailing form that answers a next state moved the cursor and did nothing else. -/
theorem skipTo_next {f : Scan → Nat} {s t : State} (h : skipTo f s = .next t) :
    ∃ sc, s.scan = some sc ∧ t = { s with scan := some { sc with pc := f sc } } := by
  unfold skipTo at h
  split at h
  · cases h
  · rename_i sc hsc; cases h; exact ⟨sc, hsc, rfl⟩

/-- A cycle's first step when DIR is Out: the record, one event, DIR driven, the address's bit 7 next. -/
theorem beginCycle_eq (tx : BusTransaction) {s : State} (hu : s.up = true) (hf : s.fault = none) (hd : s.lines.dir.dir = .output) :
    beginCycle tx s = { s with
      lines := { s.lines with dir := ⟨.output, tx.isWrite⟩ }
      trace := s.trace ++ [.evBegin tx, .evSet .dir tx.isWrite]
      phase := .idle
      cycle := some { cur := tx, now := ⟨2, .idle, .setLine (.addr 7) (tx.address.getLsbD 7)⟩,
                      later := (laterOps tx).tail, byte := 0 } } := by
  have hset : ∀ b : Level, setLine .dir b (State.emit (.evBegin tx) { s with cycle := some (Cycle.start tx) }) =
      { s with
        cycle := some (Cycle.start tx)
        lines := { s.lines with dir := ⟨.output, b⟩ }
        trace := s.trace ++ [.evBegin tx, .evSet .dir b] } := by
    intro b
    rw [setLine_out (operating_of (by exact hu) (by exact hf)) (by exact hd)]
    simp [Lines.get, Lines.set, hd]
  cases tx with
  | read a =>
    simp only [beginCycle, engineStep, Cycle.start, firstOp] at hset ⊢
    rw [hset]
    simp [advance, hf, laterOps, readOps, cycleStep, setBusOps, addrBus, bitsMsbFirst, redundant, pollsEntering,
      BusTransaction.address, BusTransaction.isWrite]
  | write a d =>
    simp only [beginCycle, engineStep, Cycle.start, firstOp] at hset ⊢
    rw [hset]
    simp [advance, hf, laterOps, writeOps, cycleStep, setBusOps, addrBus, bitsMsbFirst, redundant, pollsEntering,
      BusTransaction.address, BusTransaction.isWrite]

/-- A cycle's first step whatever the direction of DIR: of the lines only DIR's latch may change. -/
theorem beginCycle_frame (tx : BusTransaction) (s : State) :
    ∃ b f p c tr, beginCycle tx s = { s with
      lines := { s.lines with dir := ⟨s.lines.dir.dir, b⟩ }, fault := f, phase := p, cycle := c, trace := tr } := by
  by_cases ho : s.operating = true
  · obtain ⟨hu, hf⟩ := (operating_iff s).1 ho
    by_cases hd : s.lines.dir.dir = .output
    · rw [beginCycle_eq tx hu hf hd]
      exact ⟨tx.isWrite, _, _, _, _, by rw [hd]⟩
    · refine ⟨s.lines.dir.out, some .lineMisuse, s.phase, some (Cycle.start tx), s.trace ++ [.evBegin tx], ?_⟩
      simp only [beginCycle, engineStep, Cycle.start, firstOp]
      rw [setLine_in (by exact hu) (by exact hd)]
      simp only [advance, misuse_fault, Option.isSome_some, if_true]
      rfl
  · simp only [Bool.not_eq_true] at ho
    simp only [beginCycle, engineStep, Cycle.start, firstOp]
    rw [setLine_idle (by exact ho)]
    cases tx <;>
    · unfold advance
      split
      · exact ⟨s.lines.dir.out, s.fault, s.phase, _, _, rfl⟩
      · exact ⟨s.lines.dir.out, s.fault, _, _, _, rfl⟩

/-- A step of the core that answers a next state: idle, one line operation of the cycle, one row, or the end of the scan. -/
theorem coreStep_next {s t : State} (h : coreStep s = .next t) :
    (t = s ∧ (s.up = false ∨ s.scan = none)) ∨
    ∃ sc, s.up = true ∧ s.scan = some sc ∧ s.fault = none ∧
      ((∃ c, s.cycle = some c ∧ t = engineStep c s) ∨
       (s.cycle = none ∧ ∃ i rest, decodeNext (sc.buf.drop sc.pc) = .ok (i, rest) ∧ exec i s = .next t) ∨
       (s.cycle = none ∧ decodeNext (sc.buf.drop sc.pc) = .error .endOfStream ∧ t = finishSubmit sc s)) := by
  unfold coreStep at h
  split at h
  · rename_i hu
    split at h
    · rename_i hs; cases h; exact .inl ⟨rfl, .inr hs⟩
    · rename_i sc hs
      split at h
      · cases h
      · rename_i hf
        have hf : s.fault = none := by simpa using hf
        refine .inr ⟨sc, hu, hs, hf, ?_⟩
        split at h
        · rename_i c hc; cases h; exact .inl ⟨c, hc, rfl⟩
        · rename_i hc
          split at h
          · rename_i i rest hd; exact .inr (.inl ⟨hc, i, rest, hd, h⟩)
          · rename_i hd; cases h; exact .inr (.inr ⟨hc, hd, rfl⟩)
  · rename_i hu; cases h; exact .inl ⟨rfl, .inl (by simpa using hu)⟩

/-- The listed turns left, after a step of some other agent or of the core with its turn listed. -/
theorem popTurn_frame (s : State) : s.popTurn = { s with env := { s.env with turns := s.env.turns.tail } } := rfl

/-- A step of the machine is a step of the core, on the state or on the state with its turn taken off, or a move of another
agent on the latter; a caller's move comes only while that caller is in no `submit` of its own. -/
theorem step_next {s t : State} (h : step s = .next t) :
    (s.mover = .core ∧ coreStep s = .next t) ∨
    (s.mover = .core ∧ coreStep s.popTurn = .next t) ∨
    (∃ d, s.mover = .peer ∧ t = peerMove d s.popTurn) ∨
    (∃ c op, s.mover = .caller c ∧ callWaits c s = false ∧ t = hostCall c op s.popTurn) ∨
    (∃ p, s.mover = .platform ∧ t = startUp p s.popTurn) ∨
    (s.mover = .platform ∧ t = shutDown s.popTurn) := by
  unfold step machineStep at h
  have hw : ∀ c op, nextTurn s = some (.call c op) → callWaits c s = false := by
    intro c op hn
    unfold nextTurn at hn
    split at hn <;> try cases hn
    split at hn
    · cases hn
    · rename_i hcw; cases hn; simpa using hcw
  split at h <;> rename_i hn
  · exact .inl ⟨by simp [State.mover, hn], h⟩
  · exact .inr (.inl ⟨by simp [State.mover, hn, Turn.agent], h⟩)
  · rename_i d; cases h; exact .inr (.inr (.inl ⟨d, by simp [State.mover, hn, Turn.agent], rfl⟩))
  · rename_i c op; cases h
    exact .inr (.inr (.inr (.inl ⟨c, op, by simp [State.mover, hn, Turn.agent], hw c op hn, rfl⟩)))
  · rename_i p; cases h
    exact .inr (.inr (.inr (.inr (.inl ⟨p, by simp [State.mover, hn, Turn.agent], rfl⟩))))
  · cases h
    exact .inr (.inr (.inr (.inr (.inr ⟨by simp [State.mover, hn, Turn.agent], rfl⟩))))

/-- With no turn listed the core moves (log 2). -/
theorem step_idleTurns {s : State} (h : s.env.turns = []) : step s = coreStep s := by
  simp [step, machineStep, nextTurn, h]

/-- The core's listed turn. -/
theorem step_coreTurn {s : State} {ts : List Turn} (h : s.env.turns = .core :: ts) : step s = coreStep s.popTurn := by
  simp [step, machineStep, nextTurn, h]

/-- The peer's listed turn. -/
theorem step_peerTurn {s : State} {d : PeerDrive} {ts : List Turn} (h : s.env.turns = .peer d :: ts) :
    step s = .next { s with env := { s.env with turns := ts, peer := d } } := by
  simp [step, machineStep, nextTurn, h, peerMove, State.popTurn]

/-- A step of the core inside a cycle. -/
theorem coreStep_cycle {s : State} {sc : Scan} {c : Cycle} (hu : s.up = true) (hs : s.scan = some sc)
    (hf : s.fault = none) (hc : s.cycle = some c) : coreStep s = .next (engineStep c s) := by
  simp [coreStep, hu, hs, hf, hc]

end Sys2Proof.Machine
end

