-- ==== Sys2Proof/Laws/Run.lean ====
section
/-! SUPPORT. Several steps: composition, and runs of one core turn each. -/
namespace Sys2Proof.Machine

@[simp] theorem runSteps_zero (s : State) : runSteps 0 s = .next s := rfl

/-- One step, then the rest. -/
theorem runSteps_succ {s t : State} (h : step s = .next t) (n : Nat) : runSteps (n + 1) s = runSteps n t := by
  rw [runSteps, h]

/-- Some steps, then the rest. -/
theorem runSteps_add {m : Nat} {s t : State} (h : runSteps m s = .next t) (n : Nat) :
    runSteps (m + n) s = runSteps n t := by
  induction m generalizing s with
  | zero => rw [runSteps_zero] at h; cases h; rw [Nat.zero_add]
  | succ m ih =>
    rw [runSteps] at h
    cases hs : step s with
    | next u => rw [hs] at h; rw [Nat.succ_add, runSteps_succ hs]; exact ih h
    | fault r => rw [hs] at h; cases h
    | refused r => rw [hs] at h; cases h

end Sys2Proof.Machine
end

