-- ==== Sys2Proof/Laws/Cycle.lean ====
section
/-! SUPPORT. A cycle run step by step: one lemma per kind of line operation, from one `advance` to the next. -/
namespace Sys2Proof.Machine

/-- `advance` looks at the record, the byte and the operations left of a cycle, and overwrites cycle and phase. -/
theorem advance_congr {c c' : Cycle} {s : State} (hcur : c.cur = c'.cur) (hl : c.later = c'.later)
    (hb : c.byte = c'.byte) (hf : s.fault = none) (x : Option Cycle) (p : Phase) :
    advance c { s with cycle := x, phase := p } = advance c' s := by
  obtain ⟨cur, now, later, byte⟩ := c
  obtain ⟨cur', now', later', byte'⟩ := c'
  obtain ⟨rfl, rfl, rfl⟩ : cur = cur' ∧ later = later' ∧ byte = byte' := ⟨hcur, hl, hb⟩
  unfold advance
  rw [if_neg (by simp [hf]), if_neg (by simp [hf])]
  show (match later.dropWhile fun o => redundant s.lines o.op with
    | [] => _
    | o :: os => _) = _
  cases later.dropWhile fun o => redundant s.lines o.op with
  | nil => cases cur <;> rfl
  | cons o os => rfl

/-- The core is inside a `submit`, not faulted, and moves next: its turn is listed, or none is. -/
structure CoreNext (s : State) (ts : List Turn) : Prop where
  up : s.up = true
  scan : s.scan ≠ none
  fault : s.fault = none
  turns : s.env.turns = .core :: ts ∨ s.env.turns = [] ∧ ts = []

/-- A redundant `SetDir` is skipped without a step (rule R75). -/
theorem advance_redundant {c : Cycle} {s : State} {o : CycleOp} {tail : List CycleOp}
    (hr : redundant s.lines o.op = true) :
    advance { c with later := o :: tail } s = advance { c with later := tail } s := by
  unfold advance
  simp only [List.dropWhile_cons_of_pos (p := fun o : CycleOp => redundant s.lines o.op) (by simpa using hr)]
  rfl

/-- The next step performs the first effective operation that is left. -/
theorem step_advance {c : Cycle} {s : State} {o : CycleOp} {tail : List CycleOp} {ts : List Turn}
    (h : CoreNext s ts) (hr : redundant s.lines o.op = false) :
    step (advance { c with later := o :: tail } s) = .next (engineStep { c with now := o, later := tail }
      { s with
        cycle := some { c with now := o, later := tail }
        phase := o.phase
        polls := pollsEntering o.op s.polls
        env := { s.env with turns := ts } }) := by
  obtain ⟨sc, hs⟩ := Option.ne_none_iff_exists'.1 h.scan
  have ha : advance { c with later := o :: tail } s = { s with
      cycle := some { c with now := o, later := tail }
      phase := o.phase
      polls := pollsEntering o.op s.polls } := by
    unfold advance
    simp [h.fault, hr]
  rw [ha]
  rcases h.turns with ht | ⟨ht, rfl⟩
  · refine (step_coreTurn (ts := ts) (by exact ht)).trans ?_
    refine (coreStep_cycle (sc := sc) (c := { c with now := o, later := tail }) (by exact h.up) (by exact hs)
      (by exact h.fault) (by rfl)).trans ?_
    simp [State.popTurn, ht]
  · refine (step_idleTurns (by exact ht)).trans ?_
    refine (coreStep_cycle (sc := sc) (c := { c with now := o, later := tail }) (by exact h.up) (by exact hs)
      (by exact h.fault) (by rfl)).trans ?_
    rw [← ht]

/-- A `SetLine` of an Out line, as one step. -/
theorem step_setLine {c : Cycle} {s : State} {k : Nat} {p : Phase} {l : Line} {b : Level} {tail : List CycleOp}
    {ts : List Turn} (h : CoreNext s ts) (hd : (s.lines.get l).dir = .output) :
    step (advance { c with later := ⟨k, p, .setLine l b⟩ :: tail } s) = .next (advance { c with later := tail } { s with
      lines := s.lines.set l ⟨.output, b⟩
      trace := s.trace ++ [.evSet l b]
      env := { s.env with turns := ts } }) := by
  rw [step_advance h rfl]
  simp only [engineStep, pollsEntering]
  rw [setLine_out (operating_of (by exact h.up) (by exact h.fault)) (by exact hd)]
  simp only [hd]
  congr 1
  exact advance_congr (s := { s with
      lines := s.lines.set l ⟨.output, b⟩, trace := s.trace ++ [.evSet l b], env := { s.env with turns := ts } })
    rfl rfl rfl h.fault _ p

/-- An effective `SetDir` of a data line, as one step. -/
theorem step_setDir {c : Cycle} {s : State} {k : Nat} {p : Phase} {n : Fin 8} {d : Direction} {tail : List CycleOp}
    {ts : List Turn} (h : CoreNext s ts) (hd : s.lines.data[n].dir ≠ d) :
    ∃ b m, step (advance { c with later := ⟨k, p, .setDir (.data n) d⟩ :: tail } s) =
        .next (advance { c with later := tail } { s with
          lines := s.lines.set (.data n) ⟨d, b⟩
          trace := s.trace ++ [.evDir (.data n) d]
          env := { s.env with turns := ts, drawn := m } }) ∧
      (d = .input → b = s.lines.data[n].out ∧ m = s.env.drawn) ∧ (d = .output → m = s.env.drawn + 1) := by
  have hr : redundant s.lines (.setDir (.data n) d) = false := by simpa [redundant] using hd
  obtain ⟨b, m, he, hi, ho⟩ := setDir_data (s := { s with
        cycle := some { c with now := ⟨k, p, .setDir (.data n) d⟩, later := tail }
        phase := p
        env := { s.env with turns := ts } }) (operating_of h.up h.fault) hd
  refine ⟨b, m, ?_, hi, fun h => (ho h).2⟩
  rw [step_advance h hr]
  simp only [engineStep, pollsEntering]
  rw [he]
  congr 1
  exact advance_congr (s := { s with
      lines := s.lines.set (.data n) ⟨d, b⟩, trace := s.trace ++ [.evDir (.data n) d],
      env := { s.env with turns := ts, drawn := m } }) rfl rfl rfl h.fault _ p

/-- A sample of an In data line whose level the peer drives, as one step. -/
theorem step_getLine {c : Cycle} {s : State} {k : Nat} {p : Phase} {n : Fin 8} {b : Level} {tail : List CycleOp}
    {ts : List Turn} (h : CoreNext s ts) (hd : s.lines.data[n].dir = .input) (hp : s.env.peer.data[n] = some b) :
    step (advance { c with later := ⟨k, p, .getLine (.data n)⟩ :: tail } s) =
      .next (advance { c with later := tail, byte := setBit c.byte n b } { s with
        trace := s.trace ++ [.evGet (.data n) b]
        env := { s.env with turns := ts } }) := by
  rw [step_advance h rfl]
  simp only [engineStep, pollsEntering]
  rw [getLine_driven (l := .data n) (b := b) (operating_of (by exact h.up) (by exact h.fault)) (by simpa [sampleable] using hd) (by exact hp)]
  simp only [recordSample]
  congr 1
  exact advance_congr (s := { s with
      trace := s.trace ++ [.evGet (.data n) b], env := { s.env with turns := ts } }) rfl rfl rfl h.fault _ p

/-- One step of a wait that sees the awaited level. -/
theorem coreStep_wait_ok {s : State} {sc : Scan} {c : Cycle} {b : Level} (hu : s.up = true) (hs : s.scan = some sc)
    (hf : s.fault = none) (hc : s.cycle = some c) (ho : c.now.op = .waitAck b) (hp : s.env.peer.ack = some b) :
    coreStep s = .next (advance c { s with trace := s.trace ++ [.evGet .ack b] }) := by
  rw [coreStep_cycle hu hs hf hc]
  simp only [engineStep, ho]
  rw [getLine_driven (l := .ack) (b := b) (operating_of hu hf) rfl hp]
  simp

/-- One step of a wait that sees the other level, inside the bound. -/
theorem coreStep_wait_again {s : State} {sc : Scan} {c : Cycle} {b : Level} (hu : s.up = true)
    (hs : s.scan = some sc) (hf : s.fault = none) (hc : s.cycle = some c) (ho : c.now.op = .waitAck b)
    (hp : s.env.peer.ack = some (!b)) (hw : waitsWithin s.params (s.polls + 1)) :
    coreStep s = .next { s with polls := s.polls + 1, trace := s.trace ++ [.evGet .ack (!b)] } := by
  rw [coreStep_cycle hu hs hf hc]
  simp only [engineStep, ho]
  rw [getLine_driven (l := .ack) (b := !b) (operating_of hu hf) rfl hp]
  have hb : ((!b) = b) = False := by simp
  simp only [hb, if_false, pollAgain]
  split
  · rfl
  · rename_i lim hl
    have := hw lim hl
    exact congrArg _ (if_neg (by show ¬ lim.n ≤ s.polls + 1; omega))

/-- One step of a wait that sees the other level at the bound. -/
theorem coreStep_wait_timeOut {s : State} {sc : Scan} {c : Cycle} {b : Level} {lim : PollLimit} (hu : s.up = true)
    (hs : s.scan = some sc) (hf : s.fault = none) (hc : s.cycle = some c) (ho : c.now.op = .waitAck b)
    (hp : s.env.peer.ack = some (!b)) (hl : s.params.ackPollLimit = some lim) (hn : lim.n ≤ s.polls + 1) :
    coreStep s = .next (timeOut { s with polls := s.polls + 1, trace := s.trace ++ [.evGet .ack (!b)] }) := by
  rw [coreStep_cycle hu hs hf hc]
  simp only [engineStep, ho]
  rw [getLine_driven (l := .ack) (b := !b) (operating_of hu hf) rfl hp]
  have hb : ((!b) = b) = False := by simp
  simp only [hb, if_false, pollAgain, hl]
  rw [if_pos (by exact hn)]

end Sys2Proof.Machine
end

