-- ==== Sys2Proof/Laws/EchoPeer.lean ====
section
/-! SUPPORT. The memory of the echo peer: a write keeps the canonical form, a read after a write to the same location gives
the value written, and a write leaves every other location alone. -/
namespace Sys2Proof.Machine

theorem memoryWfFrom_mono {lo lo' : Nat} {m : Memory} (h : memoryWfFrom lo m = true) (hl : lo' ≤ lo) :
    memoryWfFrom lo' m = true := by
  cases m with
  | nil => rfl
  | cons x m =>
    obtain ⟨b, w⟩ := x
    simp only [memoryWfFrom, Bool.and_eq_true, decide_eq_true_eq] at h ⊢
    exact ⟨⟨by omega, h.1.2⟩, h.2⟩

theorem consCell_wf {lo a : Nat} {v : Byte} {m : Memory} (h : memoryWfFrom (a + 1) m = true) (hl : lo ≤ a) :
    memoryWfFrom lo (consCell a v m) = true := by
  unfold consCell
  split
  · exact memoryWfFrom_mono h (by omega)
  · rename_i hv; simp [memoryWfFrom, h, hl]; exact hv

theorem write_wfFrom (a : Nat) (v : Byte) {lo : Nat} {m : Memory} (h : memoryWfFrom lo m = true) (hl : lo ≤ a) :
    memoryWfFrom lo (Memory.write a v m) = true := by
  induction m generalizing lo with
  | nil => exact consCell_wf rfl hl
  | cons x m ih =>
    obtain ⟨b, w⟩ := x
    have h' := h
    simp only [memoryWfFrom, Bool.and_eq_true, decide_eq_true_eq] at h'
    simp only [Memory.write]
    split
    · rename_i e; subst e; exact consCell_wf h'.2 hl
    · split
      · rename_i hlt
        refine consCell_wf ?_ hl
        simp only [memoryWfFrom, Bool.and_eq_true, decide_eq_true_eq]
        exact ⟨⟨by omega, h'.1.2⟩, h'.2⟩
      · rename_i hne hge
        simp only [memoryWfFrom, Bool.and_eq_true, decide_eq_true_eq]
        exact ⟨h'.1, ih h'.2 (by omega)⟩

/-- A write keeps the canonical form. -/
theorem Memory_write_wf (a : Nat) (v : Byte) {m : Memory} (h : Memory.wf m = true) :
    Memory.wf (Memory.write a v m) = true := write_wfFrom a v h (Nat.zero_le a)

/-- The memory of F-ECHO at its start-up is in canonical form. -/
theorem Memory_empty_wf : Memory.wf [] = true := rfl

theorem read_below {lo a : Nat} {m : Memory} (h : memoryWfFrom lo m = true) (hl : a < lo) : Memory.read m a = 0 := by
  cases m with
  | nil => rfl
  | cons x m =>
    obtain ⟨b, w⟩ := x
    simp only [memoryWfFrom, Bool.and_eq_true, decide_eq_true_eq] at h
    have hne : a ≠ b := by omega
    have hlt : a < b := by omega
    simp [Memory.read, hne, hlt]

theorem read_consCell (a : Nat) (v : Byte) {m : Memory} (h : memoryWfFrom (a + 1) m = true) :
    Memory.read (consCell a v m) a = v := by
  unfold consCell
  split
  · rename_i hv; subst hv; exact read_below h (by omega)
  · simp [Memory.read]

theorem read_consCell_ne {a b : Nat} (v : Byte) {m : Memory} (h : memoryWfFrom (a + 1) m = true) (hne : b ≠ a) :
    Memory.read (consCell a v m) b = Memory.read m b := by
  unfold consCell
  split
  · rfl
  · simp only [Memory.read, if_neg hne]
    split
    · rename_i hlt; exact (read_below h (by omega)).symm
    · rfl

theorem read_write_from (a : Nat) (v : Byte) {lo : Nat} {m : Memory} (h : memoryWfFrom lo m = true) :
    Memory.read (Memory.write a v m) a = v ∧
      ∀ b, b ≠ a → Memory.read (Memory.write a v m) b = Memory.read m b := by
  induction m generalizing lo with
  | nil => exact ⟨read_consCell a v rfl, fun b hb => read_consCell_ne v rfl hb⟩
  | cons x m ih =>
    obtain ⟨b, w⟩ := x
    simp only [memoryWfFrom, Bool.and_eq_true, decide_eq_true_eq] at h
    simp only [Memory.write]
    split
    · rename_i e; subst e
      refine ⟨read_consCell a v h.2, fun c hc => ?_⟩
      rw [read_consCell_ne v h.2 hc]
      simp only [Memory.read, if_neg hc]
      split
      · rename_i hlt; exact read_below h.2 (by omega)
      · rfl
    · rename_i hne
      split
      · rename_i hlt
        have hw : memoryWfFrom (a + 1) ((b, w) :: m) = true := by
          simp only [memoryWfFrom, Bool.and_eq_true, decide_eq_true_eq]
          exact ⟨⟨by omega, h.1.2⟩, h.2⟩
        exact ⟨read_consCell a v hw, fun c hc => read_consCell_ne v hw hc⟩
      · rename_i hge
        obtain ⟨i1, i2⟩ := ih h.2
        refine ⟨by simp [Memory.read, hne, hge, i1], fun c hc => ?_⟩
        simp only [Memory.read, i2 c hc]

/-- A read after a write to the same location gives the value written. -/
theorem Memory_read_write (a : Nat) (v : Byte) {m : Memory} (h : Memory.wf m = true) :
    Memory.read (Memory.write a v m) a = v := (read_write_from a v h).1

/-- A write leaves every other location alone. -/
theorem Memory_read_write_ne {a b : Nat} (v : Byte) {m : Memory} (h : Memory.wf m = true) (hne : b ≠ a) :
    Memory.read (Memory.write a v m) b = Memory.read m b := (read_write_from a v h).2 b hne

/-- Two memories in canonical form that read alike everywhere are the same data. -/
theorem memory_ext_from {lo : Nat} {m m' : Memory} (h : memoryWfFrom lo m = true) (h' : memoryWfFrom lo m' = true)
    (he : ∀ a, Memory.read m a = Memory.read m' a) : m = m' := by
  induction m generalizing lo m' with
  | nil =>
    cases m' with
    | nil => rfl
    | cons y m' =>
      obtain ⟨c, u⟩ := y
      have := he c
      simp_all [memoryWfFrom, Memory.read]
  | cons x m ih =>
    obtain ⟨b, w⟩ := x
    cases m' with
    | nil => have := he b; simp_all [memoryWfFrom, Memory.read]
    | cons y m' =>
      obtain ⟨c, u⟩ := y
      simp only [memoryWfFrom, Bool.and_eq_true, decide_eq_true_eq, bne_iff_ne, ne_eq] at h h'
      have hb := he b
      have hc := he c
      simp only [Memory.read, if_true] at hb hc
      have hbc : b = c := by
        rcases Nat.lt_trichotomy b c with hlt | e | hgt
        · rw [if_neg (by omega), if_pos hlt] at hb; exact absurd hb h.1.2
        · exact e
        · rw [if_neg (by omega), if_pos hgt] at hc; exact absurd hc.symm h'.1.2
      subst hbc
      simp only [if_true] at hb
      subst hb
      refine congrArg _ (ih h.2 h'.2 fun a => ?_)
      have ha := he a
      simp only [Memory.read] at ha
      by_cases e : a = b
      · subst e; rw [read_below h.2 (by omega), read_below h'.2 (by omega)]
      · by_cases hl : a < b
        · rw [read_below h.2 (by omega), read_below h'.2 (by omega)]
        · simpa [e, hl] using ha

theorem Memory_ext {m m' : Memory} (h : Memory.wf m = true) (h' : Memory.wf m' = true)
    (he : ∀ a, Memory.read m a = Memory.read m' a) : m = m' := memory_ext_from h h' he

end Sys2Proof.Machine
end

