-- ==== Sys2Proof/Laws/PeerContract.lean ====
section
/-! SUPPORT. What row P6 of the peer contract gives (rule R41): a `submit` returns. -/
namespace Sys2Proof.Machine

/-- What is left of the `submit` in progress, each line operation of a cycle counted 1 and each byte of the stream more than
a whole cycle. -/
def submitWork (s : State) : Nat :=
  match s.scan with
  | none => 0
  | some sc => 40 * (sc.buf.length - sc.pc) + match s.cycle with
    | none => 1
    | some c => c.later.length + 2

theorem submitWork_scanning {s : State} {sc : Scan} (hs : s.scan = some sc) (hc : s.cycle = none) :
    submitWork s = 40 * (sc.buf.length - sc.pc) + 1 := by
  simp [submitWork, hs, hc]

theorem submitWork_cycling {s : State} {sc : Scan} {c : Cycle} (hs : s.scan = some sc) (hc : s.cycle = some c) :
    submitWork s = 40 * (sc.buf.length - sc.pc) + (c.later.length + 2) := by
  simp [submitWork, hs, hc]

theorem submitWork_ended {s : State} (hs : s.scan = none) : submitWork s = 0 := by
  simp [submitWork, hs]

/-- Going on with a cycle leaves less of the `submit`. -/
theorem advance_work {c : Cycle} {s : State} {sc : Scan} (hs : s.scan = some sc) (hf : s.fault = none) :
    submitWork (advance c s) < 40 * (sc.buf.length - sc.pc) + (c.later.length + 2) := by
  obtain ⟨-, h⟩ | ⟨o, os, hd, h⟩ := advance_cases (c := c) hf
  · rw [h, finishCycle_eq, submitWork_scanning (sc := Scan.collect c.result sc) (by simp [hs]) rfl]
    simp
  · rw [h, submitWork_cycling (sc := sc) (by exact hs) rfl]
    have := (List.dropWhile_suffix (fun o : CycleOp => redundant s.lines o.op) (l := c.later)).length_le
    rw [hd, List.length_cons] at this
    simp only
    omega

/-- A cycle has at most 27 line operations after its second. -/
theorem laterOps_length (tx : BusTransaction) : (laterOps tx).tail.length ≤ 27 := by
  cases tx <;> simp [laterOps, readOps, writeOps, cycleStep, setBusOps, addrBus, dataBus, bitsMsbFirst]

/-- What a step of the core needs inside a `submit`, and what the invariant gives. -/
structure CoreReady (s : State) (sc : Scan) : Prop where
  scan : s.scan = some sc
  up : s.up = true
  fault : s.fault = none
  dir : s.lines.dir.dir = .output
  cycle : ∀ c, s.cycle = some c → legalOp s.lines c.now.op = true ∧ redundant s.lines c.now.op = false

theorem coreReady {s : State} {sc : Scan} (h : s.Inv) (hs : s.scan = some sc) : CoreReady s sc where
  scan := hs
  up := h.alive (by rw [hs]; nofun)
  fault := h.noFault
  dir := h.fixed.dir
  cycle c hc := by
    have := (h.cycle c hc).legal
    simp only [legalOps, Bool.and_eq_true] at this
    exact ⟨this.1, (h.cycle c hc).effective⟩

theorem CoreReady.popTurn {s : State} {sc : Scan} (h : CoreReady s sc) : CoreReady s.popTurn sc :=
  ⟨h.scan, h.up, h.fault, h.dir, h.cycle⟩

/-- One engine step leaves less of the `submit`, unless it is a wrong sample of ACK. -/
theorem engineStep_work {c : Cycle} {s : State} {sc : Scan} (h : CoreReady s sc) (hc : s.cycle = some c) :
    submitWork (engineStep c s) < submitWork s ∨
    (∃ b, c.now.op = .waitAck b ∧ s.env.peer.ack ≠ some b ∧ submitWork (engineStep c s) ≤ submitWork s ∧
      (engineStep c s).env.turns = s.env.turns) := by
  have ho := operating_of h.up h.fault
  obtain ⟨hl, he⟩ := h.cycle c hc
  rw [submitWork_cycling h.scan hc]
  obtain ⟨s₁, ev, hp, ⟨v, e⟩ | ⟨b, hb, e⟩⟩ := engineStep_cases ho hl he
  · rw [e]
    exact .inl (advance_work (c := { c with byte := v }) (by rw [hp.frame]; exact h.scan) (by rw [hp.frame]; exact h.fault))
  · by_cases ha : s.env.peer.ack = some b
    · have hg := getLine_driven (l := .ack) ho rfl ha
      left
      simp only [engineStep, hb, hg, if_true]
      exact advance_work (by exact h.scan) (by exact h.fault)
    · rw [e]
      rcases pollAgain_cases s₁ with h₁ | ⟨h₁, -⟩
      · right
        refine ⟨b, hb, ha, ?_, ?_⟩
        · rw [h₁, submitWork_cycling (sc := sc) (c := c) (by rw [hp.frame]; exact h.scan) (by rw [hp.frame]; exact hc)]
        · rw [h₁, hp.frame]
      · left
        rw [h₁, submitWork_ended rfl]
        omega

/-- A row that answers a next state leaves less of the `submit`. -/
theorem exec_work {i : Instr} {s t : State} {sc : Scan} (h : CoreReady s sc) (hc : s.cycle = none)
    (hpc : sc.pc < sc.buf.length) (he : exec i s = .next t) : submitWork t < submitWork s := by
  rw [submitWork_scanning h.scan hc]
  have transfers : ∀ {len tx}, 0 < len → transfer len tx s = .next t → submitWork t < 40 * (sc.buf.length - sc.pc) + 1 := by
    intro len tx hlen ht
    obtain ⟨sc', hs', -, -, -, -, ⟨-, rfl⟩ | ⟨-, rfl⟩⟩ := transfer_next ht
    · rw [submitWork_ended rfl]; omega
    · rw [h.scan] at hs'
      cases hs'
      obtain ⟨rs, n, hd⟩ := drawResource_frame s
      rw [hd, beginCycle_eq tx (by exact h.up) (by exact h.fault) (by exact h.dir), submitWork_cycling rfl rfl]
      have := laterOps_length tx
      simp only
      omega
  have skips : ∀ {f : Scan → Nat}, sc.pc < f sc → skipTo f s = .next t → submitWork t < 40 * (sc.buf.length - sc.pc) + 1 := by
    intro f hf ht
    obtain ⟨sc', hs', rfl⟩ := skipTo_next ht
    rw [h.scan] at hs'
    cases hs'
    rw [submitWork_scanning rfl (by exact hc)]
    simp only
    omega
  cases i with
  | read x a => exact transfers (by omega) he
  | write x a d => exact transfers (by omega) he
  | trailT1 b => exact skips hpc he
  | trailT2 x a => exact skips (f := fun sc => sc.pc + 2) (by omega) he

/-- The end of the scan ends the `submit`. -/
theorem finishSubmit_scan (sc : Scan) (s : State) : (finishSubmit sc s).scan = none := by
  unfold finishSubmit
  split <;> rfl

/-- A step of the core leaves less of the `submit`, unless it is a wrong sample of ACK. -/
theorem coreStep_work {s t : State} {sc : Scan} (h : CoreReady s sc) (ht : coreStep s = .next t) :
    submitWork t < submitWork s ∨
    (∃ c b, s.cycle = some c ∧ c.now.op = .waitAck b ∧ s.env.peer.ack ≠ some b ∧ submitWork t ≤ submitWork s ∧
      t.env.turns = s.env.turns) := by
  obtain ⟨-, hu | hs⟩ | ⟨sc', -, hs, -, ⟨c, hc, rfl⟩ | ⟨hc, i, rest, hd, he⟩ | ⟨hc, -, rfl⟩⟩ := coreStep_next ht
  · rw [h.up] at hu; cases hu
  · rw [h.scan] at hs; cases hs
  · obtain hw | ⟨b, hw⟩ := engineStep_work h hc
    · exact .inl hw
    · exact .inr ⟨c, b, hc, hw⟩
  · refine .inl (exec_work h hc ?_ he)
    rw [h.scan] at hs
    cases hs
    by_contra hle
    rw [List.drop_eq_nil_of_le (by omega)] at hd
    cases hd
  · exact .inl (by rw [submitWork_ended (finishSubmit_scan _ _), submitWork_scanning h.scan hc]; omega)

/-- Another caller's call during a `submit` gives an answer and nothing else (rules R108, R111, R116). -/
theorem hostCall_waiting {s : State} {c : CallerId} {op : HostOp} (hu : s.up = true) (hh : s.holder ≠ none)
    (hc : s.holder ≠ some c) : ∃ r, hostCall c op s = s.answer r := by
  obtain ⟨o, ho⟩ := Option.ne_none_iff_exists'.1 hh
  have hw : ∀ h, holdsWith c h s = false := by
    intro h
    simp [holdsWith, hc]
  cases op with
  | acquire => exact ⟨.busy c, by simp [hostCall, hu, acquire, State.held, ho]⟩
  | release h => exact ⟨_, by simp [hostCall, hu, release, hw, refuseCall]; rfl⟩
  | submit h stream => exact ⟨_, by simp [hostCall, hu, submit, hw, refuseCall]; rfl⟩

/-- Under P6 a step inside a `submit` leaves less of it, or as much of it and fewer turns. -/
theorem step_work {s t : State} (h : s.Inv) (hs : s.scan ≠ none) (hp : PeerContract.p6 s) (ht : step s = .next t) :
    submitWork t < submitWork s ∨ (submitWork t ≤ submitWork s ∧ t.env.turns.length < s.env.turns.length) := by
  obtain ⟨sc, hsc⟩ := Option.ne_none_iff_exists'.1 hs
  have hr := coreReady h hsc
  have alone : coreStep s = .next t → ackAtSamples s.holder s.env.turns s.env.peer.ack = [s.env.peer.ack] →
      submitWork t < submitWork s := by
    intro hct ha
    obtain hw | ⟨c, b, hc, hb, hne, -⟩ := coreStep_work hr hct
    · exact hw
    · have := hp c b hs hc hb
      rw [ha, List.mem_singleton] at this
      exact absurd this.symm hne
  unfold step machineStep nextTurn at ht
  cases hts : s.env.turns with
  | nil => rw [hts] at ht; exact .inl (alone ht (by rw [hts]; rfl))
  | cons x ts =>
    have other : ∀ r, t = s.popTurn.answer r →
        submitWork t ≤ submitWork s ∧ t.env.turns.length < (x :: ts).length := by
      rintro r rfl
      exact ⟨le_rfl, by simp [State.popTurn, hts]⟩
    rw [hts] at ht
    cases x with
    | core =>
      obtain hw | ⟨c, b, -, -, -, hw, ht⟩ := coreStep_work hr.popTurn ht
      · exact .inl hw
      · exact .inr ⟨hw, by rw [ht]; simp [State.popTurn, hts]⟩
    | peer d => cases ht; exact .inr ⟨le_rfl, by simp [State.popTurn, peerMove, hts]⟩
    | call c op =>
      by_cases hw : callWaits c s = true
      · simp only [hw, if_true] at ht
        have hh : s.holder = some c := by simpa [callWaits, hsc] using hw
        exact .inl (alone ht (by rw [hts]; simp [ackAtSamples, hh]))
      · simp only [hw] at ht
        have hh : s.holder ≠ some c := by simpa [callWaits, hsc] using hw
        obtain ⟨r, hr⟩ := hostCall_waiting (s := s.popTurn) (op := op) hr.up (h.submit hs).2 hh
        cases ht
        exact .inr (other r hr)
    | startUp p => cases ht; exact .inr (other _ (if_pos hr.up))
    | shutdown => cases ht; exact .inr (other _ (by simp [shutDown, State.popTurn, hr.up, hsc, refuseCall]; rfl))

theorem AlongRun.now {P : State → Prop} {s : State} (h : AlongRun P s) : P s := h 0 s rfl

theorem AlongRun.next {P : State → Prop} {s t : State} (h : AlongRun P s) (ht : step s = .next t) : AlongRun P t :=
  fun n u hu => h (n + 1) u ((runSteps_succ ht n).trans hu)

/-- Under P6 along its run a `submit` returns (rules R41, R124), if steps keep the invariant and never stop. -/
theorem submit_returns (keeps : ∀ s t : State, s.Inv → step s = .next t → t.Inv)
    (goes : ∀ s : State, s.Inv → ∃ t, step s = .next t) {s : State} (h : s.Inv) (hp : AlongRun PeerContract.p6 s) :
    ∃ n t, runSteps n s = .next t ∧ t.scan = none := by
  by_cases hs : s.scan = none
  · exact ⟨0, s, rfl, hs⟩
  · obtain ⟨t, ht⟩ := goes s h
    have hw := step_work h hs hp.now ht
    obtain ⟨n, u, hu, hn⟩ := submit_returns keeps goes (keeps s t h ht) (hp.next ht)
    exact ⟨n + 1, u, (runSteps_succ ht n).trans hu, hn⟩
termination_by (submitWork s, s.env.turns.length)
decreasing_by
  obtain hw | ⟨hw, hl⟩ := hw
  · exact Prod.Lex.left _ _ hw
  · obtain hw | hw := hw.lt_or_eq
    · exact Prod.Lex.left _ _ hw
    · rw [hw]; exact Prod.Lex.right _ hl

end Sys2Proof.Machine
end

