-- ==== Sys2Proof/Laws/PerInstr.lean ====
section
/-! SUPPORT. The family EncodedLength: one lemma per constructor of Instr about its encoding (rules R51, R52, R55, R56). -/
namespace Sys2Proof.Laws.EncodedLength

/-- The encoding has the row's length, the row may stand alone, and its canonical form has the same length. -/
def Statement (i : Instr) : Prop :=
  (encode i).length = i.length ∧ i.selectedWhen i.length = true ∧ (encode i.canonical).length = i.length

theorem read (x : BitVec 7) (a : Byte) : Statement (.read x a) := ⟨rfl, rfl, rfl⟩

theorem write (x : BitVec 7) (a d : Byte) : Statement (.write x a d) := ⟨rfl, rfl, rfl⟩

theorem trailT1 (b : Byte) : Statement (.trailT1 b) := ⟨rfl, rfl, rfl⟩

theorem trailT2 (x : BitVec 7) (a : Byte) : Statement (.trailT2 x a) := ⟨rfl, rfl, rfl⟩

end Sys2Proof.Laws.EncodedLength
end

