-- ==== Sys2Proof/Laws/Segments.lean ====
section
/-! SUPPORT. Stretches of a cycle as one run each: a `SetBus`, the direction changes of eight lines, a `GetBus`, a wait. -/
namespace Sys2Proof.Machine

/-- One step, then a run. -/
theorem runSteps_trans {s t u : State} {n : Nat} (h : step s = .next t) (h' : runSteps n t = .next u) :
    runSteps (n + 1) s = .next u := (runSteps_succ h n).trans h'

/-- A run, then another. -/
theorem runSteps_append {s t u : State} {m n : Nat} (h : runSteps m s = .next t) (h' : runSteps n t = .next u) :
    runSteps (m + n) s = .next u := (runSteps_add h n).trans h'

/-- `SetLine`s of Out lines: one step each (rule R70). -/
theorem run_setLines {c : Cycle} {k : Nat} {p : Phase} {tail : List CycleOp} {ts : List Turn} (ls : List Line)
    (bs : List Level) {s : State} (hlen : ls.length = bs.length) (hu : s.up = true) (hs : s.scan ≠ none)
    (hf : s.fault = none) (ht : s.env.turns = List.replicate ls.length .core ++ ts)
    (hd : ∀ l ∈ ls, (s.lines.get l).dir = .output) :
    runSteps ls.length (advance { c with later := cycleStep k p (List.zipWith .setLine ls bs) ++ tail } s) =
      .next (advance { c with later := tail } { s with
        lines := (ls.zip bs).foldl (fun ls x => ls.set x.1 ⟨.output, x.2⟩) s.lines
        trace := s.trace ++ List.zipWith .evSet ls bs
        env := { s.env with turns := ts } }) := by
  induction ls generalizing bs s with
  | nil =>
    simp only [List.length_nil, List.replicate_zero, List.nil_append] at ht
    subst ht
    simp [cycleStep]
  | cons l ls ih =>
    obtain - | ⟨b, bs⟩ := bs
    · simp at hlen
    have h := step_setLine (c := c) (k := k) (p := p) (b := b)
      (tail := cycleStep k p (List.zipWith .setLine ls bs) ++ tail)
      ⟨hu, hs, hf, .inl (by rw [ht]; rfl)⟩ (hd l (by simp))
    refine runSteps_trans h ((ih bs (by simpa using hlen) (by exact hu) (by exact hs) (by exact hf) rfl ?_).trans ?_)
    · intro l' hl'
      show ((s.lines.set l ⟨.output, b⟩).get l').dir = .output
      by_cases e : l' = l
      · subst e; simp
      · rw [Lines.get_set_ne _ _ e]; exact hd l' (by simp [hl'])
    · simp

/-- `SetDir`s of different data lines: one step for each line that turns (rules R64, R75). -/
theorem run_setDirs {c : Cycle} {k : Nat} {p : Phase} {d : Direction} {tail : List CycleOp} {ts : List Turn}
    (ns : List (Fin 8)) {s : State} (hnd : ns.Nodup) (hu : s.up = true) (hs : s.scan ≠ none) (hf : s.fault = none)
    (ht : s.env.turns =
      List.replicate ((ns.map Line.data).filter fun l => (s.lines.get l).dir != d).length .core ++ ts) :
    ∃ v : Vector LineState 8,
      runSteps ((ns.map Line.data).filter fun l => (s.lines.get l).dir != d).length
        (advance { c with later := cycleStep k p (ns.map fun n => .setDir (.data n) d) ++ tail } s) =
      .next (advance { c with later := tail } { s with
        lines := { s.lines with data := v }
        trace := s.trace ++
          ((ns.map Line.data).filter fun l => (s.lines.get l).dir != d).map fun l => .evDir l d
        env := { s.env with
          turns := ts
          drawn := s.env.drawn +
            if d = .output then ((ns.map Line.data).filter fun l => (s.lines.get l).dir != d).length else 0 } }) ∧
      (∀ n ∈ ns, v[n].dir = d) ∧ (∀ n ∉ ns, v[n] = s.lines.data[n]) ∧
      (d = .input → ∀ n : Fin 8, v[n].out = s.lines.data[n].out) := by
  induction ns generalizing s with
  | nil =>
    simp only [List.map_nil, List.filter_nil, List.length_nil, List.replicate_zero, List.nil_append] at ht
    subst ht
    exact ⟨s.lines.data, by simp [cycleStep], by simp, by simp, by simp⟩
  | cons n ns ih =>
    obtain ⟨hn, hnd⟩ := List.nodup_cons.1 hnd
    by_cases hr : s.lines.data[n].dir = d
    · have hfil : ((n :: ns).map Line.data).filter (fun l => (s.lines.get l).dir != d) =
          (ns.map Line.data).filter fun l => (s.lines.get l).dir != d := by
        rw [List.map_cons, List.filter_cons_of_neg]; simpa [Lines.get] using hr
      rw [hfil] at ht ⊢
      obtain ⟨v, h1, h2, h3, h4⟩ := ih hnd hu hs hf ht
      refine ⟨v, ?_, ?_, fun m hm => h3 m fun h => hm (by simp [h]), h4⟩
      · rw [← h1]
        exact congrArg _ (advance_redundant (o := ⟨k, p, .setDir (.data n) d⟩) (by simpa [redundant] using hr))
      · intro m hm
        rcases List.mem_cons.1 hm with rfl | hm
        · rw [h3 _ hn]; exact hr
        · exact h2 m hm
    · have hfil : ((n :: ns).map Line.data).filter (fun l => (s.lines.get l).dir != d) =
          .data n :: (ns.map Line.data).filter fun l => (s.lines.get l).dir != d := by
        rw [List.map_cons, List.filter_cons_of_pos]; simpa [Lines.get] using hr
      rw [hfil] at ht ⊢
      obtain ⟨b, m, h, hi, ho⟩ := step_setDir (c := c) (k := k) (p := p)
        (tail := cycleStep k p (ns.map fun n => .setDir (.data n) d) ++ tail)
        ⟨hu, hs, hf, .inl (by rw [ht]; rfl)⟩ hr
      have hrest : ∀ l ∈ ns.map Line.data, (s.lines.set (.data n) ⟨d, b⟩).get l = s.lines.get l := by
        intro l hl
        refine Lines.get_set_ne _ _ ?_
        rintro rfl
        simp only [List.mem_map, Line.data.injEq, exists_eq_right] at hl
        exact hn hl
      have hfil' : (ns.map Line.data).filter (fun l => ((s.lines.set (.data n) ⟨d, b⟩).get l).dir != d) =
          (ns.map Line.data).filter fun l => (s.lines.get l).dir != d :=
        List.filter_congr fun l hl => by rw [hrest l hl]
      obtain ⟨v, h1, h2, h3, h4⟩ := ih (s := { s with
          lines := s.lines.set (.data n) ⟨d, b⟩
          trace := s.trace ++ [.evDir (.data n) d]
          env := { s.env with
            turns := List.replicate ((ns.map Line.data).filter fun l => (s.lines.get l).dir != d).length .core ++ ts
            drawn := m } })
        hnd hu hs hf (by exact congrArg (fun l : List Line => List.replicate l.length Turn.core ++ ts) hfil'.symm)
      simp only [hfil'] at h1
      have hset : ∀ i : Fin 8, i ≠ n → (s.lines.set (.data n) ⟨d, b⟩).data[i] = s.lines.data[i] := fun i hi =>
        Lines.get_set_ne s.lines ⟨d, b⟩ (l := .data n) (l' := .data i) (by simpa using hi)
      have hsetn : (s.lines.set (.data n) ⟨d, b⟩).data[n] = ⟨d, b⟩ := Lines.get_set_self s.lines (.data n) ⟨d, b⟩
      refine ⟨v, runSteps_trans h (h1.trans ?_), ?_, ?_, ?_⟩
      · have hm : m + (if d = .output then ((ns.map Line.data).filter fun l => (s.lines.get l).dir != d).length else 0)
            = s.env.drawn + if d = .output then
              (Line.data n :: (ns.map Line.data).filter fun l => (s.lines.get l).dir != d).length else 0 := by
          cases d with
          | input => simp [(hi rfl).2]
          | output => simp [ho rfl]; omega
        simp only [hm, List.map_cons, List.append_assoc, List.singleton_append]
        rfl
      · intro i hi
        rcases List.mem_cons.1 hi with rfl | hi
        · rw [h3 _ hn]; exact congrArg LineState.dir hsetn
        · exact h2 i hi
      · intro i hi
        have : i ≠ n ∧ i ∉ ns := by simpa using hi
        rw [h3 i this.2]; exact hset i this.1
      · intro hd i
        rw [h4 hd i]
        by_cases e : i = n
        · subst e; exact (congrArg LineState.out hsetn).trans (hi hd).1
        · exact congrArg LineState.out (hset i e)

/-- Samples of In data lines on which the peer drives `f`: one step each (rule R71). -/
theorem run_getLines {c : Cycle} {k : Nat} {p : Phase} {tail : List CycleOp} {ts : List Turn} (f : Fin 8 → Level)
    (ns : List (Fin 8)) {v : Byte} {s : State} (hu : s.up = true) (hs : s.scan ≠ none) (hf : s.fault = none)
    (ht : s.env.turns = List.replicate ns.length .core ++ ts)
    (hd : ∀ n ∈ ns, s.lines.data[n].dir = .input) (hp : ∀ n ∈ ns, s.env.peer.data[n] = some (f n)) :
    runSteps ns.length (advance { c with byte := v, later := cycleStep k p (ns.map fun n => .getLine (.data n)) ++ tail } s) =
      .next (advance { c with later := tail, byte := ns.foldl (fun v (n : Fin 8) => setBit v n (f n)) v } { s with
        trace := s.trace ++ ns.map fun n => .evGet (.data n) (f n)
        env := { s.env with turns := ts } }) := by
  induction ns generalizing v s with
  | nil =>
    simp only [List.length_nil, List.replicate_zero, List.nil_append] at ht
    subst ht
    simp [cycleStep]
  | cons n ns ih =>
    have h := step_getLine (c := { c with byte := v }) (k := k) (p := p)
      (tail := cycleStep k p (ns.map fun n => .getLine (.data n)) ++ tail)
      ⟨hu, hs, hf, .inl (by rw [ht]; rfl)⟩ (hd n (by simp)) (hp n (by simp))
    refine runSteps_trans h ((ih (by exact hu) (by exact hs) (by exact hf) rfl ?_ ?_).trans ?_)
    · intro m hm; exact hd m (by simp [hm])
    · intro m hm; exact hp m (by simp [hm])
    · simp

/-- Wrong-level samples of a wait, inside the poll bound: one step each (rules R72, R73). -/
theorem run_polls {s : State} {sc : Scan} {c : Cycle} {b : Level} {ts : List Turn} (n : Nat) (hu : s.up = true)
    (hs : s.scan = some sc) (hf : s.fault = none) (hc : s.cycle = some c) (ho : c.now.op = .waitAck b)
    (hp : s.env.peer.ack = some (!b)) (hw : waitsWithin s.params (s.polls + n))
    (ht : s.env.turns = List.replicate n .core ++ ts ∨ s.env.turns = [] ∧ ts = []) :
    runSteps n s = .next { s with
      polls := s.polls + n
      trace := s.trace ++ List.replicate n (.evGet .ack (!b))
      env := { s.env with turns := ts } } := by
  induction n generalizing s with
  | zero =>
    rcases ht with ht | ⟨ht, rfl⟩
    · simp only [List.replicate_zero, List.nil_append] at ht; simp [← ht]
    · simp [← ht]
  | succ n ih =>
    have hw1 : waitsWithin s.params (s.polls + 1) := fun lim h => by have := hw lim h; omega
    have hw2 : waitsWithin s.params (s.polls + 1 + n) := fun lim h => by have := hw lim h; omega
    rcases ht with ht | ⟨ht, rfl⟩
    · have h := (step_coreTurn (ts := List.replicate n .core ++ ts) (by rw [ht]; rfl)).trans
        (coreStep_wait_again (s := s.popTurn) hu hs hf hc ho hp hw1)
      refine runSteps_trans h ((ih (by exact hu) (by exact hs) (by exact hf) (by exact hc) (by exact hp) hw2
        (.inl (by simp [State.popTurn, ht, List.replicate_succ]))).trans ?_)
      simp [State.popTurn, List.replicate_succ, Nat.add_assoc, Nat.add_comm 1]
    · have h := (step_idleTurns ht).trans (coreStep_wait_again (s := s) hu hs hf hc ho hp hw1)
      refine runSteps_trans h ((ih (by exact hu) (by exact hs) (by exact hf) (by exact hc) (by exact hp) (by exact hw2)
        (.inr ⟨by exact ht, rfl⟩)).trans ?_)
      simp [List.replicate_succ, Nat.add_assoc, Nat.add_comm 1]

/-- A whole wait that the peer answers after `n` wrong samples (rule R72). -/
theorem run_wait {s : State} {c : Cycle} {k : Nat} {p : Phase} {b : Level} {tail : List CycleOp} {u : PeerDrive}
    {ts : List Turn} (n : Nat) (hu : s.up = true) (hs : s.scan ≠ none) (hf : s.fault = none)
    (hp : s.env.peer.ack = some (!b)) (hub : u.ack = some b) (hw : waitsWithin s.params n)
    (ht : s.env.turns = List.replicate n .core ++ .peer u :: .core :: ts) :
    runSteps (n + 2) (advance { c with later := ⟨k, p, .waitAck b⟩ :: tail } s) =
      .next (advance { c with later := tail } { s with
        polls := n
        trace := s.trace ++ List.replicate n (.evGet .ack (!b)) ++ [.evGet .ack b]
        env := { s.env with turns := ts, peer := u } }) := by
  obtain ⟨sc, hs⟩ := Option.ne_none_iff_exists'.1 hs
  have ha : advance { c with later := ⟨k, p, .waitAck b⟩ :: tail } s = { s with
      cycle := some { c with now := ⟨k, p, .waitAck b⟩, later := tail }, phase := p, polls := 0 } := by
    unfold advance
    simp [hf, redundant, pollsEntering]
  rw [ha]
  have h1 := run_polls (s := { s with
      cycle := some { c with now := ⟨k, p, .waitAck b⟩, later := tail }, phase := p, polls := 0 })
    n hu hs hf rfl rfl hp (by rw [Nat.zero_add]; exact hw) (.inl ht)
  refine runSteps_append h1 (runSteps_trans (step_peerTurn rfl) (runSteps_trans ((step_coreTurn rfl).trans
    (coreStep_wait_ok (sc := sc) (c := { c with now := ⟨k, p, .waitAck b⟩, later := tail }) (b := b) hu hs hf rfl rfl
      hub)) ?_))
  rw [runSteps_zero]
  refine congrArg _ (Eq.trans (congrArg _ ?_) (advance_congr (c := { c with now := ⟨k, p, .waitAck b⟩, later := tail })
    (c' := { c with later := tail }) (s := { s with
      polls := n
      trace := s.trace ++ List.replicate n (.evGet .ack (!b)) ++ [.evGet .ack b]
      env := { s.env with turns := ts, peer := u } }) rfl rfl rfl hf
    (some { c with now := ⟨k, p, .waitAck b⟩, later := tail }) p))
  simp [State.popTurn]

/-! ### The parts of the two cycles -/

/-- One step, then a run, counted from the front. -/
theorem runSteps_one {s t u : State} {n : Nat} (h : step s = .next t) (h' : runSteps n t = .next u) :
    runSteps (1 + n) s = .next u := by rw [Nat.add_comm]; exact runSteps_trans h h'

/-- The latches a `SetBus(ADDR, v)` leaves (rule R70). -/
theorem foldl_addrBus (ls : Lines) (v : Byte) :
    (addrBus.zip (bitsMsbFirst v)).foldl (fun (ls : Lines) x => ls.set x.1 ⟨.output, x.2⟩) ls =
      { ls with addr := busLines .output v } := by
  simp only [addrBus, bitsMsbFirst, List.zip_cons_cons, List.foldl_cons, List.zip_nil_left, List.foldl_nil, Lines.set]
  congr 1
  apply Vector.ext
  intro i hi
  simp only [Vector.getElem_set, busLines]
  interval_cases i <;> rfl

/-- The latches a `SetBus(DATA, v)` leaves (rule R70). -/
theorem foldl_dataBus (ls : Lines) (v : Byte) :
    (dataBus.zip (bitsMsbFirst v)).foldl (fun (ls : Lines) x => ls.set x.1 ⟨.output, x.2⟩) ls =
      { ls with data := busLines .output v } := by
  simp only [dataBus, bitsMsbFirst, List.zip_cons_cons, List.foldl_cons, List.zip_nil_left, List.foldl_nil, Lines.set]
  congr 1
  apply Vector.ext
  intro i hi
  simp only [Vector.getElem_set, busLines]
  interval_cases i <;> rfl

/-- Which lines turn depends on the data lines only. -/
theorem turningLines_data {ls ls' : Lines} (d : Direction) (h : ls.data = ls'.data) :
    turningLines ls d = turningLines ls' d := by
  refine List.filter_congr fun l hl => ?_
  simp only [dataBus, List.mem_cons, List.not_mem_nil, or_false] at hl
  rcases hl with rfl | rfl | rfl | rfl | rfl | rfl | rfl | rfl <;> simp only [Lines.get, h]

/-- The numbers of the data lines, D7 first. -/
def dataNumbers : List (Fin 8) := [7, 6, 5, 4, 3, 2, 1, 0]

theorem mem_dataNumbers (n : Fin 8) : n ∈ dataNumbers := by revert n; decide

/-- A `SetBus` of the byte `v` on eight Out address lines: eight steps. -/
theorem run_address {c : Cycle} {k : Nat} {p : Phase} {v : Byte} {tail : List CycleOp} {ts : List Turn} {s : State}
    (hu : s.up = true) (hs : s.scan ≠ none) (hf : s.fault = none)
    (ht : s.env.turns = List.replicate 8 .core ++ ts) (hd : ∀ n : Fin 8, s.lines.addr[n].dir = .output) :
    runSteps 8 (advance { c with later := cycleStep k p (setBusOps addrBus v) ++ tail } s) =
      .next (advance { c with later := tail } { s with
        lines := { s.lines with addr := busLines .output v }
        trace := s.trace ++ setBusEvents addrBus v
        env := { s.env with turns := ts } }) := by
  rw [← foldl_addrBus]
  refine run_setLines addrBus (bitsMsbFirst v) rfl hu hs hf ht ?_
  intro l hl
  simp only [addrBus, List.mem_cons, List.not_mem_nil, or_false] at hl
  rcases hl with rfl | rfl | rfl | rfl | rfl | rfl | rfl | rfl <;> exact hd _

/-- The direction changes and the data byte of a write cycle: k + 8 steps. -/
theorem run_dataOut {c : Cycle} {k : Nat} {p : Phase} {v : Byte} {tail : List CycleOp} {ts : List Turn} {s : State}
    (hu : s.up = true) (hs : s.scan ≠ none) (hf : s.fault = none)
    (ht : s.env.turns =
      List.replicate (turningLines s.lines .output).length .core ++ (List.replicate 8 .core ++ ts)) :
    runSteps ((turningLines s.lines .output).length + 8)
        (advance { c with later := cycleStep k p (dataBus.map fun l => .setDir l .output)
          ++ (cycleStep k p (setBusOps dataBus v) ++ tail) } s) =
      .next (advance { c with later := tail } { s with
        lines := { s.lines with data := busLines .output v }
        trace := s.trace ++ (turningLines s.lines .output).map (fun l => .evDir l .output) ++ setBusEvents dataBus v
        env := { s.env with
          turns := ts
          drawn := s.env.drawn + (turningLines s.lines .output).length } }) := by
  obtain ⟨w, h1, h2, -, -⟩ := run_setDirs (c := c) (k := k) (p := p) (d := .output)
    (tail := cycleStep k p (setBusOps dataBus v) ++ tail) dataNumbers (by decide) hu hs hf ht
  refine runSteps_append h1 ?_
  have h := run_setLines (c := c) (k := k) (p := p) (tail := tail) (ts := ts) dataBus (bitsMsbFirst v)
    (s := { s with
        lines := { s.lines with data := w }
        trace := s.trace ++ (turningLines s.lines .output).map fun l => .evDir l .output
        env := { s.env with
          turns := List.replicate 8 .core ++ ts
          drawn := s.env.drawn + (turningLines s.lines .output).length } })
    rfl hu hs hf rfl (by
      intro l hl
      simp only [dataBus, List.mem_cons, List.not_mem_nil, or_false] at hl
      rcases hl with rfl | rfl | rfl | rfl | rfl | rfl | rfl | rfl <;> exact h2 _ (mem_dataNumbers _))
  rw [foldl_dataBus] at h
  exact h

/-- The direction changes of a read cycle: k steps. -/
theorem run_dataIn {c : Cycle} {k : Nat} {p : Phase} {tail : List CycleOp} {ts : List Turn} {s : State}
    (hu : s.up = true) (hs : s.scan ≠ none) (hf : s.fault = none)
    (ht : s.env.turns = List.replicate (turningLines s.lines .input).length .core ++ ts) :
    runSteps (turningLines s.lines .input).length
        (advance { c with later := cycleStep k p (dataBus.map fun l => .setDir l .input) ++ tail } s) =
      .next (advance { c with later := tail } { s with
        lines := { s.lines with data := allInput s.lines.data }
        trace := s.trace ++ (turningLines s.lines .input).map (fun l => .evDir l .input)
        env := { s.env with turns := ts } }) := by
  obtain ⟨w, h1, h2, -, h4⟩ := run_setDirs (c := c) (k := k) (p := p) (d := .input) (tail := tail) dataNumbers
    (by decide) hu hs hf ht
  have hw : w = allInput s.lines.data := by
    apply Vector.ext
    intro i hi
    have e1 : w[i].dir = .input := h2 ⟨i, hi⟩ (mem_dataNumbers _)
    have e2 : w[i].out = s.lines.data[i].out := h4 rfl ⟨i, hi⟩
    simp only [allInput, Vector.getElem_map]
    show LineState.mk w[i].dir w[i].out = _
    exact congr (congrArg LineState.mk e1) e2
  subst hw
  exact h1

/-- Eight samples assemble the byte sampled, whatever was there before (rule R71). -/
theorem foldl_samples (v r : Byte) :
    dataNumbers.foldl (fun v (n : Fin 8) => setBit v n (r.getLsbD n)) v = r :=
  bitsMsbFirst_inj (recordSamples v _ _ _ _ _ _ _ _)

/-- A `GetBus(DATA)` of the byte `r` that the peer drives: eight steps. -/
theorem run_sample {c : Cycle} {k : Nat} {p : Phase} {r : Byte} {tail : List CycleOp} {ts : List Turn} {s : State}
    (hu : s.up = true) (hs : s.scan ≠ none) (hf : s.fault = none)
    (ht : s.env.turns = List.replicate 8 .core ++ ts) (hd : ∀ n : Fin 8, s.lines.data[n].dir = .input)
    (hp : ∀ n : Fin 8, s.env.peer.data[n] = some (r.getLsbD n)) :
    runSteps 8 (advance { c with later := cycleStep k p (dataBus.map .getLine) ++ tail } s) =
      .next (advance { c with later := tail, byte := r } { s with
        trace := s.trace ++ getBusEvents dataBus r
        env := { s.env with turns := ts } }) := by
  have h := run_getLines (c := c) (k := k) (p := p) (tail := tail) (fun n => r.getLsbD n) dataNumbers (v := c.byte) hu hs hf
    ht (fun n _ => hd n) (fun n _ => hp n)
  rw [foldl_samples] at h
  exact h

/-- The handshake of a write cycle up to its end (rule R81, steps 4 to 7). -/
theorem run_writeHandshake {c : Cycle} {u dn : PeerDrive} {ts : List Turn} {s : State} (p q : Nat)
    (hu : s.up = true) (hs : s.scan ≠ none) (hf : s.fault = none) (hr : s.lines.req.dir = .output)
    (hp : s.env.peer.ack = some false) (hub : u.ack = some true) (hdb : dn.ack = some false)
    (hwp : waitsWithin s.params p) (hwq : waitsWithin s.params q)
    (ht : s.env.turns = .core :: (List.replicate p .core ++ .peer u :: .core :: .core ::
      (List.replicate q .core ++ .peer dn :: .core :: ts))) :
    runSteps (1 + ((p + 2) + (1 + (q + 2)))) (advance { c with
        later := cycleStep 4 .addressAndDataAsserted [.setLine .req true]
          ++ (cycleStep 5 .requestAsserted [.waitAck true]
          ++ (cycleStep 6 .peerAcknowledged [.setLine .req false]
          ++ cycleStep 7 .requestDeasserted [.waitAck false])) } s) =
      .next (finishCycle c { s with
        lines := { s.lines with req := ⟨.output, false⟩ }
        trace := s.trace ++ [.evSet .req true] ++ List.replicate p (.evGet .ack false)
          ++ [.evGet .ack true, .evSet .req false] ++ List.replicate q (.evGet .ack true) ++ [.evGet .ack false]
        env := { s.env with turns := ts, peer := dn } }) := by
  refine runSteps_one (step_setLine (c := c) ⟨hu, hs, hf, .inl ht⟩ hr) ?_
  refine runSteps_append (run_wait (c := c) p (by exact hu) (by exact hs) (by exact hf) (by exact hp) hub (by exact hwp) rfl) ?_
  refine runSteps_one (step_setLine (c := c) ⟨by exact hu, by exact hs, by exact hf, .inl rfl⟩ rfl) ?_
  refine (run_wait (c := c) q (by exact hu) (by exact hs) (by exact hf) (by exact hub) hdb (by exact hwq) rfl).trans ?_
  rw [advance, if_neg (by simp [hf])]
  simp only [finishCycle, Lines.set, List.append_assoc, List.cons_append, List.nil_append]
  rfl

/-- The handshake of a read cycle up to its end (rule R82, steps 4 to 8). -/
theorem run_readHandshake {c : Cycle} {r : Byte} {dn : PeerDrive} {ts : List Turn} {s : State} (p q : Nat)
    (hu : s.up = true) (hs : s.scan ≠ none) (hf : s.fault = none) (hr : s.lines.req.dir = .output)
    (hi : ∀ n : Fin 8, s.lines.data[n].dir = .input) (hp : s.env.peer.ack = some false)
    (hdb : dn.ack = some false) (hwp : waitsWithin s.params p) (hwq : waitsWithin s.params q)
    (ht : s.env.turns = .core :: (List.replicate p .core ++ .peer (PeerDrive.acking true r) :: .core ::
      (List.replicate 8 .core ++ .core :: (List.replicate q .core ++ .peer dn :: .core :: ts)))) :
    runSteps (1 + ((p + 2) + (8 + (1 + (q + 2))))) (advance { c with
        later := cycleStep 4 .addressAndDataAsserted [.setLine .req true]
          ++ (cycleStep 5 .requestAsserted [.waitAck true]
          ++ (cycleStep 6 .peerAcknowledged (dataBus.map .getLine)
          ++ (cycleStep 7 .peerAcknowledged [.setLine .req false]
          ++ cycleStep 8 .requestDeasserted [.waitAck false]))) } s) =
      .next (finishCycle { c with byte := r } { s with
        lines := { s.lines with req := ⟨.output, false⟩ }
        trace := s.trace ++ [.evSet .req true] ++ List.replicate p (.evGet .ack false) ++ [.evGet .ack true]
          ++ getBusEvents dataBus r ++ [.evSet .req false] ++ List.replicate q (.evGet .ack true)
          ++ [.evGet .ack false]
        env := { s.env with turns := ts, peer := dn } }) := by
  refine runSteps_one (step_setLine (c := c) ⟨hu, hs, hf, .inl ht⟩ hr) ?_
  refine runSteps_append (run_wait (c := c) p (by exact hu) (by exact hs) (by exact hf) (by exact hp) rfl (by exact hwp) rfl) ?_
  refine runSteps_append (run_sample (c := c) (r := r) (by exact hu) (by exact hs) (by exact hf) rfl (by exact hi) ?_) ?_
  · intro n; fin_cases n <;> rfl
  refine runSteps_one (step_setLine (c := { c with byte := r }) ⟨by exact hu, by exact hs, by exact hf, .inl rfl⟩ rfl) ?_
  refine (run_wait (c := { c with byte := r }) q (by exact hu) (by exact hs) (by exact hf) (by rfl) hdb (by exact hwq) rfl).trans ?_
  rw [advance, if_neg (by simp [hf])]
  simp only [finishCycle, Lines.set, List.append_assoc, List.cons_append, List.nil_append]
  rfl

/-- A cycle's first step, with the rest of the cycle left (rules R81, R82 step 1). -/
theorem beginCycle_advance (tx : BusTransaction) {s : State} (hu : s.up = true) (hf : s.fault = none) (hd : s.lines.dir.dir = .output) :
    beginCycle tx s = advance { Cycle.start tx with later := laterOps tx } { s with
      lines := { s.lines with dir := ⟨.output, tx.isWrite⟩ }
      trace := s.trace ++ [.evBegin tx, .evSet .dir tx.isWrite] } := by
  simp only [beginCycle, engineStep, Cycle.start, firstOp]
  rw [setLine_out (operating_of (by exact hu) (by exact hf)) (by exact hd)]
  simp only [Lines.get, Lines.set, State.emit, hd, List.append_assoc, List.cons_append, List.nil_append]
  exact advance_congr (s := { s with
    lines := { s.lines with dir := ⟨.output, tx.isWrite⟩ }
    trace := s.trace ++ [.evBegin tx, .evSet .dir tx.isWrite] }) rfl rfl rfl hf _ s.phase

end Sys2Proof.Machine
end

