-- ==== Sys2Proof/Tests/Slice0.lean ====
section
/-! SUPPORT. Named tests. Expected results come from the vectors of 95_test_vectors.md and from the encodings of
30_encoding.md; each witness shows a state and operands that meet the hypotheses of one obligation. -/
namespace Sys2Proof.Tests
open Sys2Proof.Machine

/-! ### Well-formedness: where a row may stand -/

theorem test_wf_read : (Instr.read 0 0x05).selectedWhen 2 = true ∧ (Instr.read 0 0x05).selectedWhen 1 = false := by
  decide
theorem test_wf_write :
    (Instr.write 0 0x10 0x20).selectedWhen 3 = true ∧ (Instr.write 0 0x10 0x20).selectedWhen 2 = false := by decide
theorem test_wf_trailT1 :
    (Instr.trailT1 0xAA).selectedWhen 1 = true ∧ (Instr.trailT1 0xAA).selectedWhen 2 = false := by decide
theorem test_wf_trailT2 :
    (Instr.trailT2 0 0x10).selectedWhen 2 = true ∧ (Instr.trailT2 0 0x10).selectedWhen 3 = false := by decide
theorem test_wf_listing :
    wellFormedListing [.read 0 1, .trailT1 2] = true ∧ wellFormedListing [.trailT1 2, .read 0 1] = false := by decide
theorem test_wf_program : isProgram [.read 0 1, .write 0 1 2] = true ∧ isProgram [.read 0 1, .trailT2 0 2] = false := by
  decide

/-! ### Decoding: words written bit by bit from R51, R52, R56 -/

/-- Format R: x = 1111111, op = 0; a = 0x33 (V-DEC-7). -/
theorem test_decode_read : decodeStream [0b11111110, 0b00110011] = ([.read 0b1111111 0x33], none) := by decide
/-- Format W: x = 0000001, op = 1; a = 0x44; d = 0x55 (V-DEC-10). -/
theorem test_decode_write :
    decodeStream [0b00000011, 0b01000100, 0b01010101] = ([.write 0b0000001 0x44 0x55], none) := by decide
/-- T1 after a READ: the address byte 0x01 is not read as an opcode (V-DEC-11). -/
theorem test_decode_trailT1 :
    decodeStream [0b00000000, 0b00000001, 0b10101010] = ([.read 0 0x01], some (.trailT1 0xAA)) := by decide
/-- T2 after a READ (V-DEC-14). -/
theorem test_decode_trailT2 :
    decodeStream [0b00000010, 0b00010000, 0b00000001, 0b00010000] =
      ([.read 0b0000001 0x10], some (.trailT2 0 0x10)) := by decide
/-- Numbered as the opcode table numbers bits: byte 0 in bits 7..0. -/
theorem test_decode_table :
    decodeTableWord 16 0x3300 = some (.read 0 0x33) ∧ decodeTableWord 24 0x554401 = some (.write 0 0x44 0x55) ∧
    decodeTableWord 8 0x01 = some (.trailT1 0x01) ∧ decodeTableWord 16 0x1001 = some (.trailT2 0 0x10) := by decide

/-! ### Small states -/

/-- Lines with the fixed directions of R15. -/
def linesOf (dir : Level) (a : Byte) (req : Level) (d : Direction) (v : Byte) : Lines where
  req := ⟨.output, req⟩
  ack := ⟨.input, false⟩
  dir := ⟨.output, dir⟩
  addr := busLines .output a
  data := busLines d v

/-- The peer drives ACK and nothing else. -/
def ackOnly (b : Level) : PeerDrive := { PeerDrive.unknown with ack := some b }

/-- Caller 1 holds the session, nothing runs, ACK is 0. -/
def idle : State where
  up := true
  params := Config.defaultParams
  lines := linesOf false 0x00 false .input 0x00
  phase := .idle
  cycle := none
  polls := 0
  scan := none
  holder := some 1
  fault := none
  wedged := false
  trace := []
  replies := []
  env := { Env.empty with peer := ackOnly false, resourceDraws := [.ok] }

/-- Inside a `submit` of `buf`, at `pc`. -/
def scanning (buf : List Byte) (pc : Nat) : State := { idle with scan := some { buf := buf, pc := pc, results := [] } }

/-- READ 0x05 in its wait for ACK = 1. -/
def waiting : State :=
  { scanning [0x00, 0x05] 2 with
    lines := linesOf false 0x05 true .input 0x00
    phase := .requestAsserted
    cycle := some { cur := .read 0x05, now := ⟨5, .requestAsserted, .waitAck true⟩, later := (readOps 0x05).drop 18,
                    byte := 0 } }

/-- READ 0x05 about to sample D7. -/
def sampling : State :=
  { waiting with
    phase := .peerAcknowledged
    cycle := some { cur := .read 0x05, now := ⟨6, .peerAcknowledged, .getLine (.data 7)⟩,
                    later := (readOps 0x05).drop 19, byte := 0 }
    env := { idle.env with peer := PeerDrive.acking true 0xAA } }

/-- READ 0x05 in its wait for ACK = 0, the peer holding ACK at 1. -/
def releasing : State :=
  { waiting with
    lines := linesOf false 0x05 false .input 0x00
    phase := .requestDeasserted
    cycle := some { cur := .read 0x05, now := ⟨8, .requestDeasserted, .waitAck false⟩, later := [], byte := 0xAA }
    env := { idle.env with peer := ackOnly true } }

/-- The same state with other turns. -/
def withTurns (ts : List Turn) (s : State) : State := { s with env := { s.env with turns := ts } }

/-- The same state with a poll bound of `n + 1`. -/
def bounded (n : Nat) (s : State) : State :=
  { s with params := { ackPollLimit := some ⟨n + 1, by omega⟩, maxStreamLen := none } }

/-- The next state, if a step gives one. -/
def after : Host.Outcome State Fault Refusal → Option State
  | .next s => some s
  | .fault _ => none
  | .refused _ => none

theorem fixed_linesOf (dir : Level) (a : Byte) (req : Level) (d : Direction) (v : Byte) :
    (linesOf dir a req d v).FixedDirections := by
  refine ⟨rfl, rfl, rfl, fun n => ?_⟩
  fin_cases n <;> rfl

theorem dataAll_linesOf (dir : Level) (a : Byte) (req : Level) (d : Direction) (v : Byte) :
    (linesOf dir a req d v).dataAll d := by
  intro n
  fin_cases n <;> rfl

theorem idle_inv : idle.Inv where
  fixed := fixed_linesOf _ _ _ _ _
  noFault := rfl
  idle := fun _ => rfl
  polls := fun _ => rfl
  req := rfl
  cycle := fun _ h => nomatch h
  submit := fun h => absurd rfl h
  running := fun h => absurd rfl h
  cursor := fun _ h => nomatch h
  alive := fun _ => rfl

theorem scanning_inv (buf : List Byte) (pc : Nat) (h : pc ≤ buf.length) : (scanning buf pc).Inv where
  fixed := fixed_linesOf _ _ _ _ _
  noFault := rfl
  idle := fun _ => rfl
  polls := fun _ => rfl
  req := rfl
  cycle := fun _ h => nomatch h
  submit := fun _ => ⟨rfl, nofun⟩
  running := fun h => absurd rfl h
  cursor := fun _ h' => by cases h'; exact h
  alive := fun _ => rfl

theorem cycling_inv {s : State} {c : Cycle} (hu : s.up = true) (hl : s.lines.FixedDirections) (hf : s.fault = none)
    (hc : s.cycle = some c) (hr : s.lines.req.out = (s.phase == .requestAsserted || s.phase == .peerAcknowledged)) (hi : CycleInv s c)
    (hw : s.wedged = false) (hh : s.holder ≠ none) {sc : Scan} (hs : s.scan = some sc) (hp : sc.pc ≤ sc.buf.length) :
    s.Inv where
  fixed := hl
  noFault := hf
  idle := fun h => by rw [hc] at h; cases h
  polls := fun h => by rw [hc] at h; cases h
  req := hr
  cycle := fun c' h => by rw [hc] at h; cases h; exact hi
  submit := fun _ => ⟨hw, hh⟩
  running := fun _ _ => by rw [hs]; nofun
  cursor := fun sc' h => by rw [hs] at h; cases h; exact hp
  alive := fun _ => hu

/-- The invariant does not look at the world around the core. -/
theorem env_inv {s : State} (e : Env) (h : s.Inv) : ({ s with env := e } : State).Inv :=
  ⟨h.fixed, h.noFault, h.idle, h.polls, h.req, fun c hc => ⟨(h.cycle c hc).1, (h.cycle c hc).2, (h.cycle c hc).3,
    (h.cycle c hc).4, (h.cycle c hc).5⟩, h.submit, h.running, h.cursor, h.alive⟩

theorem waiting_inv : waiting.Inv :=
  cycling_inv rfl (fixed_linesOf _ _ _ _ _) rfl rfl rfl
    ⟨⟨(cycleOps (.read 0x05)).take 18, by decide⟩, rfl, rfl, by decide, by decide, by decide, dataAll_linesOf _ _ _ _ _⟩
    rfl nofun rfl (by decide)

theorem sampling_inv : sampling.Inv :=
  cycling_inv rfl (fixed_linesOf _ _ _ _ _) rfl rfl rfl
    ⟨⟨(cycleOps (.read 0x05)).take 19, by decide⟩, rfl, rfl, by decide, by decide, by decide, dataAll_linesOf _ _ _ _ _⟩
    rfl nofun rfl (by decide)

theorem releasing_inv : releasing.Inv :=
  cycling_inv rfl (fixed_linesOf _ _ _ _ _) rfl rfl rfl
    ⟨⟨(cycleOps (.read 0x05)).take 28, by decide⟩, rfl, rfl, by decide, by decide, by decide, dataAll_linesOf _ _ _ _ _⟩
    rfl nofun rfl (by decide)

theorem ready (buf : List Byte) (pc : Nat) : (scanning buf pc).Ready :=
  ⟨rfl, rfl, rfl, rfl, rfl, fixed_linesOf _ _ _ _ _⟩

/-! ### One step of each instruction -/

/-- V-HS-2 events 2 and 3: `EvBegin(Read, 0x01, -)`, `EvSet(DIR,0)`; `pc` is 2. -/
theorem test_read_begins :
    (after (step (scanning [0x00, 0x01] 0))).map (fun t => (t.trace, t.scan, t.phase)) =
      some ([.evBegin (.read 0x01), .evSet .dir false], some ⟨[0x00, 0x01], 2, []⟩, .idle) := by decide
/-- V-HS-1 events 2 and 3: `EvBegin(Write, 0x01, 0xAA)`, `EvSet(DIR,1)`; `pc` is 3. -/
theorem test_write_begins :
    (after (step (scanning [0x01, 0x01, 0xAA] 0))).map (fun t => (t.trace, t.scan, t.lines.dir.out)) =
      some ([.evBegin (.write 0x01 0xAA), .evSet .dir true], some ⟨[0x01, 0x01, 0xAA], 3, []⟩, true) := by decide
/-- V-DEC-11: the lone trailing byte is consumed with no event. -/
theorem test_trailT1_skips :
    (after (step (scanning [0x00, 0x01, 0xAA] 2))).map (fun t => (t.trace, t.scan, t.lines)) =
      some ([], some ⟨[0x00, 0x01, 0xAA], 3, []⟩, idle.lines) := by decide
/-- V-DEC-5: the truncated WRITE is consumed with no event, DIR and A7..A0 unchanged. -/
theorem test_trailT2_skips :
    (after (step (scanning [0x01, 0x10] 0))).map (fun t => (t.trace, t.scan, t.lines)) =
      some ([], some ⟨[0x01, 0x10], 2, []⟩, idle.lines) := by decide
/-- V-HS-1 event 4 for the address 0x80 of V-RT-3: A7 carries bit 7. -/
theorem test_write_address_msb :
    (after (step (scanning [0x01, 0x80, 0x01] 0))).bind (fun t => (after (step t)).map fun u => (u.trace, u.lines.addr[7])) =
      some ([.evBegin (.write 0x80 0x01), .evSet .dir true, .evSet (.addr 7) true], ⟨.output, true⟩) := by decide
/-- P5: once ACK is back at 0 the data lines may not be driven, though the cycle has not ended. -/
theorem test_p5_ends_with_ack :
    PeerContract.p5 { releasing with env := { idle.env with peer := PeerDrive.acking true 0xAA } } ∧
    ¬PeerContract.p5 { releasing with env := { idle.env with peer := PeerDrive.acking false 0xAA } } :=
  ⟨fun _ => ⟨rfl, .inr ⟨.inr rfl, rfl⟩⟩, fun h => by
    obtain ⟨-, h | ⟨-, h⟩⟩ := h ⟨0, nofun⟩ <;> cases h⟩
/-- P3 and P4: in a read with REQ and ACK at 1, a move that changes the data or lets ACK go is no conduct of the contract. -/
theorem test_p3_hold :
    PeerContract.p3 sampling (PeerDrive.acking true 0xAA) ∧ ¬PeerContract.p3 sampling (PeerDrive.acking true 0xAB) ∧
    ¬PeerContract.p3 sampling PeerDrive.unknown ∧ ¬PeerContract.p4 sampling PeerDrive.unknown :=
  ⟨fun _ => ⟨fun h => absurd rfl h, fun _ _ => ⟨rfl, rfl⟩⟩,
   (fun h => absurd ((h rfl).2 rfl rfl).2 (by decide)), (fun h => nomatch ((h rfl).2 rfl rfl).1),
   (fun h => nomatch (h rfl nofun).1)⟩
/-- P6: while a `submit` waits for ACK = 1, a rise that comes behind a call of the holder never comes, one that the next move
takes back is never sampled, and one that a turn of the core follows is sampled. -/
theorem test_p6_sampled :
    ¬PeerContract.p6 (withTurns [.call 1 .acquire, .peer (ackOnly true), .core] waiting) ∧
    ¬PeerContract.p6 (withTurns [.peer (ackOnly true), .peer (ackOnly false), .core] waiting) ∧
    PeerContract.p6 (withTurns [.core, .peer (ackOnly true), .core, .peer (ackOnly false)] waiting) :=
  ⟨(fun h => absurd (h _ true nofun rfl rfl) (by decide)), (fun h => absurd (h _ true nofun rfl rfl) (by decide)),
   (fun c b _ hc hb => by cases hc; cases hb; decide)⟩
/-- P6 with no move left: the level that ACK has then is the one of every further sample. -/
theorem test_p6_last_level :
    PeerContract.p6 (withTurns [.peer (ackOnly true)] waiting) ∧ ¬PeerContract.p6 waiting :=
  ⟨(fun c b _ hc hb => by cases hc; cases hb; decide), (fun h => absurd (h _ true nofun rfl rfl) (by decide))⟩
/-- P6 along a run: a peer that has let ACK go before the last wait of a READ. -/
theorem test_p6_along_run :
    AlongRun PeerContract.p6 { releasing with env := { idle.env with exitDraws := [.ok] } } := by
  have quiet : ∀ n s t, s.scan = none → s.env.turns = [] → runSteps n s = .next t → PeerContract.p6 t := by
    intro n s t hs ht h
    have hstep : step s = .next s := by simp [step, machineStep, nextTurn, ht, coreStep, hs]
    induction n with
    | zero => cases h; exact fun _ _ h => absurd hs h
    | succ n ih => rw [runSteps, hstep] at h; exact ih h
  intro n t h
  match n, h with
  | 0, h => cases h; exact fun c b _ hc hb => by cases hc; cases hb; decide
  | 1, h => cases h; exact fun c b _ hc => nomatch hc
  | n + 2, h => exact quiet n _ t rfl rfl h
/-- V-HS-2 event 22: the first sample is D7, which reads bit 7 of 0xAA. -/
theorem test_read_samples_d7 :
    (after (step sampling)).map (fun t => (t.trace, t.phase)) = some ([.evGet (.data 7) true], .peerAcknowledged) := by
  decide
/-- R28, R32: the last sample ends the cycle, and its count of wrong samples goes with it. -/
theorem test_polls_live_one_cycle :
    (after (step { releasing with polls := 2, env := idle.env })).map (fun t => (t.cycle, t.polls, t.phase)) =
      some (none, 0, .idle) := by decide
/-- V-TO-4: with a bound of 1 the first wrong sample raises Timeout; the phase stays, REQ stays 1, the core is wedged. -/
theorem test_timeout :
    (after (step (bounded 0 waiting))).map (fun t => (t.trace, t.phase, t.lines.req.out, t.wedged)) =
      some ([.evGet .ack false, .evReturn (.error .timeout)], .requestAsserted, true, true) := by decide

/-! ### Line-controller vectors (95_test_vectors.md section 6) -/

theorem test_lc1 : setDir .req .input idle = { idle with fault := some .lineMisuse } := by decide
theorem test_lc2 : (setDir (.addr 3) .input idle).fault = some .lineMisuse := by decide
theorem test_lc3 : (setLine .ack true idle).fault = some .lineMisuse := by decide
theorem test_lc4 : setLine (.data 0) true idle = { idle with fault := some .lineMisuse } := by decide
theorem test_lc5 :
    (getLine (.data 0) (setDir (.data 0) .output idle)).1 = none ∧
    (getLine (.data 0) (setDir (.data 0) .output idle)).2.trace = [.evDir (.data 0) .output] ∧
    (getLine (.data 0) (setDir (.data 0) .output idle)).2.fault = some .lineMisuse := ⟨rfl, rfl, rfl⟩
theorem test_lc6 : (getLine (.addr 3) idle).1 = none ∧ (getLine (.addr 3) idle).2.fault = some .lineMisuse := by decide
theorem test_lc7 : setDir (.data 3) .input idle = idle := by decide
theorem test_lc8 : setLine .req false idle = { idle with trace := [.evSet .req false] } := by decide
/-- R123 after V-LC-1: the faulted core drives nothing, turns nothing and samples nothing. -/
theorem test_lc_faulted :
    setLine .req true (setDir .req .input idle) = setDir .req .input idle ∧
    setDir (.data 0) .output (setDir .req .input idle) = setDir .req .input idle ∧
    getLine .ack (setDir .req .input idle) = (none, setDir .req .input idle) := by decide
/-- R143: after a shutdown the kept lines are those of no core, and no line operation acts on them (log 36). -/
theorem test_lc_shutdown :
    setLine .req true (shutDown idle) = shutDown idle ∧ setDir (.data 0) .output (shutDown idle) = shutDown idle ∧
    setDir .req .input (shutDown idle) = shutDown idle ∧ getLine .ack (shutDown idle) = (none, shutDown idle) := by decide
theorem test_lc10 :
    (setBus dataBus 0x20 (setDir (.data 5) .output idle)).trace = [.evDir (.data 5) .output] ∧
    (setBus dataBus 0x20 (setDir (.data 5) .output idle)).fault = some .lineMisuse := ⟨rfl, rfl⟩
/-- The example of R70. -/
theorem test_setBus_0x81 :
    (setBus addrBus 0x81 idle).trace =
      [.evSet (.addr 7) true, .evSet (.addr 6) false, .evSet (.addr 5) false, .evSet (.addr 4) false,
       .evSet (.addr 3) false, .evSet (.addr 2) false, .evSet (.addr 1) false, .evSet (.addr 0) true] := by decide
/-- The example of R71. -/
theorem test_getBus_0xAA : (getBus dataBus sampling).1 = some 0xAA := by decide

/-! ### Session and error vectors (95_test_vectors.md section 5) -/

/-- V-SES-1 and V-SES-2: Busy for a second caller and for the holder; free after `release`. -/
theorem test_ses1 :
    (hostCall 2 .acquire idle).replies = [.busy 2] ∧ (hostCall 1 .acquire idle).replies = [.busy 1] ∧
    (hostCall 2 .acquire (hostCall 1 (.release ⟨1⟩) idle)).replies = [.released 1, .handle ⟨2⟩] := by decide
/-- V-SES-4: a stale handle. -/
theorem test_ses4 :
    hostCall 1 (.submit ⟨2⟩ [0x00, 0x01]) idle = { idle with replies := [.refused (.caller 1) .noSession] } := by decide
/-- V-ERR-2: an over-length stream, whatever the entry draw. -/
theorem test_err2 :
    (hostCall 1 (.submit ⟨1⟩ [0x01, 0x10, 0x20])
      { idle with
        params := { ackPollLimit := none, maxStreamLen := some 2 }
        env := { idle.env with entryDraws := [.transferFault] } }).trace =
      [.evSubmit 3, .evReturn (.error .resourceExhausted)] := by decide

/-! ### Witnesses: the hypotheses of each obligation are met -/

theorem test_witness_StepKeepsInv : waiting.Inv ∧ ∃ t, step waiting = .next t := ⟨waiting_inv, _, rfl⟩
theorem test_witness_StepNeverStops : sampling.Inv := sampling_inv
theorem test_witness_DecodeEncode :
    (Instr.read 0x7F 0xFF).selectedWhen (encode (.read 0x7F 0xFF) ++ []).length = true ∧
    (Instr.write 0x7F 0xFF 0xFF).selectedWhen (encode (.write 0x7F 0xFF 0xFF) ++ [0x01]).length = true ∧
    (Instr.trailT1 0xFF).selectedWhen (encode (.trailT1 0xFF) ++ []).length = true ∧
    (Instr.trailT2 0x7F 0xFF).selectedWhen (encode (.trailT2 0x7F 0xFF) ++ []).length = true := by decide
theorem test_witness_DecodeProgram :
    isProgram [] = true ∧ isProgram [.write 5 1 2, .read 3 1] = true := by decide
theorem test_witness_EncodeDecode : (decodeStream [0x01, 0x10]).2 = some (.trailT2 0 0x10) := by decide
theorem test_witness_LengthFromOpcode :
    decodeNext [0x00, 0x05] = .ok (.read 0 0x05, []) ∧ (Instr.read 0 0x05).isTrailing = false ∧
    decodeNext [0xFF, 0x05, 0x06, 0x07] = .ok (.write 0x7F 0x05 0x06, [0x07]) ∧
    (Instr.write 0x7F 0x05 0x06).isTrailing = false := ⟨rfl, rfl, rfl, rfl⟩
theorem test_witness_OpcodeBitsIgnored :
    BitVec.getLsbD (0x01 : Byte) 0 = BitVec.getLsbD (0xFF : Byte) 0 ∧
    BitVec.getLsbD (0x00 : Byte) 0 = BitVec.getLsbD (0xFE : Byte) 0 ∧ ([0x05] : List Byte) ≠ [] := by decide
theorem test_witness_EncodeDecode_listing :
    isProgram [.write 5 1 2, .read 3 1] = true ∧ (Instr.trailT1 0).isTrailing = true ∧
    (Instr.trailT2 0 0).isTrailing = true := by decide
theorem test_witness_StepRunsDecoded :
    (∃ sc, (scanning [0x00, 0x05] 0).scan = some sc ∧ decodeNext (sc.buf.drop sc.pc) = .ok (.read 0 0x05, [])) ∧
    (scanning [0x00, 0x05] 0).up = true ∧ (scanning [0x00, 0x05] 0).fault = none ∧
    (scanning [0x00, 0x05] 0).cycle = none ∧ (scanning [0x00, 0x05] 0).env.turns = [] ∧
    (withTurns [.core, .shutdown] (scanning [0x00, 0x05] 0)).env.turns = .core :: [.shutdown] :=
  ⟨⟨_, rfl, rfl⟩, rfl, rfl, rfl, rfl, rfl⟩
theorem test_witness_StepRunsCycle :
    waiting.up = true ∧ (∃ sc, waiting.scan = some sc) ∧ waiting.fault = none ∧ (∃ c, waiting.cycle = some c) ∧
    waiting.env.turns = [] ∧ (withTurns [.core] waiting).env.turns = .core :: [] :=
  ⟨rfl, ⟨_, rfl⟩, rfl, ⟨_, rfl⟩, rfl, rfl⟩
/-- The end of a stream with each exit draw. -/
def ending (x : ExitDraw) : State :=
  { scanning [0x01, 0x10] 2 with env := { idle.env with exitDraws := [x] } }
theorem test_witness_ScanEnds :
    (∀ x, (ending x).up = true ∧ (ending x).fault = none ∧ (ending x).cycle = none ∧ (ending x).env.turns = [] ∧
      ∃ sc, (ending x).scan = some sc ∧ sc.pc = sc.buf.length) ∧
    (∃ s₀, drawExit (ending .ok) = (.ok, s₀)) ∧ ∃ s₀, drawExit (ending .transferFault) = (.transferFault, s₀) :=
  ⟨fun _ => ⟨rfl, rfl, rfl, rfl, _, rfl, rfl⟩, ⟨_, rfl⟩, ⟨_, rfl⟩⟩
theorem ending_inv (x : ExitDraw) : (ending x).Inv where
  fixed := fixed_linesOf _ _ _ _ _
  noFault := rfl
  idle := fun _ => rfl
  polls := fun _ => rfl
  req := rfl
  cycle := fun _ h => nomatch h
  submit := fun _ => ⟨rfl, nofun⟩
  running := fun h => absurd rfl h
  cursor := fun _ h' => by cases h'; decide
  alive := fun _ => rfl
theorem test_witness_OkConsumesAll :
    (ending .ok).Inv ∧ (ending .ok).up = true ∧ ∃ t, step (ending .ok) = .next t ∧
      Event.evReturn (.ok [] 2) ∈ t.trace.drop (ending .ok).trace.length :=
  ⟨ending_inv _, rfl, _, rfl, by decide⟩
theorem bounded_inv {s : State} (n : Nat) (h : s.Inv) : (bounded n s).Inv :=
  ⟨h.fixed, h.noFault, h.idle, h.polls, h.req, fun c hc => ⟨(h.cycle c hc).1, (h.cycle c hc).2, (h.cycle c hc).3,
    (h.cycle c hc).4, (h.cycle c hc).5⟩, h.submit, h.running, h.cursor, h.alive⟩
/-- Each kind of error, and a timeout at each of the two waits. -/
theorem test_witness_AbortLeaves :
    ((ending .transferFault).Inv ∧ (ending .transferFault).up = true ∧ ∃ t, step (ending .transferFault) = .next t ∧
      Event.evReturn (.error .transferFault) ∈ t.trace.drop (ending .transferFault).trace.length) ∧
    ((bounded 0 waiting).Inv ∧ (bounded 0 waiting).up = true ∧ ∃ t, step (bounded 0 waiting) = .next t ∧
      Event.evReturn (.error .timeout) ∈ t.trace.drop (bounded 0 waiting).trace.length) ∧
    ((bounded 0 releasing).Inv ∧ (bounded 0 releasing).up = true ∧ ∃ t, step (bounded 0 releasing) = .next t ∧
      Event.evReturn (.error .timeout) ∈ t.trace.drop (bounded 0 releasing).trace.length) :=
  ⟨⟨ending_inv _, rfl, _, rfl, by decide⟩, ⟨bounded_inv _ waiting_inv, rfl, _, rfl, by decide⟩,
   ⟨bounded_inv _ releasing_inv, rfl, _, rfl, by decide⟩⟩
theorem test_witness_ReadBegins :
    (scanning [0x00, 0x05] 0).Ready ∧ (∃ sc, (scanning [0x00, 0x05] 0).scan = some sc) ∧
    ∃ s₀, drawResource (scanning [0x00, 0x05] 0) = (.ok, s₀) := ⟨ready _ _, ⟨_, rfl⟩, _, rfl⟩
theorem test_witness_WriteBegins :
    (scanning [0x01, 0x10, 0x20] 0).Ready ∧ (∃ sc, (scanning [0x01, 0x10, 0x20] 0).scan = some sc) ∧
    ∃ s₀, drawResource (scanning [0x01, 0x10, 0x20] 0) = (.ok, s₀) := ⟨ready _ _, ⟨_, rfl⟩, _, rfl⟩
/-- k = 8 lines turn Out, one wrong sample at the first wait, none at the second. -/
theorem test_witness_WriteCompletes :
    let s := withTurns (cycleTurns 25 1 2 0 (ackOnly true) (ackOnly false)) (scanning [0x01, 0x10, 0x20] 0)
    s.Ready ∧ (∃ sc, s.scan = some sc) ∧ (∃ s₀, drawResource s = (.ok, s₀)) ∧ s.env.peer.ack = some false ∧
    (ackOnly true).ack = some true ∧ (ackOnly false).ack = some false ∧ waitsWithin s.params 1 ∧ waitsWithin s.params 0 ∧
    s.env.turns = cycleTurns (17 + (turningLines s.lines .output).length) 1 2 0 (ackOnly true) (ackOnly false) ++ [] :=
  ⟨⟨rfl, rfl, rfl, rfl, rfl, fixed_linesOf _ _ _ _ _⟩, ⟨_, rfl⟩, ⟨_, rfl⟩, rfl, rfl, rfl, nofun, nofun, by decide⟩
/-- k = 0; with a bound of 2 one wrong sample is still inside it. -/
theorem test_witness_ReadCompletes :
    let s := bounded 1 (withTurns (cycleTurns 9 1 10 1 (PeerDrive.acking true 0xAA) (ackOnly false))
      (scanning [0x00, 0x05] 0))
    s.Ready ∧ (∃ sc, s.scan = some sc) ∧ (∃ s₀, drawResource s = (.ok, s₀)) ∧ s.env.peer.ack = some false ∧
    (ackOnly false).ack = some false ∧ waitsWithin s.params 1 ∧
    s.env.turns = cycleTurns (9 + (turningLines s.lines .input).length) 1 10 1 (PeerDrive.acking true 0xAA)
      (ackOnly false) ++ [] :=
  ⟨⟨rfl, rfl, rfl, rfl, rfl, fixed_linesOf _ _ _ _ _⟩, ⟨_, rfl⟩, ⟨_, rfl⟩, rfl, rfl,
   (fun lim h => by cases h; decide), by decide⟩
/-- The hypotheses are those of `WriteCompletes` and `ReadCompletes`; here with k = 8 and k = 0, and wrong samples at each wait. -/
theorem test_witness_CycleTraceLength :
    (let s := withTurns (cycleTurns 25 1 2 3 (ackOnly true) (ackOnly false)) (scanning [0x01, 0x10, 0x20] 0)
     s.Ready ∧ (∃ sc, s.scan = some sc) ∧ (∃ s₀, drawResource s = (.ok, s₀)) ∧ s.env.peer.ack = some false ∧
     (ackOnly true).ack = some true ∧ (ackOnly false).ack = some false ∧ waitsWithin s.params 1 ∧ waitsWithin s.params 3 ∧ s.env.turns =
       cycleTurns (17 + (turningLines s.lines .output).length) 1 2 3 (ackOnly true) (ackOnly false) ++ []) ∧
    (let s := withTurns (cycleTurns 9 2 10 1 (PeerDrive.acking true 0x55) (ackOnly false)) (scanning [0x00, 0x05] 0)
     s.Ready ∧ (∃ sc, s.scan = some sc) ∧ (∃ s₀, drawResource s = (.ok, s₀)) ∧ s.env.peer.ack = some false ∧
     (ackOnly false).ack = some false ∧ waitsWithin s.params 2 ∧ waitsWithin s.params 1 ∧ s.env.turns =
       cycleTurns (9 + (turningLines s.lines .input).length) 2 10 1 (PeerDrive.acking true 0x55) (ackOnly false) ++ []) :=
  ⟨⟨⟨rfl, rfl, rfl, rfl, rfl, fixed_linesOf _ _ _ _ _⟩, ⟨_, rfl⟩, ⟨_, rfl⟩, rfl, rfl, rfl, nofun, nofun, by decide⟩,
   ⟨rfl, rfl, rfl, rfl, rfl, fixed_linesOf _ _ _ _ _⟩, ⟨_, rfl⟩, ⟨_, rfl⟩, rfl, rfl, nofun, nofun, by decide⟩
/-- `check_resources()` fails. -/
def exhausted : State := { scanning [0x00, 0x05] 0 with env := { idle.env with resourceDraws := [.resourceExhausted] } }
theorem test_witness_ResourceExhaustedAborts :
    exhausted.Ready ∧ (∃ sc, exhausted.scan = some sc) ∧ ∃ s₀, drawResource exhausted = (.resourceExhausted, s₀) :=
  ⟨⟨rfl, rfl, rfl, rfl, rfl, fixed_linesOf _ _ _ _ _⟩, ⟨_, rfl⟩, _, rfl⟩
theorem test_witness_NoCycleUnlessReady :
    waiting.phase ≠ .idle ∧ ({ idle with fault := some .lineMisuse } : State).fault ≠ none ∧
    ({ idle with wedged := true } : State).wedged = true := by decide
theorem test_witness_TransferFrame :
    (∃ t, exec (.read 0 0x05) (scanning [0x00, 0x05] 0) = .next t ∧ ∃ sc sc', (scanning [0x00, 0x05] 0).scan = some sc ∧
      t.scan = some sc') ∧
    (∃ t, exec (.write 0 0x10 0x20) (scanning [0x01, 0x10, 0x20] 0) = .next t) ∧
    ∃ t, exec (.read 0 0x05) exhausted = .next t := ⟨⟨_, rfl, _, _, rfl, rfl⟩, ⟨_, rfl⟩, ⟨_, rfl⟩⟩
theorem test_witness_TrailT1Skips :
    let s : State := { scanning [0xAA] 0 with env := { idle.env with exitDraws := [.ok] } }
    s.up = true ∧ s.fault = none ∧ s.cycle = none ∧ s.env.turns = [] ∧ s.env.exitDraws = .ok :: [] ∧
    ∃ sc, s.scan = some sc ∧ sc.buf = [0xAA] ∧ sc.pc = 0 ∧ sc.results = [] :=
  ⟨rfl, rfl, rfl, rfl, rfl, _, rfl, rfl, rfl, rfl⟩
theorem test_witness_TrailT2Skips :
    ∃ sc, (scanning [0x01, 0x10] 0).scan = some sc ∧
      decodeNext (sc.buf.drop sc.pc) = .ok (.trailT2 0 0x10, []) := ⟨_, rfl, rfl⟩
theorem test_witness_NothingOutsideSubmit : idle.scan = none := rfl
/-- Data lines Out, for the clauses about a switch to In. -/
def driving : State := { idle with lines := linesOf true 0x10 false .output 0x20 }
theorem test_witness_SetDirData :
    idle.up = true ∧ driving.up = true ∧ idle.fault = none ∧ driving.fault = none ∧ idle.lines.data[7].dir = .input ∧
    driving.lines.data[0].dir = .output ∧     (∀ m, Line.req ≠ .data m) := ⟨rfl, rfl, rfl, rfl, rfl, rfl, nofun⟩
theorem test_witness_SetDirMisuse :
    idle.up = true ∧ (∀ n, Line.ack ≠ .data n) ∧ (∀ n, Line.addr 7 ≠ .data n) ∧
    ∃ t, coreStep (setDir .ack .output idle) = .next t := ⟨rfl, nofun, nofun, _, rfl⟩
theorem test_witness_SetLineDrives :
    idle.up = true ∧ idle.fault = none ∧ (idle.lines.get .req).dir = .output ∧ (idle.lines.get (.addr 0)).dir = .output ∧
    Line.addr 0 ≠ .req ∧ (idle.lines.get .ack).dir = .input ∧ (idle.lines.get (.data 7)).dir = .input := by decide
theorem test_witness_GetLineSamples :
    idle.up = true ∧ driving.up = true ∧ idle.fault = none ∧ driving.fault = none ∧
    (Line.data 0 = .ack ∨ ∃ n, Line.data 0 = .data n ∧ idle.lines.data[n].dir = .input) ∧
    ¬(Line.data 0 = .ack ∨ ∃ n, Line.data 0 = .data n ∧ driving.lines.data[n].dir = .input) ∧
    ¬(Line.dir = .ack ∨ ∃ n, Line.dir = .data n ∧ idle.lines.data[n].dir = .input) := by decide
theorem test_witness_SampleReadsPeer :
    idle.up = true ∧ idle.fault = none ∧ idle.env.peer.level .ack = some false ∧ idle.env.peer.level (.data 7) = none ∧
    idle.lines.data[7].dir = .input := by
  decide
/-- Every line Out but A7 and D7, or but A0 and D0: a `SetBus` stops at its first or at its last line. -/
def oneIn (m : Fin 8) : State :=
  { driving with lines := { driving.lines with
      addr := driving.lines.addr.set m ⟨.input, false⟩, data := driving.lines.data.set m ⟨.input, false⟩ } }
theorem test_witness_SetBusMsbFirst :
    idle.up = true ∧ idle.fault = none ∧ (∀ n : Fin 8, idle.lines.addr[n].dir = .output) ∧ driving.lines.dataAll .output ∧
    (∀ m : Fin 8, (oneIn m).up = true ∧ (oneIn m).fault = none ∧ (oneIn m).lines.addr[m].dir = .input ∧
      (oneIn m).lines.data[m].dir = .input ∧ ∀ n : Fin 8, m < n → (oneIn m).lines.addr[n].dir = .output ∧ (oneIn m).lines.data[n].dir = .output) := by
  refine ⟨rfl, rfl, (fixed_linesOf _ _ _ _ _).addr, dataAll_linesOf _ _ _ _ _, ?_⟩
  decide
theorem test_witness_GetBusMsbFirst :
    sampling.up = true ∧ sampling.fault = none ∧ sampling.lines.dataAll .input ∧
    (∀ m : Fin 8, ({ idle with lines := idle.lines.set (.data m) ⟨.output, false⟩ } : State).up = true ∧
      ({ idle with lines := idle.lines.set (.data m) ⟨.output, false⟩ } : State).fault = none ∧
      ({ idle with lines := idle.lines.set (.data m) ⟨.output, false⟩ } : State).lines.data[m].dir = .output ∧
      ∀ n : Fin 8, m < n →
        ({ idle with lines := idle.lines.set (.data m) ⟨.output, false⟩ } : State).lines.data[n].dir = .input) :=
  ⟨rfl, rfl, dataAll_linesOf _ _ _ _ _, by decide⟩
theorem test_witness_WaitEndsOnLevel :
    let s := bounded 2 (withTurns [.core, .core, .peer (ackOnly true), .core] waiting)
    s.up = true ∧ (∃ sc, s.scan = some sc) ∧ s.fault = none ∧ (∃ c, s.cycle = some c ∧ c.now.op = .waitAck true) ∧
    s.polls = 0 ∧ s.env.peer.ack = some (!true) ∧ (ackOnly true).ack = some true ∧ waitsWithin s.params 2 ∧
    s.env.turns = List.replicate 2 .core ++ .peer (ackOnly true) :: .core :: [] :=
  ⟨rfl, ⟨_, rfl⟩, rfl, ⟨_, rfl, rfl⟩, rfl, rfl, rfl, (fun lim h => by cases h; decide), rfl⟩
theorem test_witness_PollBound :
    let s := bounded 0 waiting
    s.up = true ∧ (∃ sc, s.scan = some sc) ∧ s.fault = none ∧ (∃ c, s.cycle = some c ∧ c.now.op = .waitAck true) ∧
    s.polls = 0 ∧ s.env.peer.ack = some (!true) ∧ s.env.turns = [] ∧
    ∃ lim, s.params.ackPollLimit = some lim ∧ 0 < lim.n :=
  ⟨rfl, ⟨_, rfl⟩, rfl, ⟨_, rfl, rfl⟩, rfl, rfl, rfl, _, rfl, by decide⟩
theorem test_witness_DeadPeerHangs :
    let s := withTurns [.call 2 .acquire, .peer (ackOnly false), .core] waiting
    s.up = true ∧ (∃ sc, s.scan = some sc) ∧ s.holder = some 1 ∧ s.fault = none ∧
    (∃ c, s.cycle = some c ∧ c.now.op = .waitAck true) ∧ s.params.ackPollLimit = none ∧
    s.env.peer.ack = some (!true) ∧ (∀ d, Turn.peer d ∈ s.env.turns → d.ack = some (!true)) := by
  refine ⟨rfl, ⟨_, rfl⟩, rfl, rfl, ⟨_, rfl, rfl⟩, rfl, rfl, ?_⟩
  intro d h
  simp only [withTurns, List.mem_cons, List.not_mem_nil, or_false, Turn.peer.injEq, reduceCtorEq, false_or] at h
  subst h
  rfl
theorem test_witness_OneLineOperationPerStep :
    sampling.Inv ∧ sampling.up = true ∧ sampling.scan ≠ none ∧ sampling.cycle ≠ none ∧ sampling.mover = .core ∧
    ∃ t, step sampling = .next t := ⟨sampling_inv, rfl, nofun, nofun, rfl, _, rfl⟩
theorem test_witness_PhaseMachine : waiting.Inv ∧ waiting.up = true ∧ ∃ t, step waiting = .next t :=
  ⟨waiting_inv, rfl, _, rfl⟩
theorem test_witness_CyclesNeverOverlap :
    let s := scanning [0x00, 0x05] 0
    s.Inv ∧ s.up = true ∧ ∃ t, step s = .next t ∧ Event.evBegin (.read 0x05) ∈ t.trace.drop s.trace.length :=
  ⟨scanning_inv _ _ (by decide), rfl, _, rfl, by decide⟩
theorem test_witness_AssertedBeforeRequest : sampling.Inv ∧ (∃ c, sampling.cycle = some c) ∧ sampling.phase ≠ .idle :=
  ⟨sampling_inv, ⟨_, rfl⟩, nofun⟩
theorem test_witness_LinesStableWhileRequested :
    releasing.Inv ∧ releasing.up = true ∧ releasing.phase ≠ .idle ∧ ∃ t, step releasing = .next t :=
  ⟨releasing_inv, rfl, nofun, _, rfl⟩
theorem test_witness_SamplesOnlyWhenAcknowledged :
    sampling.Inv ∧ sampling.up = true ∧ ∃ t, step sampling = .next t ∧
      t.trace = sampling.trace ++ [.evGet (.data 7) true] := ⟨sampling_inv, rfl, _, rfl, by decide⟩
theorem test_witness_FixedDirectionsNeverChange :
    waiting.up = true ∧ (∃ t, step waiting = .next t) ∧ ∀ n, Line.dir ≠ .data n := ⟨rfl, ⟨_, rfl⟩, nofun⟩
theorem test_witness_TraceAppendOnly : sampling.up = true ∧ ∃ t, step sampling = .next t := ⟨rfl, _, rfl⟩
theorem test_witness_StreamNeverChanges :
    let s := scanning [0x01, 0x10] 0
    ∃ t sc sc', step s = .next t ∧ s.scan = some sc ∧ t.scan = some sc' ∧ sc.pc ≤ sc.buf.length :=
  ⟨_, _, _, rfl, rfl, rfl, by decide⟩
theorem test_witness_OnlyCoreTouchesLines :
    let s := withTurns [.peer (ackOnly true)] waiting
    s.up = true ∧ s.mover ≠ .core ∧ (∃ t, step s = .next t) ∧ ∃ sc, s.scan = some sc :=
  ⟨rfl, by decide, ⟨_, rfl⟩, _, rfl⟩
theorem test_witness_NoContention : sampling.Inv ∧ PeerContract.p5 sampling :=
  ⟨sampling_inv, fun _ => ⟨rfl, .inr ⟨.inl rfl, rfl⟩⟩⟩
theorem test_witness_AcquireTestAndSet :
    idle.up = true ∧ idle.holder = some 1 ∧ ({ idle with holder := none } : State).holder = none := by decide
theorem test_witness_ReleaseFrees :
    idle.up = true ∧ idle.holder = some 1 ∧ (∀ c, idle.holder = some c → (⟨2⟩ : SessionHandle) ≠ ⟨c⟩) :=
  ⟨rfl, rfl, (fun _ h => by cases h; nofun)⟩
theorem test_witness_CallsRefused :
    idle.up = true ∧ idle.holder ≠ some 2 ∧ (⟨2⟩ : SessionHandle) ≠ ⟨1⟩ ∧
    ({ idle with wedged := true } : State).wedged = true ∧
    ({ idle with fault := some .lineMisuse } : State).fault ≠ none := by decide
/-- A `submit` with each entry draw, without and with a bound on the stream. -/
def entering (m : Option Nat) (e : EntryDraw) : State :=
  { idle with params := { ackPollLimit := none, maxStreamLen := m }, env := { idle.env with entryDraws := [e] } }
theorem test_witness_SubmitEntry :
    (∀ m e, (entering m e).up = true ∧ (entering m e).holder = some 1 ∧ (entering m e).wedged = false ∧
      (entering m e).fault = none ∧
      ∃ s₀, drawEntry { entering m e with trace := (entering m e).trace ++ [.evSubmit 2] } = (e, s₀)) ∧
    overLength [0x00, 0x05] (entering none .ok) = false ∧ overLength [0x00, 0x05] (entering (some 2) .ok) = false ∧
    overLength [0x00, 0x05] (entering (some 1) .transferFault) = true :=
  ⟨fun _ _ => ⟨rfl, rfl, rfl, rfl, _, rfl⟩, rfl, rfl, rfl⟩
theorem test_witness_EmptyStream :
    let s : State := { idle with env := { idle.env with
      turns := [.call 1 (.submit ⟨1⟩ [])], entryDraws := [.ok], exitDraws := [.ok] } }
    s.up = true ∧ s.holder = some 1 ∧ s.wedged = false ∧ s.fault = none ∧ s.cycle = none ∧ s.scan = none ∧
    s.env.turns = [.call 1 (.submit ⟨1⟩ [])] ∧ s.env.entryDraws = .ok :: [] ∧ s.env.exitDraws = .ok :: [] :=
  ⟨rfl, rfl, rfl, rfl, rfl, rfl, rfl, rfl, rfl⟩
theorem test_witness_SubmitIsSynchronous :
    ∀ op ∈ [HostOp.submit ⟨1⟩ [0x00], .release ⟨1⟩, .acquire],
      let s := withTurns [.call 1 op] waiting
      (∃ sc, s.scan = some sc) ∧ s.holder = some 1 ∧ s.env.turns = .call 1 op :: [] :=
  fun _ _ => ⟨⟨_, rfl⟩, rfl, rfl⟩
theorem test_witness_BusyDuringSubmit :
    let s := withTurns [.call 2 .acquire] waiting
    s.up = true ∧ (∃ sc, s.scan = some sc) ∧ s.holder = some 1 ∧ (2 : CallerId) ≠ 1 ∧
    s.env.turns = .call 2 .acquire :: [] := ⟨rfl, ⟨_, rfl⟩, rfl, by decide, rfl⟩
theorem test_witness_FaultedCoreStops :
    ({ waiting with fault := some .lineMisuse } : State).up = true ∧
    ({ waiting with fault := some .lineMisuse } : State).scan ≠ none ∧
    ({ idle with fault := some .lineMisuse } : State).up = true ∧
    ({ idle with fault := some .lineMisuse } : State).scan = none := by decide
theorem test_witness_ShutdownEnds : idle.up = true ∧ idle.scan = none ∧ waiting.up = true ∧ waiting.scan ≠ none := by
  decide
/-- A wedged and faulted core after its shutdown, the start-up next. -/
def down : State :=
  withTurns [.startUp Config.defaultParams] { idle with up := false, wedged := true, fault := some .lineMisuse }
theorem test_witness_StartUpResets :
    down.up = false ∧ down.env.turns = .startUp Config.defaultParams :: [] ∧
    ∃ t, step down = .next t ∧ (down.fault ≠ none ∧ t.fault = none ∨ down.wedged = true ∧ t.wedged = false) :=
  ⟨rfl, rfl, _, rfl, .inl ⟨nofun, rfl⟩⟩
/-- V-RT-2 as one stream: address 0xFF, value 0xFF. -/
theorem test_witness_EchoRoundTrip :
    let s : State := { scanning [0x01, 0xFF, 0xFF, 0x00, 0xFF] 0 with
      env := { idle.env with resourceDraws := [.ok, .ok] } }
    s.Inv ∧ s.Ready ∧ (∃ sc, s.scan = some sc ∧ sc.buf.drop sc.pc = 0x01 :: 0xFF :: 0xFF :: 0x00 :: 0xFF :: []) ∧
    BitVec.getLsbD (0x01 : Byte) 0 = true ∧ BitVec.getLsbD (0x00 : Byte) 0 = false ∧ Memory.wf [] = true ∧
    s.env.turns = [] ∧ s.env.resourceDraws = .ok :: .ok :: [] :=
  ⟨env_inv _ (scanning_inv _ _ (by decide)), ⟨rfl, rfl, rfl, rfl, rfl, fixed_linesOf _ _ _ _ _⟩, ⟨_, rfl, rfl⟩, rfl, rfl, rfl, rfl, rfl⟩

end Sys2Proof.Tests
end

section
/-! SUPPORT. The lines with a fixed direction (rule R15): what each operation of the model does to their directions, and O45. -/
namespace Sys2Proof.Machine

/-- Same directions on REQ, ACK, DIR and A7..A0, the lines of rule R15. -/
def Lines.SameFixed (ls ls' : Lines) : Prop := ∀ l, (∀ n, l ≠ .data n) → (ls'.get l).dir = (ls.get l).dir

theorem Lines.SameFixed.refl (ls : Lines) : ls.SameFixed ls := fun _ _ => rfl

theorem Lines.SameFixed.of_eq {ls ls' : Lines} (h : ls' = ls) : ls.SameFixed ls' := fun _ _ => by rw [h]

theorem Lines.SameDirs.sameFixed {ls ls' : Lines} (h : ls.SameDirs ls') : ls.SameFixed ls' := fun l _ => (h l).symm

/-- Replacing a data line leaves the other lines alone. -/
theorem Lines.SameFixed.set_data (ls : Lines) (n : Fin 8) (x : LineState) : ls.SameFixed (ls.set (.data n) x) :=
  fun _ hl => by rw [Lines.get_set_ne ls x (hl n)]

/-- A start-up leaves the directions of rule R15. -/
theorem Lines.fixedDirections_startUp (n : Nat) : (Lines.startUp n).FixedDirections :=
  ⟨rfl, rfl, rfl, fun k => congrArg LineState.dir (busLines_get .output (Config.initAddrLevels n) k)⟩

/-! ### Draws and samples leave the lines as they are -/

@[simp] theorem drawLevel_lines (l : Line) (s : State) : (drawLevel l s).2.lines = s.lines := by
  obtain ⟨n, h⟩ := drawLevel_frame l s
  rw [h]

@[simp] theorem drawResource_lines (s : State) : (drawResource s).2.lines = s.lines := by
  obtain ⟨rs, n, h⟩ := drawResource_frame s
  rw [h]

@[simp] theorem drawEntry_lines (s : State) : (drawEntry s).2.lines = s.lines := by
  obtain ⟨es, n, h⟩ := drawEntry_frame s
  rw [h]

@[simp] theorem drawExit_lines (s : State) : (drawExit s).2.lines = s.lines := by
  obtain ⟨xs, n, h⟩ := drawExit_frame s
  rw [h]

/-- `GetLine` changes no line, sampled or misused (rules R68, R69). -/
theorem getLine_lines {l : Line} {s s₁ : State} {r : Option Level} (h : getLine l s = (r, s₁)) : s₁.lines = s.lines := by
  unfold getLine at h
  split at h
  · cases h; rfl
  · split at h
    · cases h; exact drawLevel_lines l s
    · cases h; rfl

/-! ### The Line Controller -/

/-- `SetDir` turns a data line at most: any other is misuse (rules R64, R65). -/
theorem setDir_sameFixed (l : Line) (d : Direction) {s : State} (hu : s.up = true) :
    s.lines.SameFixed (setDir l d s).lines := by
  by_cases hl : ∀ n, l ≠ .data n
  · rw [setDir_fixed hl d hu]
    exact .refl _
  · obtain ⟨n, rfl⟩ := not_forall_not.1 hl
    by_cases ho : s.operating = true
    · by_cases hd : s.lines.data[n].dir = d
      · rw [setDir_redundant hd]
        exact .refl _
      · obtain ⟨b, k, h, -⟩ := setDir_data ho hd
        rw [h]
        exact .set_data s.lines n _
    · rw [setDir_idle (by simpa using ho)]
      exact .refl _

/-- `SetLine` changes a latch at most (rules R66, R67). -/
theorem setLine_sameDirs (l : Line) (b : Level) (s : State) : s.lines.SameDirs (setLine l b s).lines := by
  unfold setLine
  split
  · exact .refl _
  · split
    · exact .set s.lines l _ rfl
    · exact .refl _

/-! ### The engine -/

@[simp] theorem advance_lines (c : Cycle) (s : State) : (advance c s).lines = s.lines := by
  unfold advance
  split
  · rfl
  · split <;> rfl

@[simp] theorem pollAgain_lines (s : State) : (pollAgain s).lines = s.lines := by
  obtain h | ⟨h, -⟩ := pollAgain_cases s <;> rw [h]
  rfl

/-- One line operation of a cycle, legal or not, keeps the fixed directions. -/
theorem engineStep_sameFixed (c : Cycle) {s : State} (hu : s.up = true) :
    s.lines.SameFixed (engineStep c s).lines := by
  unfold engineStep
  cases c.now.op with
  | setDir l d =>
    simp only [advance_lines]
    exact setDir_sameFixed l d hu
  | setLine l b =>
    simp only [advance_lines]
    exact (setLine_sameDirs l b s).sameFixed
  | getLine l =>
    apply Lines.SameFixed.of_eq
    dsimp only
    split <;> rename_i hg
    · rw [advance_lines, getLine_lines hg]
    · exact getLine_lines hg
  | waitAck b =>
    apply Lines.SameFixed.of_eq
    dsimp only
    split <;> rename_i hg
    · split
      · rw [advance_lines, getLine_lines hg]
      · rw [pollAgain_lines, getLine_lines hg]
    · exact getLine_lines hg

/-- Step 1 of a cycle drives DIR, if anything (rules R81, R82). -/
theorem beginCycle_sameDirs (tx : BusTransaction) (s : State) : s.lines.SameDirs (beginCycle tx s).lines := by
  obtain ⟨b, f, p, c, tr, h⟩ := beginCycle_frame tx s
  rw [h]
  exact .set s.lines .dir ⟨s.lines.dir.dir, b⟩ rfl

/-! ### The core -/

theorem transfer_sameDirs {len : Nat} {tx : BusTransaction} {s t : State} (h : transfer len tx s = .next t) :
    s.lines.SameDirs t.lines := by
  obtain ⟨sc, -, -, -, -, -, ⟨-, rfl⟩ | ⟨-, rfl⟩⟩ := transfer_next h
  · rw [raise_lines, drawResource_lines]
    exact .refl _
  · have hb := beginCycle_sameDirs tx { (drawResource s).2 with scan := some { sc with pc := sc.pc + len } }
    rwa [drawResource_lines] at hb

theorem skipTo_lines {f : Scan → Nat} {s t : State} (h : skipTo f s = .next t) : t.lines = s.lines := by
  obtain ⟨sc, -, rfl⟩ := skipTo_next h
  rfl

/-- No row turns a line in the step that starts it. -/
theorem exec_sameDirs {i : Instr} {s t : State} (h : exec i s = .next t) : s.lines.SameDirs t.lines := by
  cases i with
  | read x a => exact transfer_sameDirs h
  | write x a d => exact transfer_sameDirs h
  | trailT1 b => rw [skipTo_lines h]; exact .refl _
  | trailT2 x a => rw [skipTo_lines h]; exact .refl _

theorem finishSubmit_lines (sc : Scan) (s : State) : (finishSubmit sc s).lines = s.lines := by
  have hd := drawExit_lines s
  unfold finishSubmit
  split <;> rename_i h <;> rw [h] at hd
  · rw [raise_lines, hd]
  · rw [endSubmit_lines, hd]

theorem coreStep_sameFixed {s t : State} (h : coreStep s = .next t) : s.lines.SameFixed t.lines := by
  obtain ⟨rfl, -⟩ | ⟨sc, hu, -, -, hc | hi | hend⟩ := coreStep_next h
  · exact .refl _
  · obtain ⟨c, -, rfl⟩ := hc
    exact engineStep_sameFixed c hu
  · obtain ⟨-, i, rest, -, hx⟩ := hi
    exact (exec_sameDirs hx).sameFixed
  · obtain ⟨-, -, rfl⟩ := hend
    exact .of_eq (finishSubmit_lines sc s)

/-! ### The other agents change no line (rules R115, R116) -/

theorem enterSubmit_lines (stream : List Byte) (s : State) : (enterSubmit stream s).lines = s.lines := by
  have hd : (drawEntry (State.emit (.evSubmit stream.length) s)).2.lines = s.lines := drawEntry_lines _
  simp only [enterSubmit]
  generalize (if overLength stream s then EntryDraw.resourceExhausted else _) = e
  cases e with
  | ok | resourceExhausted | transferFault => exact hd

theorem submit_lines (c : CallerId) (h : SessionHandle) (stream : List Byte) (s : State) :
    (submit c h stream s).lines = s.lines := by
  unfold submit
  repeat' split
  · exact refuseCall_lines _ _ _
  · exact refuseCall_lines _ _ _
  · exact enterSubmit_lines stream s
  · exact refuseCall_lines _ _ _

theorem hostCall_lines (c : CallerId) (op : HostOp) (s : State) : (hostCall c op s).lines = s.lines := by
  unfold hostCall
  split
  · cases op with
    | acquire => simp only [acquire]; split <;> rfl
    | release h => simp only [release]; split <;> rfl
    | submit h stream => exact submit_lines c h stream s
  · rfl

theorem shutDown_lines (s : State) : (shutDown s).lines = s.lines := by
  unfold shutDown
  repeat' split
  all_goals rfl

/-- A start-up of a running driver is refused (rule R144; log 14). -/
theorem startUp_running (p : Params) {s : State} (hu : s.up = true) :
    startUp p s = refuseCall .platform .alreadyRunning s := if_pos hu

/-! ### The machine -/

/-- No step of a running driver changes a direction of rule R15, whoever moves. -/
theorem step_sameFixed {s t : State} (hu : s.up = true) (h : step s = .next t) : s.lines.SameFixed t.lines := by
  obtain ⟨-, h⟩ | ⟨-, h⟩ | ⟨d, -, rfl⟩ | ⟨c, op, -, -, rfl⟩ | ⟨p, -, rfl⟩ | ⟨-, rfl⟩ := step_next h
  · exact coreStep_sameFixed h
  · exact coreStep_sameFixed (s := s.popTurn) h
  · exact .refl _
  · exact .of_eq (hostCall_lines c op s.popTurn)
  · rw [startUp_running p (s := s.popTurn) hu]
    exact .refl _
  · exact .of_eq (shutDown_lines s.popTurn)

/-- Settles O45: only a data line ever turns; a `SetDir` of any other line is misuse. -/
theorem fixedDirectionsNeverChange : Obligations.FixedDirectionsNeverChange := by
  refine ⟨fun _ e => Lines.fixedDirections_startUp e.drawn, fun s t hu h => ?_, fun s l d hu hl => ?_⟩
  · have hs := step_sameFixed hu h
    exact ⟨hs .req nofun, hs .dir nofun, hs .ack nofun, fun n => hs (.addr n) nofun⟩
  · rw [setDir_fixed hl d hu, misuse_fault]

end Sys2Proof.Machine
end

section
/-! SUPPORT. What the decoder reads at the head of a stream, the decoder after the encoder, and O7 (rules R51, R52, R61). -/
namespace Sys2Proof

/-! ### The two parts of an opcode byte (rule R53) -/

/-- The selector is the byte's last bit, appended as `BitVec.concat` appends it. -/
theorem opcodeByte_eq_concat (x : BitVec 7) (op : Bool) : opcodeByte x op = x.concat op := rfl

@[simp] theorem opcodeSelects_opcodeByte (x : BitVec 7) (op : Bool) : opcodeSelects (opcodeByte x op) = op := by
  rw [opcodeSelects, opcodeByte_eq_concat, BitVec.getLsbD_concat_zero]

@[simp] theorem opcodeIgnored_opcodeByte (x : BitVec 7) (op : Bool) : opcodeIgnored (opcodeByte x op) = x := by
  ext k hk
  rw [opcodeIgnored, opcodeByte_eq_concat, BitVec.getElem_extractLsb', Nat.add_comm, BitVec.getLsbD_concat_succ,
    BitVec.getLsbD_eq_getElem hk]

/-! ### The row at the head of the bytes that remain (rules R54, R56) -/

theorem decodeNext_read {o : Byte} (h : opcodeSelects o = false) (a : Byte) (rest : List Byte) :
    decodeNext (o :: a :: rest) = .ok (.read (opcodeIgnored o) a, rest) := by
  simp [decodeNext, h]

theorem decodeNext_write {o : Byte} (h : opcodeSelects o = true) (a d : Byte) (rest : List Byte) :
    decodeNext (o :: a :: d :: rest) = .ok (.write (opcodeIgnored o) a d, rest) := by
  simp [decodeNext, h]

theorem decodeNext_trailT2 {o : Byte} (h : opcodeSelects o = true) (a : Byte) :
    decodeNext [o, a] = .ok (.trailT2 (opcodeIgnored o) a, []) := by
  simp [decodeNext, h]

/-! ### What the pure decode reads at the head of a stream (rule R104) -/

/-- Bit 0 clear: a READ, with or without bytes after it. -/
theorem decodeStream_read {o : Byte} (h : opcodeSelects o = false) (a : Byte) (rest : List Byte) :
    decodeStream (o :: a :: rest) =
      (.read (opcodeIgnored o) a :: (decodeStream rest).1, (decodeStream rest).2) := by
  cases rest <;> simp [decodeStream, h]

/-- Bit 0 set and the data byte there: a WRITE. -/
theorem decodeStream_write {o : Byte} (h : opcodeSelects o = true) (a d : Byte) (rest : List Byte) :
    decodeStream (o :: a :: d :: rest) =
      (.write (opcodeIgnored o) a d :: (decodeStream rest).1, (decodeStream rest).2) := by
  simp [decodeStream, h]

/-- An encoded instruction at the head of a stream is read back, and the decoding goes on right after it. -/
theorem decodeStream_encode_append {i : Instr} (hi : i.isTrailing = false) (rest : List Byte) :
    decodeStream (encode i ++ rest) = (i :: (decodeStream rest).1, (decodeStream rest).2) := by
  cases i with
  | read x a => simpa [encode] using decodeStream_read (opcodeSelects_opcodeByte x false) a rest
  | write x a d => simpa [encode] using decodeStream_write (opcodeSelects_opcodeByte x true) a d rest
  | trailT1 b => cases hi
  | trailT2 x a => cases hi

/-! ### Programs -/

theorem encodeStream_cons (i : Instr) (p : List Instr) : encodeStream (i :: p) = encode i ++ encodeStream p :=
  List.flatMap_cons

theorem isProgram_cons (i : Instr) (p : List Instr) :
    isProgram (i :: p) = true ↔ i.isTrailing = false ∧ isProgram p = true := by
  simp [isProgram]

/-- A program with any opcode bits is read back from its bytes (rule R61). -/
theorem decodeStream_encodeStream {p : List Instr} (hp : isProgram p = true) :
    decodeStream (encodeStream p) = (p, none) := by
  induction p with
  | nil => rfl
  | cons i p ih =>
    obtain ⟨hi, hp⟩ := (isProgram_cons i p).1 hp
    rw [encodeStream_cons, decodeStream_encode_append hi, ih hp]

@[simp] theorem Instr.isTrailing_canonical (i : Instr) : i.canonical.isTrailing = i.isTrailing := by
  cases i <;> rfl

@[simp] theorem isProgram_map_canonical (p : List Instr) : isProgram (p.map Instr.canonical) = isProgram p := by
  simp [isProgram, Function.comp_def]

theorem encodeCanonical_append (p q : List Instr) :
    encodeCanonical (p ++ q) = encodeCanonical p ++ encodeCanonical q := by
  simp [encodeCanonical, encodeStream]

/-- Settles O7: the round trip holds of every program, so of the canonical form, which is what `enc` writes. -/
theorem decodeProgram : Obligations.DecodeProgram :=
  ⟨fun _ _ => rfl, fun _ _ _ => rfl, encodeCanonical_append,
    fun p hp => decodeStream_encodeStream ((isProgram_map_canonical p).trans hp)⟩

end Sys2Proof
end

section
/-! SUPPORT. What the ignored opcode bits can change: nothing but the bits an instruction keeps of its own bytes, and O11
(rule R53). -/
namespace Sys2Proof.Machine

/-! ### Execution does not see the ignored bits -/

/-- READ, WRITE and T2 drop the ignored bits; T1's byte has no canonical value (rule R53). -/
theorem exec_canonical (i : Instr) (t : State) : exec i.canonical t = exec i t := by
  cases i <;> rfl

theorem exec_congr_canonical {i i' : Instr} (h : i.canonical = i'.canonical) (t : State) : exec i t = exec i' t := by
  rw [← exec_canonical i, h, exec_canonical]

/-- T1 skips to the end of the stream whatever its byte is (rule R99). -/
theorem exec_trailT1_congr (b b' : Byte) (t : State) : exec (.trailT1 b) t = exec (.trailT1 b') t := by
  rw [exec_trailT1, exec_trailT1]

/-- Settles O11: with an operand byte there, bit 0 and the bytes after the opcode fix the row up to its canonical form,
which is all that execution sees; with none the row is T1. -/
theorem opcodeBitsIgnored : Obligations.OpcodeBitsIgnored := by
  refine ⟨fun o o' s h => ?_, fun b b' => ⟨rfl, exec_trailT1_congr b b'⟩⟩
  obtain - | ⟨a, s⟩ := s
  · exact ⟨_, _, [], rfl, rfl, exec_trailT1_congr o o', fun hs => absurd rfl hs⟩
  cases ho : o.getLsbD 0 with
  | false =>
    exact ⟨_, _, s, decodeNext_read ho a s, decodeNext_read (h.symm.trans ho) a s, exec_congr_canonical rfl,
      fun _ => ⟨rfl, fun _ => ⟨_, _, rfl⟩, nofun⟩⟩
  | true =>
    obtain - | ⟨d, s⟩ := s
    · exact ⟨_, _, [], decodeNext_trailT2 ho a, decodeNext_trailT2 (h.symm.trans ho) a, exec_congr_canonical rfl,
        fun _ => ⟨rfl, nofun, fun _ => .inr ⟨_, _, rfl, rfl⟩⟩⟩
    · exact ⟨_, _, s, decodeNext_write ho a d s, decodeNext_write (h.symm.trans ho) a d s, exec_congr_canonical rfl,
        fun _ => ⟨rfl, nofun, fun _ => .inl ⟨_, _, _, rfl⟩⟩⟩

end Sys2Proof.Machine
end

section
/-! SUPPORT. The Line Controller's operations issued one at a time by a harness: O29, O30, O31 and O32 (rules R64 to R69). -/
namespace Sys2Proof.Machine

/-! ### SetDir (rules R64, R65) -/

/-- `SetDir` of a data line leaves it in the mode asked for, with no fault (rules R64, R76). -/
theorem setDir_data_done (n : Fin 8) (d : Direction) {s : State} (hu : s.up = true) (hf : s.fault = none) :
    (setDir (.data n) d s).lines.data[n].dir = d ∧ (setDir (.data n) d s).fault = none := by
  by_cases hd : s.lines.data[n].dir = d
  · rw [setDir_redundant hd]
    exact ⟨hd, hf⟩
  · obtain ⟨b, k, h, -⟩ := setDir_data (operating_of hu hf) hd
    rw [h]
    exact ⟨congrArg LineState.dir (Lines.get_set_self s.lines (.data n) ⟨d, b⟩), hf⟩

/-- Settles O29: a `SetDir` that turns a data line makes the next one redundant. -/
theorem setDirData : Obligations.SetDirData := by
  intro s n d hu hf
  refine ⟨setDir_redundant, ?_, ?_, ?_, fun l hl => by rw [setDir_fixed hl d hu, misuse_fault]⟩
  · rintro hd rfl
    obtain ⟨b, k, h, hin, -⟩ := setDir_data (d := .input) (operating_of hu hf) (by rw [hd]; nofun)
    obtain ⟨rfl, rfl⟩ := hin rfl
    exact h
  · rintro hd rfl
    obtain ⟨b, k, h, -, hout⟩ := setDir_data (d := .output) (operating_of hu hf) (by rw [hd]; nofun)
    obtain ⟨-, rfl⟩ := hout rfl
    exact ⟨b, h⟩
  · rintro t rfl
    obtain ⟨hd, hf'⟩ := setDir_data_done n d hu hf
    exact ⟨hf', setDir_redundant hd⟩

/-- A step of the core with the sticky fault set changes nothing, if it answers at all (rule R123). -/
theorem coreStep_faulted {s t : State} (hf : s.fault ≠ none) (h : coreStep s = .next t) : t = s := by
  obtain ⟨rfl, -⟩ | ⟨_, -, -, hn, -⟩ := coreStep_next h
  · rfl
  · exact absurd hn hf

/-- Settles O30: the misuse leaves a faulted core, which takes no step. -/
theorem setDirMisuse : Obligations.SetDirMisuse := by
  intro s l d hu hl
  rw [setDir_fixed hl d hu]
  exact ⟨rfl, fun t h => coreStep_faulted (by rw [misuse_fault]; nofun) h⟩

/-! ### SetLine (rules R66, R67) -/

/-- Settles O31: `SetLine` replaces the one line it names, whose direction it keeps. -/
theorem setLineDrives : Obligations.SetLineDrives := by
  intro s l b hu hf
  refine ⟨fun hd => ?_, fun hd => setLine_in hu (by rw [hd]; nofun) b⟩
  rw [setLine_out (operating_of hu hf) hd]
  have hx : ({ s.lines.get l with out := b } : LineState) = ⟨.output, b⟩ := congrArg (LineState.mk · b) hd
  exact ⟨(Lines.get_set_self s.lines l _).trans hx, fun _ hl => Lines.get_set_ne s.lines _ hl, rfl⟩

/-! ### GetLine (rules R68, R69) -/

/-- The lines that may be sampled: ACK, and a data line while it is In (rules R68, R69). -/
theorem sampleable_iff (ls : Lines) (l : Line) :
    sampleable ls l = true ↔ l = .ack ∨ ∃ n, l = .data n ∧ ls.data[n].dir = .input := by
  cases l <;> simp [sampleable]

/-- Settles O32: a line that may be sampled is read with at most one free value taken, any other is misuse. -/
theorem getLineSamples : Obligations.GetLineSamples := by
  intro s l hu hf
  rw [← sampleable_iff]
  refine ⟨fun h => ?_, fun h => getLine_none hu h⟩
  obtain ⟨b, k, hb, -⟩ := getLine_some (operating_of hu hf) h
  exact ⟨b, k, hb⟩

end Sys2Proof.Machine
end

section
/-! SUPPORT. A `SetBus` issued by a harness on either bus, whole or up to its first In line, and O34 (rule R70). -/
namespace Sys2Proof.Machine

/-! ### The lines before line m, in the order of a bus -/

/-- The numbers of the lines that come before line m on its bus: those above m, the highest first (rule R13). -/
def numbersAbove (m : Fin 8) : List (Fin 8) := dataNumbers.take (7 - m)

theorem mem_numbersAbove {m n : Fin 8} : n ∈ numbersAbove m ↔ m < n := by
  revert m n
  decide

/-- Line m stands on its bus right after the lines above it. -/
theorem dataNumbers_split (m : Fin 8) : ∃ ns, dataNumbers = numbersAbove m ++ m :: ns :=
  ⟨dataNumbers.drop (8 - m), by revert m; decide⟩

theorem bitsMsbFirst_eq_map (v : Byte) : bitsMsbFirst v = dataNumbers.map fun n : Fin 8 => v.getLsbD n := rfl

/-- The events of a `SetBus` before it reaches line m. -/
theorem take_setBusEvents (line : Fin 8 → Line) (v : Byte) (m : Fin 8) :
    (setBusEvents (dataNumbers.map line) v).take (7 - m) =
      List.zipWith .evSet ((numbersAbove m).map line) ((numbersAbove m).map fun n : Fin 8 => v.getLsbD n) := by
  rw [setBusEvents, bitsMsbFirst_eq_map, List.take_zipWith, ← List.map_take, ← List.map_take, numbersAbove]

/-! ### What a stopped SetBus leaves -/

/-- The lines, once those of a bus above line m are driven with their bits of `v` (rule R70). -/
def Lines.driveAbove (line : Fin 8 → Line) (m : Fin 8) (v : Byte) (ls : Lines) : Lines :=
  (((numbersAbove m).map line).zip ((numbersAbove m).map fun n : Fin 8 => v.getLsbD n)).foldl
    (fun (ls : Lines) x => ls.set x.1 ⟨.output, x.2⟩) ls

/-- Driving some lines of a bus sets those lines and no other line of the bus. -/
theorem get_setLines_map {line : Fin 8 → Line} (hinj : line.Injective) (f : Fin 8 → Level) (ns : List (Fin 8))
    (ls : Lines) (n : Fin 8) :
    (((ns.map line).zip (ns.map f)).foldl (fun (ls : Lines) x => ls.set x.1 ⟨.output, x.2⟩) ls).get (line n) =
      if n ∈ ns then ⟨.output, f n⟩ else ls.get (line n) := by
  induction ns generalizing ls with
  | nil => rfl
  | cons k ns ih =>
    rw [List.map_cons, List.map_cons, List.zip_cons_cons, List.foldl_cons, ih]
    by_cases hk : n = k
    · subst hk
      simp
    · rw [Lines.get_set_ne ls _ (hinj.ne hk)]
      simp [hk]

theorem Lines.driveAbove_get {line : Fin 8 → Line} (hinj : line.Injective) (m : Fin 8) (v : Byte) (ls : Lines)
    (n : Fin 8) :
    (ls.driveAbove line m v).get (line n) = if m < n then ⟨.output, v.getLsbD n⟩ else ls.get (line n) := by
  simp only [driveAbove, get_setLines_map hinj, mem_numbersAbove]

/-- No line outside the bus changes. -/
theorem Lines.driveAbove_get_other {line : Fin 8 → Line} (m : Fin 8) (v : Byte) (ls : Lines) {l : Line}
    (h : ∀ n, line n ≠ l) : (ls.driveAbove line m v).get l = ls.get l :=
  get_setLines (by simpa using fun n _ => h n)

theorem Lines.driveAbove_addr (m : Fin 8) (v : Byte) (ls : Lines) :
    ls.driveAbove .addr m v = { ls with addr := (ls.driveAbove .addr m v).addr } := by
  refine Lines.ext_get fun l => ?_
  cases l with
  | addr n => rfl
  | req | ack | dir | data n => exact driveAbove_get_other m v ls (fun _ => nofun)

theorem Lines.driveAbove_data (m : Fin 8) (v : Byte) (ls : Lines) :
    ls.driveAbove .data m v = { ls with data := (ls.driveAbove .data m v).data } := by
  refine Lines.ext_get fun l => ?_
  cases l with
  | data n => rfl
  | req | ack | dir | addr n => exact driveAbove_get_other m v ls (fun _ => nofun)

/-- A `SetBus` whose first In line is line m drives the lines above m and stops with a misuse (rules R67, R70). -/
theorem setBus_stops (line : Fin 8 → Line) (v : Byte) (m : Fin 8) {s : State} (ho : s.operating = true)
    (hin : (s.lines.get (line m)).dir = .input) (hout : ∀ n, m < n → (s.lines.get (line n)).dir = .output) :
    setBus (dataNumbers.map line) v s = { s with
      lines := s.lines.driveAbove line m v
      trace := s.trace ++ (setBusEvents (dataNumbers.map line) v).take (7 - m)
      fault := some .lineMisuse } := by
  obtain ⟨ns, hns⟩ := dataNumbers_split m
  have habove : ∀ l ∈ (numbersAbove m).map line, (s.lines.get l).dir = .output := by
    simpa [mem_numbersAbove] using hout
  rw [take_setBusEvents, setBus, bitsMsbFirst_eq_map, hns, List.map_append, List.map_append, List.map_cons,
    List.map_cons, setLines_in ho (by simp) habove hin]
  rfl

/-- Settles O34: each bus is its eight numbers in order, and the lines above the first In line are those driven. -/
theorem setBusMsbFirst : Obligations.SetBusMsbFirst := by
  intro s v hu hf
  have ho := operating_of hu hf
  refine ⟨fun hd => ?_, fun hd => ?_, fun m hin hout => ?_, fun m hin hout => ?_⟩
  · rw [← foldl_addrBus]
    exact setLines_out ho rfl (List.forall_mem_map (l := dataNumbers).2 fun n _ => hd n)
  · rw [← foldl_dataBus]
    exact setLines_out ho rfl (List.forall_mem_map (l := dataNumbers).2 fun n _ => hd n)
  · refine ⟨(s.lines.driveAbove .addr m v).addr, Lines.driveAbove_get (fun _ _ => Line.addr.inj) m v s.lines, ?_⟩
    rw [← Lines.driveAbove_addr]
    exact setBus_stops .addr v m ho hin hout
  · refine ⟨(s.lines.driveAbove .data m v).data, Lines.driveAbove_get (fun _ _ => Line.data.inj) m v s.lines, ?_⟩
    rw [← Lines.driveAbove_data]
    exact setBus_stops .data v m ho hin hout

end Sys2Proof.Machine
end

section
/-! SUPPORT. When the decoder selects a row, what skipping its bytes leaves, and O27 (rules R56, R100). -/
namespace Sys2Proof.Machine

/-- The decoder gives a row only where the number of bytes left selects it (rule R56). -/
theorem decodeNext_selectedWhen {s rest : List Byte} {i : Instr} (h : decodeNext s = .ok (i, rest)) :
    i.selectedWhen s.length = true := by
  obtain - | ⟨o, - | ⟨a, s⟩⟩ := s
  · cases h
  · cases h
    rfl
  cases ho : opcodeSelects o with
  | false =>
    rw [decodeNext_read ho] at h
    cases h
    simp [Instr.selectedWhen]
  | true =>
    obtain - | ⟨d, s⟩ := s
    · rw [decodeNext_trailT2 ho] at h
      cases h
      rfl
    · rw [decodeNext_write ho] at h
      cases h
      simp [Instr.selectedWhen]

/-- T2 is selected at a cursor only with the stream's last two bytes left (rule R100). -/
theorem pc_add_two_of_decodeNext_trailT2 {sc : Scan} {x : BitVec 7} {a : Byte} {rest : List Byte}
    (h : decodeNext (sc.buf.drop sc.pc) = .ok (.trailT2 x a, rest)) : sc.pc + 2 = sc.buf.length := by
  have hlen : (sc.buf.drop sc.pc).length = 2 := of_decide_eq_true (decodeNext_selectedWhen h)
  rw [List.length_drop] at hlen
  omega

/-- Inside a `submit` a skip moves the cursor and nothing else (rules R99, R100). -/
theorem skipTo_scanning (f : Scan → Nat) {s : State} {sc : Scan} (h : s.scan = some sc) :
    skipTo f s = .next { s with scan := some { sc with pc := f sc } } := by
  simp [skipTo, h]

/-- Settles O27: T2 is a skip by two, and it is selected with just two bytes left. -/
theorem trailT2Skips : Obligations.TrailT2Skips := fun s _ x a h =>
  ⟨(exec_trailT2 x a s).trans (skipTo_scanning _ h), fun _ => pc_add_two_of_decodeNext_trailT2⟩

end Sys2Proof.Machine
end

section
/-! SUPPORT. What `acquire`, `release` and `submit` answer, and O50, O51 and O52 (rules R108, R109, R111). -/
namespace Sys2Proof.Machine

/-! ### A running driver passes a host call on -/

theorem hostCall_acquire {s : State} (hu : s.up = true) (c : CallerId) : hostCall c .acquire s = acquire c s :=
  if_pos hu

theorem hostCall_release {s : State} (hu : s.up = true) (c : CallerId) (h : SessionHandle) :
    hostCall c (.release h) s = release c h s :=
  if_pos hu

theorem hostCall_submit {s : State} (hu : s.up = true) (c : CallerId) (h : SessionHandle) (stream : List Byte) :
    hostCall c (.submit h stream) s = submit c h stream s :=
  if_pos hu

/-! ### acquire (rule R108) -/

theorem acquire_held {s : State} {o : CallerId} (h : s.holder = some o) (c : CallerId) :
    acquire c s = s.answer (.busy c) :=
  if_pos (by simp [State.held, h])

theorem acquire_free {s : State} (h : s.holder = none) (c : CallerId) :
    acquire c s = State.answer (.handle ⟨c⟩) { s with holder := some c } :=
  if_neg (by simp [State.held, h])

/-- Settles O50: the one test is whether there is a holder. -/
theorem acquireTestAndSet : Obligations.AcquireTestAndSet := by
  intro s c hu
  rw [hostCall_acquire hu]
  exact ⟨fun _ h => acquire_held h c, fun h => acquire_free h c⟩

/-! ### release (rules R109, R111) -/

theorem holdsWith_iff (c : CallerId) (h : SessionHandle) (s : State) :
    holdsWith c h s = true ↔ s.holder = some c ∧ h = ⟨c⟩ := by
  simp [holdsWith]

theorem release_holder {s : State} {c : CallerId} (h : s.holder = some c) :
    release c ⟨c⟩ s = State.answer (.released c) { s with holder := none } :=
  if_pos ((holdsWith_iff c ⟨c⟩ s).2 ⟨h, rfl⟩)

theorem release_refused {c : CallerId} {h : SessionHandle} {s : State} (hw : ¬holdsWith c h s = true) :
    release c h s = refuseCall (.caller c) .noSession s :=
  if_neg hw

/-- Settles O51: a handle that is no holder's does not hold the session, so its release is refused. -/
theorem releaseFrees : Obligations.ReleaseFrees := by
  intro s c c' hu
  rw [hostCall_release hu]
  refine ⟨fun hh => ?_, fun h hne => ?_⟩
  · rw [release_holder hh]
    refine ⟨rfl, ?_⟩
    rw [hostCall_acquire (by exact hu), acquire_free (by rfl)]
    rfl
  · have hw : ¬holdsWith c h s = true := by
      rw [holdsWith_iff]
      exact fun ⟨ho, hh⟩ => hne c ho hh
    exact ⟨_, (hostCall_release hu c h).trans (release_refused hw)⟩

/-! ### submit (rule R111) -/

theorem submit_noSession {c : CallerId} {h : SessionHandle} {s : State} (hw : ¬holdsWith c h s = true)
    (stream : List Byte) : submit c h stream s = refuseCall (.caller c) .noSession s :=
  if_neg hw

theorem submit_wedged {c : CallerId} {h : SessionHandle} {s : State} (hw : holdsWith c h s = true)
    (hd : s.wedged = true) (stream : List Byte) : submit c h stream s = refuseCall (.caller c) .wedged s :=
  (if_pos hw).trans (if_pos hd)

theorem submit_faulted {c : CallerId} {h : SessionHandle} {s : State} (hw : holdsWith c h s = true)
    (hd : ¬s.wedged = true) (hf : s.fault ≠ none) (stream : List Byte) :
    submit c h stream s = refuseCall (.caller c) .faulted s :=
  (if_pos hw).trans ((if_neg hd).trans (if_pos (Option.isSome_iff_ne_none.2 hf)))

/-- Settles O52: `submit` checks the session first, then the wedge, then the fault. -/
theorem callsRefused : Obligations.CallsRefused := by
  intro s c h stream hu
  rw [hostCall_release hu, hostCall_submit hu]
  have hn : s.holder ≠ some c ∨ h ≠ ⟨c⟩ ↔ ¬holdsWith c h s = true := by
    rw [holdsWith_iff, not_and_or]
  refine ⟨fun hw => ⟨_, release_refused (hn.1 hw)⟩, fun hr => ?_⟩
  rw [← or_assoc, hn] at hr
  by_cases hw : holdsWith c h s = true
  · by_cases hd : s.wedged = true
    · exact ⟨_, submit_wedged hw hd stream⟩
    · have hf : s.fault ≠ none := by simpa [hw, hd] using hr
      exact ⟨_, submit_faulted hw hd hf stream⟩
  · exact ⟨_, submit_noSession hw stream⟩

end Sys2Proof.Machine
end

section
/-! SUPPORT. The events a step appends: an `Ok` return only at the end of a scan, and O16 (rules R29, R114). -/
namespace Sys2Proof.Machine

/-- The return of a `submit` that ends well (rule R110). -/
def Event.isOkReturn : Event → Bool
  | .evReturn (.ok _ _) => true
  | .evReturn (.error _) => false
  | .evDir _ _ => false
  | .evSet _ _ => false
  | .evGet _ _ => false
  | .evBegin _ => false
  | .evEnd _ _ => false
  | .evSubmit _ => false

/-- Events were appended to the trace, and none of them is an `Ok` return. -/
def State.GrowsWithoutOk (s t : State) : Prop :=
  ∃ evs, t.trace = s.trace ++ evs ∧ ∀ ev ∈ evs, ev.isOkReturn = false

/-- The scan was at the end of its stream, and its `Ok` return was appended (rules R110, R114). -/
def State.ReturnsOk (s t : State) : Prop :=
  ∃ sc, s.scan = some sc ∧ decodeNext (sc.buf.drop sc.pc) = .error .endOfStream ∧
    t.trace = s.trace ++ [.evReturn (.ok sc.results sc.buf.length)]

theorem State.GrowsWithoutOk.of_eq {s t : State} (h : t.trace = s.trace) : s.GrowsWithoutOk t :=
  ⟨[], by rw [h, List.append_nil], nofun⟩

theorem State.GrowsWithoutOk.of_event {s t : State} {ev : Event} (h : t.trace = s.trace ++ [ev])
    (hev : ev.isOkReturn = false) : s.GrowsWithoutOk t :=
  ⟨[ev], h, List.forall_mem_singleton.2 hev⟩

theorem State.GrowsWithoutOk.trans {s t u : State} (h : s.GrowsWithoutOk t) (h' : t.GrowsWithoutOk u) :
    s.GrowsWithoutOk u := by
  obtain ⟨evs, ht, hok⟩ := h
  obtain ⟨evs', hu, hok'⟩ := h'
  exact ⟨evs ++ evs', by rw [hu, ht, List.append_assoc], List.forall_mem_append.2 ⟨hok, hok'⟩⟩

/-! ### Draws leave the trace as it is -/

@[simp] theorem drawLevel_trace (l : Line) (s : State) : (drawLevel l s).2.trace = s.trace := by
  obtain ⟨n, h⟩ := drawLevel_frame l s
  rw [h]

@[simp] theorem drawResource_trace (s : State) : (drawResource s).2.trace = s.trace := by
  obtain ⟨rs, n, h⟩ := drawResource_frame s
  rw [h]

@[simp] theorem drawEntry_trace (s : State) : (drawEntry s).2.trace = s.trace := by
  obtain ⟨es, n, h⟩ := drawEntry_frame s
  rw [h]

@[simp] theorem drawExit_trace (s : State) : (drawExit s).2.trace = s.trace := by
  obtain ⟨xs, n, h⟩ := drawExit_frame s
  rw [h]

/-! ### The Line Controller: its own event, or none after a misuse (rules R64 to R69) -/

theorem setDir_trace (l : Line) (d : Direction) (s : State) :
    (setDir l d s).trace = s.trace ∨ (setDir l d s).trace = s.trace ++ [.evDir l d] := by
  unfold setDir
  split
  · exact .inl rfl
  · cases l with
    | data n =>
      dsimp only
      split
      · exact .inl rfl
      · cases d <;> exact .inr rfl
    | req | ack | dir | addr n => exact .inl rfl

theorem setLine_trace (l : Line) (b : Level) (s : State) :
    (setLine l b s).trace = s.trace ∨ (setLine l b s).trace = s.trace ++ [.evSet l b] := by
  unfold setLine
  split
  · exact .inl rfl
  · split
    · exact .inr rfl
    · exact .inl rfl

theorem getLine_growsWithoutOk {l : Line} {s s₁ : State} {r : Option Level} (h : getLine l s = (r, s₁)) :
    s.GrowsWithoutOk s₁ := by
  unfold getLine at h
  split at h
  · cases h
    exact .of_eq rfl
  · split at h
    · cases h
      exact .of_event (by rw [emit_trace, drawLevel_trace]) rfl
    · cases h
      exact .of_eq rfl

theorem setDir_growsWithoutOk (l : Line) (d : Direction) (s : State) : s.GrowsWithoutOk (setDir l d s) :=
  (setDir_trace l d s).elim .of_eq fun h => .of_event h rfl

theorem setLine_growsWithoutOk (l : Line) (b : Level) (s : State) : s.GrowsWithoutOk (setLine l b s) :=
  (setLine_trace l b s).elim .of_eq fun h => .of_event h rfl

/-! ### The engine: the end of a cycle leaves `EvEnd`, a timeout an `Error` return (rules R78, R122) -/

theorem advance_growsWithoutOk (c : Cycle) (s : State) : s.GrowsWithoutOk (advance c s) := by
  unfold advance
  split
  · exact .of_eq rfl
  · split
    · exact .of_event (ev := .evEnd c.cur c.result) rfl rfl
    · exact .of_eq rfl

theorem pollAgain_growsWithoutOk (s : State) : s.GrowsWithoutOk (pollAgain s) := by
  obtain h | ⟨h, -⟩ := pollAgain_cases s <;> rw [h]
  · exact .of_eq rfl
  · exact .of_event (timeOut_trace _) rfl

theorem engineStep_growsWithoutOk (c : Cycle) (s : State) : s.GrowsWithoutOk (engineStep c s) := by
  unfold engineStep
  cases c.now.op with
  | setDir l d => exact (setDir_growsWithoutOk l d s).trans (advance_growsWithoutOk c _)
  | setLine l b => exact (setLine_growsWithoutOk l b s).trans (advance_growsWithoutOk c _)
  | getLine l =>
    dsimp only
    split <;> rename_i hg
    · exact (getLine_growsWithoutOk hg).trans (advance_growsWithoutOk _ _)
    · exact getLine_growsWithoutOk hg
  | waitAck b =>
    dsimp only
    split <;> rename_i hg
    · split
      · exact (getLine_growsWithoutOk hg).trans (advance_growsWithoutOk c _)
      · exact (getLine_growsWithoutOk hg).trans (pollAgain_growsWithoutOk _)
    · exact getLine_growsWithoutOk hg

theorem beginCycle_growsWithoutOk (tx : BusTransaction) (s : State) : s.GrowsWithoutOk (beginCycle tx s) := by
  have hb : s.GrowsWithoutOk (State.emit (.evBegin tx) { s with cycle := some (Cycle.start tx) }) :=
    .of_event (ev := .evBegin tx) rfl rfl
  exact hb.trans (engineStep_growsWithoutOk _ _)

/-! ### The core -/

theorem transfer_growsWithoutOk {len : Nat} {tx : BusTransaction} {s t : State} (h : transfer len tx s = .next t) :
    s.GrowsWithoutOk t := by
  have hd : s.GrowsWithoutOk (drawResource s).2 := .of_eq (drawResource_trace s)
  obtain ⟨sc, -, -, -, -, -, ⟨-, rfl⟩ | ⟨-, rfl⟩⟩ := transfer_next h
  · exact hd.trans (.of_event (raise_trace _ _) rfl)
  · exact hd.trans (beginCycle_growsWithoutOk tx { (drawResource s).2 with scan := _ })

theorem skipTo_growsWithoutOk {f : Scan → Nat} {s t : State} (h : skipTo f s = .next t) : s.GrowsWithoutOk t := by
  obtain ⟨sc, -, rfl⟩ := skipTo_next h
  exact .of_eq rfl

/-- No row ends a `submit` with `Ok`. -/
theorem exec_growsWithoutOk {i : Instr} {s t : State} (h : exec i s = .next t) : s.GrowsWithoutOk t := by
  cases i with
  | read x a => exact transfer_growsWithoutOk h
  | write x a d => exact transfer_growsWithoutOk h
  | trailT1 b => exact skipTo_growsWithoutOk h
  | trailT2 x a => exact skipTo_growsWithoutOk h

/-- The one `Ok` return of the model, at the exit of a `submit` (rules R110, R114). -/
theorem finishSubmit_trace (sc : Scan) (s : State) :
    (finishSubmit sc s).trace = s.trace ++ [.evReturn (.error .transferFault)] ∨
    (finishSubmit sc s).trace = s.trace ++ [.evReturn (.ok sc.results sc.buf.length)] := by
  have hd := drawExit_trace s
  unfold finishSubmit
  split <;> rename_i h <;> rw [h] at hd
  · exact .inl (by rw [raise_trace, hd])
  · exact .inr (by rw [endSubmit_trace, hd])

/-- A step of the core appends an `Ok` return only where the decoder finds no byte left. -/
theorem coreStep_okReturn {s t : State} (h : coreStep s = .next t) :
    s.GrowsWithoutOk t ∨ s.ReturnsOk t := by
  obtain ⟨rfl, -⟩ | ⟨sc, -, hs, -, ⟨c, -, rfl⟩ | ⟨-, i, rest, -, hx⟩ | ⟨-, hend, rfl⟩⟩ := coreStep_next h
  · exact .inl (.of_eq rfl)
  · exact .inl (engineStep_growsWithoutOk c s)
  · exact .inl (exec_growsWithoutOk hx)
  · exact (finishSubmit_trace sc s).imp (fun ht => .of_event ht rfl) fun ht => ⟨sc, hs, hend, ht⟩

/-! ### The other agents -/

theorem enterSubmit_growsWithoutOk (stream : List Byte) (s : State) : s.GrowsWithoutOk (enterSubmit stream s) := by
  have hd : s.GrowsWithoutOk (drawEntry (State.emit (.evSubmit stream.length) s)).2 :=
    .of_event (by rw [drawEntry_trace, emit_trace]) rfl
  simp only [enterSubmit]
  generalize (if overLength stream s then EntryDraw.resourceExhausted else _) = e
  cases e with
  | ok => exact hd
  | resourceExhausted | transferFault => exact hd.trans (.of_event (raise_trace _ _) rfl)

theorem submit_growsWithoutOk (c : CallerId) (h : SessionHandle) (stream : List Byte) (s : State) :
    s.GrowsWithoutOk (submit c h stream s) := by
  unfold submit
  repeat' split
  · exact .of_eq (refuseCall_trace _ _ _)
  · exact .of_eq (refuseCall_trace _ _ _)
  · exact enterSubmit_growsWithoutOk stream s
  · exact .of_eq (refuseCall_trace _ _ _)

/-- A `submit` may return at its entry, but only with an error (rule R110). -/
theorem hostCall_growsWithoutOk (c : CallerId) (op : HostOp) (s : State) : s.GrowsWithoutOk (hostCall c op s) := by
  unfold hostCall
  split
  · cases op with
    | acquire =>
      dsimp only [acquire]
      split <;> exact .of_eq rfl
    | release h =>
      dsimp only [release]
      split <;> exact .of_eq rfl
    | submit h stream => exact submit_growsWithoutOk c h stream s
  · exact .of_eq rfl

theorem shutDown_trace (s : State) : (shutDown s).trace = s.trace := by
  unfold shutDown
  repeat' split
  all_goals rfl

/-! ### The machine -/

/-- A step of a running driver, whoever moves, appends an `Ok` return only as the end of a scan. -/
theorem step_okReturn {s t : State} (hu : s.up = true) (h : step s = .next t) :
    s.GrowsWithoutOk t ∨ s.ReturnsOk t := by
  obtain ⟨-, h⟩ | ⟨-, h⟩ | ⟨d, -, rfl⟩ | ⟨c, op, -, -, rfl⟩ | ⟨p, -, rfl⟩ | ⟨-, rfl⟩ := step_next h
  · exact coreStep_okReturn h
  · exact coreStep_okReturn (s := s.popTurn) h
  · exact .inl (.of_eq rfl)
  · exact .inl (hostCall_growsWithoutOk c op s.popTurn)
  · rw [startUp_running p (s := s.popTurn) hu]
    exact .inl (.of_eq rfl)
  · exact .inl (.of_eq (shutDown_trace s.popTurn))

/-- Every byte decodes: the decoder stops only with none left (rules R56 to R58). -/
theorem decodeNext_endOfStream {bs : List Byte} (h : decodeNext bs = .error .endOfStream) : bs = [] := by
  obtain - | ⟨o, - | ⟨a, bs⟩⟩ := bs
  · rfl
  · cases h
  cases ho : opcodeSelects o with
  | false =>
    rw [decodeNext_read ho] at h
    cases h
  | true =>
    obtain - | ⟨d, bs⟩ := bs
    · rw [decodeNext_trailT2 ho] at h
      cases h
    · rw [decodeNext_write ho] at h
      cases h

/-- Settles O16: the one `Ok` return comes where no byte is left, and by the invariant the cursor is not past the end. -/
theorem okConsumesAll : Obligations.OkConsumesAll := by
  intro s t rs n hi hu h hmem
  obtain ⟨evs, ht, hok⟩ | ⟨sc, hs, hend, ht⟩ := step_okReturn hu h
  · rw [ht, List.drop_left] at hmem
    cases hok _ hmem
  · rw [ht, List.drop_left, List.mem_singleton] at hmem
    cases hmem
    have hle : sc.buf.length ≤ sc.pc := List.drop_eq_nil_iff.1 (decodeNext_endOfStream hend)
    exact ⟨sc, hs, rfl, (hi.cursor sc hs).antisymm hle, rfl⟩

end Sys2Proof.Machine
end

section
/-! SUPPORT. A `WaitAck` with no poll bound whose peer holds ACK at the wrong level, and O38 (rule R124). -/
namespace Sys2Proof.Machine

/-! ### A listed turn of a caller or of the platform -/

/-- The call of a caller whose `submit` runs is not taken: the core moves (log 11). -/
theorem step_waitingCall {s : State} {c : CallerId} {op : HostOp} {ts : List Turn}
    (h : s.env.turns = .call c op :: ts) (hw : callWaits c s = true) : step s = coreStep s := by
  simp [step, machineStep, nextTurn, h, hw]

theorem step_callTurn {s : State} {c : CallerId} {op : HostOp} {ts : List Turn}
    (h : s.env.turns = .call c op :: ts) (hw : ¬callWaits c s = true) :
    step s = .next (hostCall c op s.popTurn) := by
  simp [step, machineStep, nextTurn, h, hw]

theorem step_startUpTurn {s : State} {p : Params} {ts : List Turn} (h : s.env.turns = .startUp p :: ts) :
    step s = .next (startUp p s.popTurn) := by
  simp [step, machineStep, nextTurn, h]

theorem step_shutdownTurn {s : State} {ts : List Turn} (h : s.env.turns = .shutdown :: ts) :
    step s = .next (shutDown s.popTurn) := by
  simp [step, machineStep, nextTurn, h]

/-- A shutdown during a `submit` is refused (rule R143, U21). -/
theorem shutDown_submitting {s : State} (hu : s.up = true) (hs : s.scan ≠ none) :
    shutDown s = refuseCall .platform .submitInProgress s :=
  (if_pos hu).trans (if_pos (Option.isSome_iff_ne_none.2 hs))

/-- A caller other than the holder does not wait for the `submit` to return. -/
theorem holder_ne_of_not_callWaits {s : State} {c : CallerId} (hs : s.scan ≠ none)
    (hw : ¬callWaits c s = true) : s.holder ≠ some c := by
  simpa [callWaits, Option.isSome_iff_ne_none.2 hs] using hw

/-! ### The wait that nothing ends -/

/-- Inside caller h's `submit`, with lines `ls` in phase `p`, the core waits for ACK = b with no poll bound; the peer
drives the other level, and does so in every turn it has left. -/
structure DeadWait (sc : Scan) (c : Cycle) (b : Level) (h : CallerId) (ls : Lines) (p : Phase) (s : State) : Prop where
  up : s.up = true
  fault : s.fault = none
  scan : s.scan = some sc
  cycle : s.cycle = some c
  op : c.now.op = .waitAck b
  holder : s.holder = some h
  lines : s.lines = ls
  phase : s.phase = p
  unbounded : s.params.ackPollLimit = none
  ack : s.env.peer.ack = some (!b)
  silent : ∀ d, Turn.peer d ∈ s.env.turns → d.ack = some (!b)

namespace DeadWait

variable {sc : Scan} {c : Cycle} {b : Level} {h : CallerId} {ls : Lines} {p : Phase} {s : State}

theorem submitting (w : DeadWait sc c b h ls p s) : s.scan ≠ none := by
  rw [w.scan]
  nofun

theorem popTurn (w : DeadWait sc c b h ls p s) : DeadWait sc c b h ls p s.popTurn :=
  { w with silent := fun d hd => w.silent d (List.mem_of_mem_tail hd) }

theorem answer (w : DeadWait sc c b h ls p s) (r : Reply) : DeadWait sc c b h ls p (s.answer r) :=
  { w with }

/-- A step of the core is one more sample of the wrong level, which no bound counts against (rule R73). -/
theorem coreStep (w : DeadWait sc c b h ls p s) :
    ∃ t, Machine.coreStep s = .next t ∧ DeadWait sc c b h ls p t := by
  have hw : waitsWithin s.params (s.polls + 1) := by
    intro lim hl
    rw [w.unbounded] at hl
    cases hl
  exact ⟨_, coreStep_wait_again w.up w.scan w.fault w.cycle w.op w.ack hw, { w with }⟩

/-- Another caller's call gives it an answer and nothing else (rules R108, R111, R116). -/
theorem hostCall (w : DeadWait sc c b h ls p s) {c' : CallerId} (hc : s.holder ≠ some c') (op : HostOp) :
    DeadWait sc c b h ls p (Machine.hostCall c' op s) := by
  obtain ⟨r, hr⟩ := hostCall_waiting (op := op) w.up (by rw [w.holder]; nofun) hc
  rw [hr]
  exact w.answer r

/-- Whoever moves, the machine takes its step and the wait goes on. -/
theorem step (w : DeadWait sc c b h ls p s) : ∃ t, Machine.step s = .next t ∧ DeadWait sc c b h ls p t := by
  cases hts : s.env.turns with
  | nil =>
    rw [step_idleTurns hts]
    exact w.coreStep
  | cons x ts =>
    cases x with
    | core =>
      rw [step_coreTurn hts]
      exact w.popTurn.coreStep
    | peer d =>
      have hd : d.ack = some (!b) := w.silent d (by simp [hts])
      rw [step_peerTurn hts]
      exact ⟨_, rfl, { w with ack := hd, silent := fun e he => w.silent e (by simp [hts, he]) }⟩
    | call c' op =>
      by_cases hw : callWaits c' s = true
      · rw [step_waitingCall hts hw]
        exact w.coreStep
      · exact ⟨_, step_callTurn hts hw, w.popTurn.hostCall (holder_ne_of_not_callWaits w.submitting hw) op⟩
    | startUp q =>
      refine ⟨_, step_startUpTurn hts, ?_⟩
      rw [startUp_running q w.popTurn.up]
      exact w.popTurn.answer _
    | shutdown =>
      refine ⟨_, step_shutdownTurn hts, ?_⟩
      rw [shutDown_submitting w.popTurn.up w.popTurn.submitting]
      exact w.popTurn.answer _

theorem runSteps (k : Nat) (w : DeadWait sc c b h ls p s) :
    ∃ t, Machine.runSteps k s = .next t ∧ DeadWait sc c b h ls p t := by
  induction k generalizing s with
  | zero => exact ⟨s, rfl, w⟩
  | succ k ih =>
    obtain ⟨t, ht, wt⟩ := w.step
    rw [runSteps_succ ht]
    exact ih wt

end DeadWait

/-- Settles O38: every step of any agent keeps the wait, and the session with it. -/
theorem deadPeerHangs : Obligations.DeadPeerHangs := by
  intro s sc c b h hu hs hh hf hc ho hl hp hsilent k
  have w : DeadWait sc c b h s.lines s.phase s := ⟨hu, hf, hs, hc, ho, hh, rfl, rfl, hl, hp, hsilent⟩
  obtain ⟨t, ht, wt⟩ := w.runSteps k
  refine ⟨t, ht, wt.scan, wt.cycle, wt.phase, wt.lines, wt.holder, fun c' => ?_⟩
  rw [hostCall_acquire wt.up, acquire_held wt.holder]

end Sys2Proof.Machine
end

section
/-! SUPPORT. What a start-up leaves, that `fault` and `wedged` outlive every other step, and O59 and O1 (rules R27, R137 to
R141, R144). -/
namespace Sys2Proof.Machine

/-! ### The start-up state -/

/-- A start-up leaves the data lines In (rule R139). -/
theorem Lines.dataAll_startUp (n : Nat) : (Lines.startUp n).dataAll .input :=
  fun k => congrArg LineState.dir (busLines_get .input (Config.initDataLatches n) k)

/-- A start-up of a driver that is down (rules R137, R144). -/
theorem startUp_down (p : Params) {s : State} (hu : s.up = false) : startUp p s = State.startUp p s.env :=
  if_neg (by simp [hu])

/-- Settles O1: the start-up state field by field; the directions are those of every start-up. -/
theorem resetState : Obligations.ResetState := by
  obtain ⟨hreq, hack, hdir, haddr⟩ := Lines.fixedDirections_startUp Env.empty.drawn
  exact ⟨hreq, hdir, haddr, hack, rfl, rfl, rfl, rfl, rfl, rfl, rfl, rfl, rfl, rfl, rfl⟩

/-! ### A step of the core keeps `wedged`: only a timeout writes it -/

@[simp] theorem drawLevel_wedged (l : Line) (s : State) : (drawLevel l s).2.wedged = s.wedged := by
  obtain ⟨n, h⟩ := drawLevel_frame l s
  rw [h]

@[simp] theorem setDir_wedged (l : Line) (d : Direction) (s : State) : (setDir l d s).wedged = s.wedged := by
  unfold setDir
  split
  · rfl
  · cases l with
    | data n =>
      dsimp only
      split
      · rfl
      · cases d <;> rfl
    | req | ack | dir | addr n => rfl

@[simp] theorem setLine_wedged (l : Line) (b : Level) (s : State) : (setLine l b s).wedged = s.wedged := by
  unfold setLine
  repeat' split
  all_goals rfl

theorem getLine_wedged {l : Line} {s s₁ : State} {r : Option Level} (h : getLine l s = (r, s₁)) :
    s₁.wedged = s.wedged := by
  unfold getLine at h
  split at h
  · cases h; rfl
  · split at h
    · cases h; exact drawLevel_wedged l s
    · cases h; rfl

@[simp] theorem advance_wedged (c : Cycle) (s : State) : (advance c s).wedged = s.wedged := by
  unfold advance
  split
  · rfl
  · split <;> rfl

theorem pollAgain_wedged {s : State} (hw : s.wedged = true) : (pollAgain s).wedged = true := by
  obtain h | ⟨h, -⟩ := pollAgain_cases s <;> rw [h]
  · exact hw
  · exact timeOut_wedged _

/-- One line operation of a cycle, legal or not, leaves a wedged core wedged. -/
theorem engineStep_wedged (c : Cycle) {s : State} (hw : s.wedged = true) : (engineStep c s).wedged = true := by
  unfold engineStep
  cases c.now.op with
  | setDir l d => simpa using hw
  | setLine l b => simpa using hw
  | getLine l =>
    dsimp only
    split <;> rename_i hg
    · rw [advance_wedged, getLine_wedged hg, hw]
    · rw [getLine_wedged hg, hw]
  | waitAck b =>
    dsimp only
    split <;> rename_i hg
    · split
      · rw [advance_wedged, getLine_wedged hg, hw]
      · exact pollAgain_wedged (by rw [getLine_wedged hg, hw])
    · rw [getLine_wedged hg, hw]

/-- READ and WRITE have no meaning on a wedged core (rule R79). -/
theorem transfer_ne_next_of_wedged {len : Nat} {tx : BusTransaction} {s t : State} (hw : s.wedged = true) :
    transfer len tx s ≠ .next t := fun h => by
  obtain ⟨sc, -, -, hn, -⟩ := transfer_next h
  rw [hw] at hn
  cases hn

/-- Of the rows only a trailing form runs on a wedged core, and it moves the cursor alone. -/
theorem exec_wedged {i : Instr} {s t : State} (hw : s.wedged = true) (h : exec i s = .next t) : t.wedged = true := by
  cases i with
  | read x a => exact absurd h (transfer_ne_next_of_wedged hw)
  | write x a d => exact absurd h (transfer_ne_next_of_wedged hw)
  | trailT1 b | trailT2 x a =>
    obtain ⟨sc, -, rfl⟩ := skipTo_next h
    exact hw

theorem finishSubmit_wedged (sc : Scan) (s : State) : (finishSubmit sc s).wedged = s.wedged := by
  have hd : (drawExit s).2.wedged = s.wedged := by
    obtain ⟨xs, n, h⟩ := drawExit_frame s
    rw [h]
  unfold finishSubmit
  split <;> rename_i h <;> rw [h] at hd
  · rw [raise_wedged, hd]
  · rw [endSubmit_wedged, hd]

theorem coreStep_wedged {s t : State} (hw : s.wedged = true) (h : coreStep s = .next t) : t.wedged = true := by
  obtain ⟨rfl, -⟩ | ⟨sc, -, -, -, ⟨c, -, rfl⟩ | ⟨-, i, rest, -, hx⟩ | ⟨-, -, rfl⟩⟩ := coreStep_next h
  · exact hw
  · exact engineStep_wedged c hw
  · exact exec_wedged hw hx
  · rw [finishSubmit_wedged, hw]

/-! ### The sticky state -/

/-- What is set of `fault` and `wedged` stays set (rule R27). -/
def State.KeepsSticky (s t : State) : Prop :=
  (s.fault ≠ none → t.fault ≠ none) ∧ (s.wedged = true → t.wedged = true)

theorem State.KeepsSticky.of_eq {s t : State} (hf : t.fault = s.fault) (hw : t.wedged = s.wedged) : s.KeepsSticky t :=
  ⟨fun h => hf ▸ h, fun h => hw ▸ h⟩

/-- A step that keeps what is set clears neither. -/
theorem State.KeepsSticky.not_cleared {s t : State} (hk : s.KeepsSticky t) :
    ¬(s.fault ≠ none ∧ t.fault = none ∨ s.wedged = true ∧ t.wedged = false) := by
  obtain ⟨hf, hw⟩ := hk
  rintro (⟨hs, ht⟩ | ⟨hs, ht⟩)
  · exact hf hs ht
  · rw [hw hs] at ht
    cases ht

theorem coreStep_keepsSticky {s t : State} (h : coreStep s = .next t) : s.KeepsSticky t :=
  ⟨fun hf => coreStep_faulted hf h ▸ hf, fun hw => coreStep_wedged hw h⟩

/-- A `submit` is entered only where nothing sticky is set; otherwise it is refused (rule R111). -/
theorem submit_keepsSticky (c : CallerId) (h : SessionHandle) (stream : List Byte) (s : State) :
    s.KeepsSticky (submit c h stream s) := by
  by_cases hh : holdsWith c h s = true
  · by_cases hw : s.wedged = true
    · rw [submit_wedged hh hw]
      exact .of_eq rfl rfl
    · by_cases hf : s.fault = none
      · exact ⟨fun hn => absurd hf hn, fun hn => absurd hn hw⟩
      · rw [submit_faulted hh hw hf]
        exact .of_eq rfl rfl
  · rw [submit_noSession hh]
    exact .of_eq rfl rfl

theorem hostCall_keepsSticky (c : CallerId) (op : HostOp) (s : State) : s.KeepsSticky (hostCall c op s) := by
  unfold hostCall
  split
  · cases op with
    | acquire => dsimp only [acquire]; split <;> exact .of_eq rfl rfl
    | release h => dsimp only [release]; split <;> exact .of_eq rfl rfl
    | submit h stream => exact submit_keepsSticky c h stream s
  · exact .of_eq rfl rfl

theorem shutDown_keepsSticky (s : State) : s.KeepsSticky (shutDown s) := by
  unfold shutDown
  repeat' split
  all_goals exact .of_eq rfl rfl

/-! ### The machine -/

/-- Every step but the start-up of a driver that is down keeps what is set, whoever moves. -/
theorem step_keepsSticky_or_startUp {s t : State} (h : step s = .next t) :
    s.KeepsSticky t ∨ s.up = false ∧ ∃ p ts, s.env.turns = .startUp p :: ts := by
  cases hts : s.env.turns with
  | nil =>
    rw [step_idleTurns hts] at h
    exact .inl (coreStep_keepsSticky h)
  | cons x ts =>
    cases x with
    | core =>
      rw [step_coreTurn hts] at h
      exact .inl (coreStep_keepsSticky (s := s.popTurn) h)
    | peer d =>
      rw [step_peerTurn hts] at h
      cases h
      exact .inl (.of_eq rfl rfl)
    | call c op =>
      by_cases hw : callWaits c s = true
      · rw [step_waitingCall hts hw] at h
        exact .inl (coreStep_keepsSticky h)
      · rw [step_callTurn hts hw] at h
        cases h
        exact .inl (hostCall_keepsSticky c op s.popTurn)
    | startUp p =>
      by_cases hu : s.up = true
      · rw [step_startUpTurn hts, startUp_running p (s := s.popTurn) hu] at h
        cases h
        exact .inl (.of_eq rfl rfl)
      · exact .inr ⟨by simpa using hu, p, ts, rfl⟩
    | shutdown =>
      rw [step_shutdownTurn hts] at h
      cases h
      exact .inl (shutDown_keepsSticky s.popTurn)

/-- The start-up of a driver that is down takes its turn and leaves the start-up state (rule R144). -/
theorem step_startUp_down {s : State} {p : Params} {ts : List Turn} (hu : s.up = false)
    (hts : s.env.turns = .startUp p :: ts) :
    step s = .next (State.startUp p { s.env with turns := ts }) := by
  rw [step_startUpTurn hts, startUp_down p (s := s.popTurn) hu, popTurn_env, hts, List.tail_cons]

/-- Settles O59: a start-up writes every field, and every other step keeps what is set of `fault` and `wedged`. -/
theorem startUpResets : Obligations.StartUpResets := by
  refine ⟨fun s p ts hu hts => ?_, fun s t h hcleared => ?_⟩
  · exact ⟨_, step_startUp_down hu hts, rfl, rfl, rfl, rfl, rfl, rfl, rfl, rfl, rfl, rfl, rfl,
      Lines.fixedDirections_startUp _, Lines.dataAll_startUp _, rfl, rfl, rfl⟩
  · exact (step_keepsSticky_or_startUp h).resolve_left fun hk => hk.not_cleared hcleared

end Sys2Proof.Machine
end

section
/-! SUPPORT. One line operation of a cycle in progress under the invariant: what it does to the lines, what an engine step
can do, and that it keeps the invariant (rules R75, R77, R80, R85, R122). -/
namespace Sys2Proof.Machine

/-! ### What a line operation does to each line -/

/-- The line operation acts on line `l`: it turns it or drives it. -/
def LineOp.drives : LineOp → Line → Bool
  | .setDir l' _, l => l' = l
  | .setLine l' _, l => l' = l
  | .getLine _, _ => false
  | .waitAck _, _ => false

/-- A line operation leaves every line it does not act on. -/
theorem Lines.get_apply_of_not_drives (ls : Lines) {op : LineOp} {l : Line} (h : op.drives l = false) :
    (ls.apply op).get l = ls.get l := by
  cases op with
  | setDir l' d => exact Lines.get_set_ne ls _ fun e => of_decide_eq_false h e.symm
  | setLine l' b => exact Lines.get_set_ne ls _ fun e => of_decide_eq_false h e.symm
  | getLine l' => rfl
  | waitAck b => rfl

theorem Performed.get_of_not_drives {op : LineOp} {s s₁ : State} {ev : Event} (hp : Performed op s s₁ ev) {l : Line}
    (h : op.drives l = false) : s₁.lines.get l = s.lines.get l := by
  obtain hl | ⟨n, b, rfl, hl⟩ := hp.lines
  · rw [hl, Lines.get_apply_of_not_drives s.lines h]
  · rw [hl, Lines.get_set_ne s.lines _ fun e => of_decide_eq_false h e.symm]

/-- A sample of ACK changes no line. -/
theorem Performed.waitAck_lines {b : Level} {s s₁ : State} {ev : Event} (hp : Performed (.waitAck b) s s₁ ev) :
    s₁.lines = s.lines :=
  Lines.ext_get fun _ => hp.get_of_not_drives rfl

/-- Outside Idle a cycle acts on no line but REQ (rules R85, R86). -/
theorem not_drives_of_not_idle {o : CycleOp} (h : opInPhase o = true) (hp : o.phase ≠ .idle) {l : Line} (hl : l ≠ .req) :
    o.op.drives l = false := by
  unfold opInPhase at h
  cases ho : o.op with
  | setDir l' d =>
    rw [ho] at h
    cases l' with
    | data n => exact absurd (eq_of_beq h) hp
    | req | ack | dir | addr n => cases h
  | setLine l' b =>
    rw [ho] at h
    cases l' with
    | req => exact decide_eq_false hl.symm
    | ack | dir | addr n | data n => exact absurd (eq_of_beq h) hp
  | getLine l' => rfl
  | waitAck b => rfl

/-! ### What the invariant says of the operation that comes next -/

namespace CycleInv
variable {s : State} {c : Cycle}

theorem linked (h : CycleInv s c) : wellLinked (c.now :: c.later) = true :=
  wellLinked_suffix (wellLinked_cycleOps c.cur) h.left

theorem inPhase (h : CycleInv s c) : opInPhase c.now = true := (wellLinked_head h.linked).1

theorem legal_cons (h : CycleInv s c) :
    legalOp s.lines c.now.op = true ∧ legalOps (s.lines.apply c.now.op) c.later = true := by
  have hl := h.legal
  rwa [legalOps, Bool.and_eq_true] at hl

/-- A wait is in one of the two waiting phases (rule R80). -/
theorem phase_of_waitAck (h : CycleInv s c) {b : Level} (hb : c.now.op = .waitAck b) :
    s.phase = .requestAsserted ∨ s.phase = .requestDeasserted := by
  have hi := h.inPhase
  rw [opInPhase, hb, h.phase] at hi
  simpa using hi

/-- The operation of a cycle with nothing left after it is the wait in RequestDeasserted (rules R80, R81, R82). -/
theorem last (h : CycleInv s c) (hl : c.later = []) : s.phase = .requestDeasserted ∧ reqLink c.now .idle = true := by
  have hw := h.linked
  rw [hl] at hw
  simp only [wellLinked, Bool.and_eq_true, beq_iff_eq] at hw
  obtain ⟨⟨⟨-, hq⟩, -⟩, hp⟩ := hw
  exact ⟨h.phase.symm.trans hp, hq⟩

end CycleInv

/-! ### One engine step -/

/-- The state after a line operation that left the lines `ls`, the event `ev` and the count `n` of free values. -/
def State.did (s : State) (ls : Lines) (ev : Event) (n : Nat) : State :=
  { s with lines := ls, trace := s.trace ++ [ev], env := { s.env with drawn := n } }

theorem Performed.eq_did {op : LineOp} {s s₁ : State} {ev : Event} (hp : Performed op s s₁ ev) :
    s₁ = s.did s₁.lines ev s₁.env.drawn :=
  hp.frame

/-- What one engine step can do: perform its operation, and then end the cycle, enter the next operation, or, after a
wrong sample of ACK, poll again or time out. -/
inductive CycleMove (c : Cycle) (s : State) : State → Prop
  | ended {ls : Lines} {ev : Event} {n : Nat} (v : Byte) (hp : Performed c.now.op s (s.did ls ev n) ev)
      (hl : c.later = []) : CycleMove c s (finishCycle { c with byte := v } (s.did ls ev n))
  | entered {ls : Lines} {ev : Event} {n : Nat} {o : CycleOp} {os : List CycleOp} (v : Byte)
      (hp : Performed c.now.op s (s.did ls ev n) ev)
      (hd : (c.later.dropWhile fun o => redundant ls o.op) = o :: os) :
      CycleMove c s { s.did ls ev n with
        cycle := some { c with byte := v, now := o, later := os }
        phase := o.phase
        polls := pollsEntering o.op s.polls }
  | again {ls : Lines} {ev : Event} {n : Nat} {b : Level} (hp : Performed c.now.op s (s.did ls ev n) ev)
      (hb : c.now.op = .waitAck b) : CycleMove c s { s.did ls ev n with polls := s.polls + 1 }
  | timedOut {ls : Lines} {ev : Event} {n : Nat} {b : Level} (hp : Performed c.now.op s (s.did ls ev n) ev)
      (hb : c.now.op = .waitAck b) : CycleMove c s (timeOut { s.did ls ev n with polls := s.polls + 1 })

/-- An engine step of a cycle with the invariant is one of these moves. -/
theorem engineStep_moves {c : Cycle} {s : State} (hu : s.up = true) (hf : s.fault = none) (hc : CycleInv s c) :
    CycleMove c s (engineStep c s) := by
  obtain ⟨s₁, ev, hp, h⟩ := engineStep_cases (operating_of hu hf) hc.legal_cons.1 hc.effective
  obtain ⟨ls, n, rfl⟩ : ∃ ls n, s₁ = s.did ls ev n := ⟨_, _, hp.eq_did⟩
  obtain ⟨v, h⟩ | ⟨b, hb, h⟩ := h
  · obtain ⟨hd, ha⟩ | ⟨o, os, hd, ha⟩ := advance_cases (c := { c with byte := v }) (s := s.did ls ev n) hf
    · rw [h, ha]
      exact .ended v hp (last_dropWhile hc.linked hd)
    · rw [h, ha]
      exact .entered v hp hd
  · obtain ha | ⟨ha, -⟩ := pollAgain_cases (s.did ls ev n)
    · rw [h, ha]
      exact .again hp hb
    · rw [h, ha]
      exact .timedOut hp hb

/-! ### The engine keeps the invariant -/

/-- REQ after the operation is what the next phase asks for (rules R17, R80). -/
theorem Performed.req_out {c : Cycle} {s s₁ : State} {ev : Event} {p : Phase} (hi : s.Inv) (hc : CycleInv s c)
    (hp : Performed c.now.op s s₁ ev) (hq : reqLink c.now p = true) : s₁.lines.req.out = reqLevel p := by
  have keeps : c.now.op.drives .req = false → reqLevel c.now.phase = reqLevel p → s₁.lines.req.out = reqLevel p := by
    intro hn hr
    have hl : s₁.lines.req = s.lines.req := hp.get_of_not_drives hn
    rw [hl, hi.req, ← hr, hc.phase]
    rfl
  have hin := hc.inPhase
  unfold opInPhase at hin
  unfold reqLink at hq
  cases ho : c.now.op with
  | setDir l d =>
    rw [ho] at hin hq
    cases l with
    | data n => exact keeps (by rw [ho]; rfl) (eq_of_beq hq)
    | req | ack | dir | addr n => cases hin
  | setLine l b =>
    rw [ho] at hin hq
    cases l with
    | req =>
      obtain hl | ⟨n, b', h, -⟩ := hp.lines
      · rw [hl, ho]
        exact eq_of_beq hq
      · rw [ho] at h
        cases h
    | ack | dir | addr n | data n => exact keeps (by rw [ho]; rfl) (eq_of_beq hq)
  | getLine l =>
    rw [ho] at hq
    exact keeps (by rw [ho]; rfl) (eq_of_beq hq)
  | waitAck b =>
    rw [ho] at hq
    exact keeps (by rw [ho]; rfl) (eq_of_beq hq)

/-- The operations left lead to the same lines, whatever latch a line that turned Out drew (rule R81). -/
theorem Performed.replay_later {c : Cycle} {s s₁ : State} {ev : Event} (hc : CycleInv s c)
    (hp : Performed c.now.op s s₁ ev) : s₁.lines.replay c.later = s.lines.replay (c.now :: c.later) := by
  obtain hl | ⟨n, b, ho, hl⟩ := hp.lines
  · rw [hl]
    rfl
  · have hd := (wellLinked_head hc.linked).2
    rw [drivenLater, ho] at hd
    have hr : s.lines.replay (c.now :: c.later) = (s.lines.apply c.now.op).replay c.later := rfl
    rw [hl, hr, ho]
    exact replay_latch (ls := s.lines) (x := ⟨.output, b⟩) (x' := ⟨.output, s.lines.data[n].out⟩) rfl hd

/-- The next operation of the cycle has what the invariant asks of it. -/
theorem CycleInv.entered {c : Cycle} {s s₁ : State} {ev : Event} {o : CycleOp} {os : List CycleOp} (hc : CycleInv s c)
    (hp : Performed c.now.op s s₁ ev) (hd : (c.later.dropWhile fun o => redundant s₁.lines o.op) = o :: os) (v : Byte)
    {t : State} (hl : t.lines = s₁.lines) (ht : t.phase = o.phase) :
    CycleInv t { c with byte := v, now := o, later := os } where
  left := by
    have hs : o :: os <:+ c.later := hd ▸ List.dropWhile_suffix _
    exact hs.trans ((List.suffix_cons c.now c.later).trans hc.left)
  effective := by
    have hne : (c.later.dropWhile fun o => redundant s₁.lines o.op) ≠ [] := by rw [hd]; nofun
    have h := List.head_dropWhile_not (fun o : CycleOp => redundant s₁.lines o.op) hne
    simp only [hd, List.head_cons] at h
    rw [hl]
    exact h
  phase := ht.symm
  legal := by
    have h : legalOps s₁.lines c.later = true := (hp.dirs.legalOps c.later).symm.trans hc.legal_cons.2
    rw [hl, ← hd]
    exact legalOps_dropWhile h
  lines := by
    have h : s₁.lines.replay (o :: os) = s.lines.replay (c.now :: c.later) := by
      rw [← hd, Lines.replay_dropWhile, hp.replay_later hc]
    rw [hl]
    show asserts c.cur (s₁.lines.replay (o :: os))
    rw [h]
    exact hc.lines

theorem Lines.SameFixed.fixed {ls ls' : Lines} (h : ls.SameFixed ls') (hf : ls.FixedDirections) : ls'.FixedDirections :=
  ⟨(h .req nofun).trans hf.req, (h .ack nofun).trans hf.ack, (h .dir nofun).trans hf.dir,
   fun n => (h (.addr n) nofun).trans (hf.addr n)⟩

/-! ### The invariant under updates it does not look at, or hardly -/

namespace State.Inv
variable {s : State}

/-- The invariant looks neither at the parameters, nor at the trace, the answers and the world around the core. -/
theorem framed (h : s.Inv) (p : Params) (tr : List Event) (rs : List Reply) (e : Env) :
    State.Inv { s with params := p, trace := tr, replies := rs, env := e } :=
  ⟨h.fixed, h.noFault, h.idle, h.polls, h.req,
    fun c hc => have i := h.cycle c hc; ⟨i.left, i.effective, i.phase, i.legal, i.lines⟩,
    h.submit, h.running, h.cursor, h.alive⟩

/-- Inside a cycle it does not look at the count of wrong samples. -/
theorem counted (h : s.Inv) (hc : s.cycle ≠ none) (k : Nat) : State.Inv { s with polls := k } :=
  ⟨h.fixed, h.noFault, h.idle, fun hn => absurd hn hc, h.req,
    fun c hc => have i := h.cycle c hc; ⟨i.left, i.effective, i.phase, i.legal, i.lines⟩,
    h.submit, h.running, h.cursor, h.alive⟩

/-- The end of a `submit` keeps it, if a cycle that was in progress leaves the core wedged (rules R107, R122). -/
theorem scanEnded (h : s.Inv) {w : Bool} (hw : s.cycle ≠ none → w = true) :
    State.Inv { s with scan := none, wedged := w } where
  fixed := h.fixed
  noFault := h.noFault
  idle := h.idle
  polls := h.polls
  req := h.req
  cycle c hc := have i := h.cycle c hc; ⟨i.left, i.effective, i.phase, i.legal, i.lines⟩
  submit hs := absurd rfl hs
  running hc hn := by
    rw [show w = false from hn] at hw
    cases hw hc
  cursor _ hs := by cases hs
  alive hs := absurd rfl hs

/-- A new row of the stream is reached: the cursor moves, inside the stream (rule R25). -/
theorem moved (h : s.Inv) {sc : Scan} (hs : s.scan = some sc) {k : Nat} (hk : k ≤ sc.buf.length) :
    State.Inv { s with scan := some { sc with pc := k } } where
  fixed := h.fixed
  noFault := h.noFault
  idle := h.idle
  polls := h.polls
  req := h.req
  cycle c hc := have i := h.cycle c hc; ⟨i.left, i.effective, i.phase, i.legal, i.lines⟩
  submit _ := h.submit (by rw [hs]; nofun)
  running _ _ := nofun
  cursor _ h := by
    cases h
    exact hk
  alive _ := h.alive (by rw [hs]; nofun)

end State.Inv

/-- Every move of the engine keeps the invariant. -/
theorem CycleMove.inv {c : Cycle} {s t : State} (m : CycleMove c s t) (hi : s.Inv) (hs : s.scan ≠ none)
    (hcy : s.cycle = some c) (hfix : t.lines.FixedDirections) : t.Inv := by
  have hc := hi.cycle c hcy
  have hne : s.cycle ≠ none := by rw [hcy]; nofun
  cases m with
  | @ended ls ev n v hp hl =>
    have hreq := hp.req_out hi hc (hc.last hl).2
    exact {
      fixed := hfix
      noFault := hi.noFault
      idle := fun _ => rfl
      polls := fun _ => rfl
      req := hreq
      cycle := nofun
      submit := fun _ => hi.submit hs
      running := fun h => absurd rfl h
      cursor := fun sc' h => by
        obtain ⟨sc, hsc, rfl⟩ := Option.map_eq_some_iff.1 h
        rw [collect_pc, collect_buf]
        exact hi.cursor sc hsc
      alive := fun _ => hi.alive hs }
  | @entered ls ev n o os v hp hd =>
    have hreq := hp.req_out hi hc (link_dropWhile hc.linked hd).2
    exact {
      fixed := hfix
      noFault := hi.noFault
      idle := nofun
      polls := nofun
      req := hreq
      cycle := fun c' h => by
        cases h
        exact hc.entered hp hd v rfl rfl
      submit := hi.submit
      running := fun _ _ => hs
      cursor := hi.cursor
      alive := hi.alive }
  | @again ls ev n b hp hb =>
    rw [hb] at hp
    obtain rfl : ls = s.lines := hp.waitAck_lines
    exact (hi.framed s.params (s.trace ++ [ev]) s.replies { s.env with drawn := n }).counted hne _
  | @timedOut ls ev n b hp hb =>
    rw [hb] at hp
    obtain rfl : ls = s.lines := hp.waitAck_lines
    exact ((hi.counted hne _).scanEnded fun _ => rfl).framed _ _ _ _

end Sys2Proof.Machine
end

section
/-! SUPPORT. The two cycles' lists as a whole: from lines with the fixed directions none of their operations is a misuse, and
they lead to the lines the record asks for (rules R77, R81, R82, R85, R86). -/
namespace Sys2Proof.Machine

/-! ### Lists of line operations in a row -/

/-- None of the operations is a misuse, and they lead from the lines `ls` to the lines `ls'`. -/
def LegalTo (ops : List CycleOp) (ls ls' : Lines) : Prop := legalOps ls ops = true ∧ ls.replay ops = ls'

theorem LegalTo.nil (ls : Lines) : LegalTo [] ls ls := ⟨rfl, rfl⟩

theorem LegalTo.cons {o : CycleOp} {os : List CycleOp} {ls ls' : Lines} (ho : legalOp ls o.op = true)
    (h : LegalTo os (ls.apply o.op) ls') : LegalTo (o :: os) ls ls' :=
  ⟨Bool.and_eq_true_iff.2 ⟨ho, h.1⟩, h.2⟩

theorem LegalTo.append {xs ys : List CycleOp} {ls ls' ls'' : Lines} (h : LegalTo xs ls ls') (h' : LegalTo ys ls' ls'') :
    LegalTo (xs ++ ys) ls ls'' := by
  induction xs generalizing ls with
  | nil =>
    obtain ⟨-, rfl⟩ := h
    exact h'
  | cons x xs ih =>
    obtain ⟨hl, hr⟩ := h
    rw [legalOps, Bool.and_eq_true] at hl
    exact .cons hl.1 (ih ⟨hl.2, hr⟩)

/-! ### The parts of the cycles -/

/-- `SetLine`s of Out lines drive these lines (rule R66). -/
theorem legalTo_setLines (k : Nat) (p : Phase) {xs : List Line} {bs : List Level} {ls : Lines}
    (h : ∀ l ∈ xs, (ls.get l).dir = .output) :
    LegalTo (cycleStep k p (List.zipWith .setLine xs bs)) ls
      ((xs.zip bs).foldl (fun ls x => ls.set x.1 ⟨.output, x.2⟩) ls) := by
  induction xs generalizing bs ls with
  | nil => exact .nil ls
  | cons x xs ih =>
    obtain - | ⟨b, bs⟩ := bs
    · exact .nil ls
    have hx : (ls.get x).dir = .output := h x List.mem_cons_self
    refine .cons (o := ⟨k, p, .setLine x b⟩) (decide_eq_true hx) ?_
    have hset : ls.apply (.setLine x b) = ls.set x ⟨.output, b⟩ := congrArg (fun d => ls.set x ⟨d, b⟩) hx
    rw [hset]
    refine ih fun l hl => ?_
    by_cases e : l = x
    · rw [e, Lines.get_set_self]
    · rw [Lines.get_set_ne ls _ e]
      exact h l (List.mem_cons_of_mem x hl)

/-- A `SetBus(ADDR, v)` (rule R70). -/
theorem legalTo_address (k : Nat) (p : Phase) {ls : Lines} (h : ∀ n : Fin 8, ls.addr[n].dir = .output) (v : Byte) :
    LegalTo (cycleStep k p (setBusOps addrBus v)) ls { ls with addr := busLines .output v } := by
  rw [← foldl_addrBus]
  exact legalTo_setLines k p (List.forall_mem_map (l := dataNumbers).2 fun n _ => h n)

/-- A `SetBus(DATA, v)` (rule R70). -/
theorem legalTo_data (k : Nat) (p : Phase) {ls : Lines} (h : ls.dataAll .output) (v : Byte) :
    LegalTo (cycleStep k p (setBusOps dataBus v)) ls { ls with data := busLines .output v } := by
  rw [← foldl_dataBus]
  exact legalTo_setLines k p (List.forall_mem_map (l := dataNumbers).2 fun n _ => h n)

/-- `SetDir`s of data lines turn these lines (rule R64). -/
theorem legalTo_turns (k : Nat) (p : Phase) (d : Direction) (ns : List (Fin 8)) (ls : Lines) :
    ∃ w, LegalTo (cycleStep k p (ns.map fun n => .setDir (.data n) d)) ls { ls with data := w } ∧
      (∀ n ∈ ns, w[n].dir = d) ∧ ∀ n : Fin 8, ls.data[n].dir = d → w[n].dir = d := by
  induction ns generalizing ls with
  | nil => exact ⟨ls.data, .nil ls, nofun, fun _ h => h⟩
  | cons n ns ih =>
    obtain ⟨w, hw, hin, hkeep⟩ := ih (ls.apply (.setDir (.data n) d))
    have hself : ((ls.apply (.setDir (.data n) d)).get (.data n)).dir = d :=
      congrArg LineState.dir (Lines.get_set_self ls (.data n) _)
    refine ⟨w, .cons rfl hw, fun m hm => ?_, fun m hm => hkeep m ?_⟩
    · obtain rfl | hm := List.mem_cons.1 hm
      · exact hkeep m hself
      · exact hin m hm
    · by_cases e : m = n
      · rw [e]
        exact hself
      · have hne : Line.data m ≠ .data n := fun h => e (Line.data.inj h)
        exact (congrArg LineState.dir (Lines.get_set_ne ls _ hne)).trans hm

/-- Samples of In data lines change no line (rule R68). -/
theorem legalTo_samples (k : Nat) (p : Phase) (ns : List (Fin 8)) {ls : Lines} (h : ls.dataAll .input) :
    LegalTo (cycleStep k p (ns.map fun n => .getLine (.data n))) ls ls := by
  induction ns with
  | nil => exact .nil ls
  | cons n ns ih => exact .cons (decide_eq_true (h n)) ih

theorem legalTo_req (k : Nat) (p : Phase) {ls : Lines} (h : ls.req.dir = .output) (b : Level) :
    LegalTo (cycleStep k p [.setLine .req b]) ls { ls with req := ⟨.output, b⟩ } :=
  legalTo_setLines k p (xs := [.req]) (bs := [b]) (List.forall_mem_singleton.2 h)

theorem legalTo_wait (k : Nat) (p : Phase) (b : Level) (ls : Lines) : LegalTo (cycleStep k p [.waitAck b]) ls ls :=
  .cons rfl (.nil ls)

/-! ### The whole cycles -/

theorem dataAll_busLines {ls : Lines} {d : Direction} {v : Byte} (h : ls.data = busLines d v) : ls.dataAll d :=
  fun n => by rw [h, busLines_get]

/-- All operations of a cycle after its first (rules R81, R82). -/
theorem laterOps_legalTo {tx : BusTransaction} {ls : Lines} (hf : ls.FixedDirections) (hd : ls.dir.out = tx.isWrite) :
    ∃ ls', LegalTo (laterOps tx) ls ls' ∧ asserts tx ls' := by
  cases tx with
  | read a =>
    obtain ⟨w, hturn, hin, -⟩ := legalTo_turns 3 .idle .input dataNumbers { ls with addr := busLines .output a }
    let at4 : Lines := { ls with addr := busLines .output a, data := w }
    let at5 : Lines := { at4 with req := ⟨.output, true⟩ }
    let at8 : Lines := { at4 with req := ⟨.output, false⟩ }
    have hin : ∀ n : Fin 8, w[n].dir = .input := fun n => hin n (mem_dataNumbers n)
    have haddr : LegalTo _ ls _ := legalTo_address 2 .idle hf.addr a
    have hrise : LegalTo _ at4 at5 := legalTo_req 4 .addressAndDataAsserted (ls := at4) hf.req true
    have hgets : LegalTo _ at5 at5 := legalTo_samples 6 .peerAcknowledged dataNumbers hin
    have hfall : LegalTo _ at5 at8 := legalTo_req 7 .peerAcknowledged rfl false
    exact ⟨at8, (((((haddr.append hturn).append hrise).append (legalTo_wait 5 _ true at5)).append hgets).append
      hfall).append (legalTo_wait 8 _ false at8), hd, busByte_busLines .output a, hin⟩
  | write a d =>
    obtain ⟨w, hturn, hout, -⟩ := legalTo_turns 3 .idle .output dataNumbers { ls with addr := busLines .output a }
    let at4 : Lines := { ls with addr := busLines .output a, data := busLines .output d }
    let at5 : Lines := { at4 with req := ⟨.output, true⟩ }
    let at7 : Lines := { at4 with req := ⟨.output, false⟩ }
    have hout : ∀ n : Fin 8, w[n].dir = .output := fun n => hout n (mem_dataNumbers n)
    have haddr : LegalTo _ ls _ := legalTo_address 2 .idle hf.addr a
    have hdata : LegalTo _ _ at4 := legalTo_data 3 .idle (ls := { ls with addr := busLines .output a, data := w }) hout d
    have hrise : LegalTo _ at4 at5 := legalTo_req 4 .addressAndDataAsserted (ls := at4) hf.req true
    have hfall : LegalTo _ at5 at7 := legalTo_req 6 .peerAcknowledged rfl false
    exact ⟨at7, (((((haddr.append hturn).append hdata).append hrise).append (legalTo_wait 5 _ true at5)).append
      hfall).append (legalTo_wait 7 _ false at7), hd, busByte_busLines .output a,
      dataAll_busLines rfl, busByte_busLines .output d⟩

/-- The second operation of a cycle: bit 7 of the address (rules R70, R81, R82). -/
theorem laterOps_eq_cons (tx : BusTransaction) :
    laterOps tx = ⟨2, .idle, .setLine (.addr 7) (tx.address.getLsbD 7)⟩ :: (laterOps tx).tail := by
  cases tx <;> rfl

/-- A cycle that has driven DIR has what the invariant asks of it (rules R77, R78, R85). -/
theorem cycleInv_begun {tx : BusTransaction} {s : State} (hf : s.lines.FixedDirections)
    (hd : s.lines.dir.out = tx.isWrite) (hp : s.phase = .idle) :
    CycleInv s { cur := tx, now := ⟨2, .idle, .setLine (.addr 7) (tx.address.getLsbD 7)⟩,
                 later := (laterOps tx).tail, byte := 0 } := by
  obtain ⟨ls', ⟨hl, rfl⟩, ha⟩ := laterOps_legalTo hf hd
  rw [laterOps_eq_cons] at hl ha
  refine ⟨?_, rfl, hp.symm, hl, ha⟩
  rw [← laterOps_eq_cons]
  exact List.suffix_cons (firstOp tx) (laterOps tx)

end Sys2Proof.Machine
end

section
/-! SUPPORT. What a step can do: a move of the core under the invariant, a move of another agent in any state; and O4 and O5
(rules R3, R75, R77, R95, R107). -/
namespace Sys2Proof.Machine

/-! ### The moves of the other agents -/

/-- What a step of the peer, a caller or the platform can do: leave the core as it is, enter a `submit`, or return an error at
its entry; and start a driver that does not run. -/
inductive OtherMove (s : State) : State → Prop
  | quiet (u : Bool) (h : Option CallerId) (rs : List Reply) (e : Env)
      (hk : s.scan ≠ none → u = s.up ∧ (s.holder ≠ none → h ≠ none)) :
      OtherMove s { s with up := u, holder := h, replies := rs, env := e }
  | entered (stream : List Byte) (e : Env) (hu : s.up = true) (hs : s.scan = none) (hw : s.wedged = false)
      (hh : s.holder ≠ none) :
      OtherMove s { s with
        scan := some { buf := stream, pc := 0, results := [] }
        trace := s.trace ++ [.evSubmit stream.length]
        env := e }
  | rejected (stream : List Byte) (e : Env) {err : SubmitError} (herr : err ≠ .timeout) (hs : s.scan = none)
      (hw : s.wedged = false) :
      OtherMove s (raise err { s with trace := s.trace ++ [.evSubmit stream.length], env := e })
  | started (p : Params) (e : Env) (hu : s.up = false) : OtherMove s (State.startUp p e)

/-- An answer, or a change of what the peer drives, and nothing else. -/
theorem OtherMove.answered (s : State) (rs : List Reply) (e : Env) : OtherMove s { s with replies := rs, env := e } :=
  .quiet s.up s.holder rs e fun _ => ⟨rfl, id⟩

/-- The entry of a `submit` takes the snapshot or returns an error that is no Timeout (rule R110). -/
theorem enterSubmit_cases (stream : List Byte) (s : State) :
    ∃ e, enterSubmit stream s = { s with
        scan := some { buf := stream, pc := 0, results := [] }
        trace := s.trace ++ [.evSubmit stream.length]
        env := e } ∨
      ∃ err, err ≠ .timeout ∧
        enterSubmit stream s = raise err { s with trace := s.trace ++ [.evSubmit stream.length], env := e } := by
  obtain ⟨es, n, hd⟩ := drawEntry_frame (State.emit (.evSubmit stream.length) s)
  refine ⟨{ s.env with entryDraws := es, drawn := n }, ?_⟩
  simp only [enterSubmit, hd]
  generalize (if overLength stream s then EntryDraw.resourceExhausted else _) = d
  cases d with
  | ok => exact .inl rfl
  | resourceExhausted => exact .inr ⟨.resourceExhausted, nofun, rfl⟩
  | transferFault => exact .inr ⟨.transferFault, nofun, rfl⟩

/-- A call of a caller that is in no `submit` of its own (rules R108 to R112). -/
theorem hostCall_moves {c : CallerId} (op : HostOp) {s : State} (hw : callWaits c s = false) (e : Env) :
    OtherMove s (hostCall c op { s with env := e }) := by
  have hfree : ∀ h, holdsWith c h s = true → s.scan = none := by
    intro h hh
    simpa [callWaits, ((holdsWith_iff c h s).1 hh).1] using hw
  unfold hostCall
  split
  case isFalse => exact .answered s _ e
  case isTrue hu =>
    cases op with
    | acquire =>
      dsimp only [acquire]
      split
      · exact .answered s _ e
      · exact .quiet s.up (some c) _ e fun _ => ⟨rfl, fun _ => nofun⟩
    | release h =>
      dsimp only [release]
      split
      case isTrue hh => exact .quiet s.up none _ e fun hs => absurd (hfree h hh) hs
      case isFalse => exact .answered s _ e
    | submit h stream =>
      dsimp only [submit]
      split
      case isFalse => exact .answered s _ e
      case isTrue hh =>
        split
        case isTrue => exact .answered s _ e
        case isFalse hd =>
          split
          case isTrue => exact .answered s _ e
          case isFalse =>
            have hd : s.wedged = false := by simpa using hd
            have hn : s.holder ≠ none := by
              rw [((holdsWith_iff c h s).1 hh).1]
              nofun
            obtain ⟨e', h' | ⟨err, herr, h'⟩⟩ := enterSubmit_cases stream { s with env := e }
            · rw [h']
              exact .entered stream e' hu (hfree h hh) hd hn
            · rw [h']
              exact .rejected stream e' herr (hfree h hh) hd

theorem shutDown_moves (s : State) (e : Env) : OtherMove s (shutDown { s with env := e }) := by
  unfold shutDown
  split
  case isFalse => exact .answered s _ e
  case isTrue =>
    split
    case isTrue => exact .answered s _ e
    case isFalse hs => exact .quiet false s.holder s.replies e fun h => absurd (Option.isSome_iff_ne_none.2 h) hs

theorem startUp_moves (p : Params) (s : State) (e : Env) : OtherMove s (startUp p { s with env := e }) := by
  unfold startUp
  split
  case isTrue => exact .answered s _ e
  case isFalse hu => exact .started p e (by simpa using hu)

/-- The same state with other turns listed. -/
def State.withTurns (ts : List Turn) (s : State) : State := { s with env := { s.env with turns := ts } }

/-- A step is a step of the core, with or without a turn taken off, or a move of another agent. -/
theorem step_moves {s t : State} (h : step s = .next t) :
    (s.mover = .core ∧ ∃ ts, coreStep (s.withTurns ts) = .next t) ∨ (s.mover ≠ .core ∧ OtherMove s t) := by
  obtain ⟨hm, h⟩ | ⟨hm, h⟩ | ⟨d, hm, rfl⟩ | ⟨c, op, hm, hw, rfl⟩ | ⟨p, hm, rfl⟩ | ⟨hm, rfl⟩ := step_next h
  · exact .inl ⟨hm, s.env.turns, h⟩
  · exact .inl ⟨hm, s.env.turns.tail, h⟩
  · exact .inr ⟨by rw [hm]; nofun, .answered s s.replies _⟩
  · exact .inr ⟨by rw [hm]; nofun, hostCall_moves op hw _⟩
  · exact .inr ⟨by rw [hm]; nofun, startUp_moves p s _⟩
  · exact .inr ⟨by rw [hm]; nofun, shutDown_moves s _⟩

/-! ### The moves of the core -/

/-- What a step of the core can do under the invariant: nothing outside a `submit`; one move of the engine; and with no cycle
in progress skip the trailing bytes, begin a cycle, or end the `submit` with an outcome that is no Timeout. -/
inductive CoreMove (s : State) : State → Prop
  | idle (hs : s.scan = none) : CoreMove s s
  | engine {c : Cycle} {t : State} (hs : s.scan ≠ none) (hc : s.cycle = some c) (m : CycleMove c s t) : CoreMove s t
  | skipped {sc : Scan} {k : Nat} (hs : s.scan = some sc) (hc : s.cycle = none) (hk : k ≤ sc.buf.length) :
      CoreMove s { s with scan := some { sc with pc := k } }
  | begun {sc : Scan} {k : Nat} (tx : BusTransaction) (e : Env) (hs : s.scan = some sc) (hc : s.cycle = none)
      (hk : k ≤ sc.buf.length) :
      CoreMove s { s with
        lines := { s.lines with dir := ⟨.output, tx.isWrite⟩ }
        phase := .idle
        cycle := some { cur := tx, now := ⟨2, .idle, .setLine (.addr 7) (tx.address.getLsbD 7)⟩,
                        later := (laterOps tx).tail, byte := 0 }
        scan := some { sc with pc := k }
        trace := s.trace ++ [.evBegin tx, .evSet .dir tx.isWrite]
        env := e }
  | returned (o : SubmitOutcome) (e : Env) (hs : s.scan ≠ none) (hc : s.cycle = none) (ho : o ≠ .error .timeout) :
      CoreMove s (endSubmit o { s with env := e })

theorem finishSubmit_moves {s : State} (sc : Scan) (hs : s.scan ≠ none) (hc : s.cycle = none) :
    CoreMove s (finishSubmit sc s) := by
  obtain ⟨xs, n, hd⟩ := drawExit_frame s
  unfold finishSubmit
  split <;> rename_i h <;> rw [h] at hd <;> obtain rfl := hd
  · exact .returned (.error .transferFault) _ hs hc nofun
  · exact .returned (.ok sc.results sc.buf.length) _ hs hc nofun

theorem transfer_moves {len : Nat} {tx : BusTransaction} {s t : State} {sc : Scan} (hi : s.Inv) (hs : s.scan = some sc)
    (hk : sc.pc + len ≤ sc.buf.length) (h : transfer len tx s = .next t) : CoreMove s t := by
  obtain ⟨sc', hs', hf, -, -, hc, h⟩ := transfer_next h
  obtain rfl : sc' = sc := Option.some.inj (hs'.symm.trans hs)
  have hne : s.scan ≠ none := by rw [hs]; nofun
  obtain ⟨rs, n, hd⟩ := drawResource_frame s
  obtain ⟨-, rfl⟩ | ⟨-, rfl⟩ := h
  · rw [hd]
    exact .returned (.error .resourceExhausted) _ hne hc nofun
  · rw [hd, beginCycle_eq tx (by exact hi.alive hne) (by exact hf) (by exact hi.fixed.dir)]
    exact .begun tx _ hs hc hk

/-- A row that the decoder gave has its bytes inside the stream (rules R55, R56). -/
theorem length_le_of_selectedWhen {i : Instr} {n : Nat} (h : i.selectedWhen n = true) : i.length ≤ n := by
  cases i with
  | read x a => exact of_decide_eq_true h
  | write x a d => exact of_decide_eq_true h
  | trailT1 b => exact (of_decide_eq_true h : n = 1).ge
  | trailT2 x a => exact (of_decide_eq_true h : n = 2).ge

theorem exec_moves {i : Instr} {s t : State} {sc : Scan} {rest : List Byte} (hi : s.Inv) (hs : s.scan = some sc)
    (hc : s.cycle = none) (hd : decodeNext (sc.buf.drop sc.pc) = .ok (i, rest)) (h : exec i s = .next t) :
    CoreMove s t := by
  have hk : sc.pc + i.length ≤ sc.buf.length := by
    have hle := length_le_of_selectedWhen (decodeNext_selectedWhen hd)
    rw [List.length_drop] at hle
    have := hi.cursor sc hs
    omega
  cases i with
  | read x a => exact transfer_moves hi hs hk h
  | write x a d => exact transfer_moves hi hs hk h
  | trailT1 b =>
    rw [exec_trailT1, skipTo_scanning _ hs] at h
    cases h
    exact .skipped hs hc le_rfl
  | trailT2 x a =>
    rw [exec_trailT2, skipTo_scanning _ hs] at h
    cases h
    exact .skipped hs hc hk

/-- Every step of the core from a state with the invariant is one of these moves. -/
theorem coreStep_moves {s t : State} (hi : s.Inv) (h : coreStep s = .next t) : CoreMove s t := by
  obtain ⟨rfl, h⟩ | ⟨sc, hu, hs, hf, ⟨c, hc, rfl⟩ | ⟨hc, i, rest, hd, hx⟩ | ⟨hc, -, rfl⟩⟩ := coreStep_next h
  · refine .idle (h.elim (fun hu => ?_) id)
    by_contra hs
    rw [hi.alive hs] at hu
    cases hu
  · exact .engine (by rw [hs]; nofun) hc (engineStep_moves hu hf (hi.cycle c hc))
  · exact exec_moves hi hs hc hd hx
  · exact finishSubmit_moves sc (by rw [hs]; nofun) hc

/-- A step from a state with the invariant is a move of the core, whatever turns are then left, or one of another agent. -/
theorem State.Inv.step_moves {s t : State} (hi : s.Inv) (h : step s = .next t) :
    (∃ ts, CoreMove (s.withTurns ts) t) ∨ OtherMove s t := by
  obtain ⟨-, ts, h⟩ | ⟨-, m⟩ := Machine.step_moves h
  · exact .inl ⟨ts, coreStep_moves (hi.framed s.params s.trace s.replies _) h⟩
  · exact .inr m

/-! ### The invariant -/

/-- Settles O3: the fields a start-up writes. -/
theorem startUpInv : Obligations.StartUpInv := fun _ e =>
  { fixed := Lines.fixedDirections_startUp e.drawn
    noFault := rfl
    idle := fun _ => rfl
    polls := fun _ => rfl
    req := rfl
    cycle := nofun
    submit := fun h => absurd rfl h
    running := fun h => absurd rfl h
    cursor := nofun
    alive := fun h => absurd rfl h }

theorem CoreMove.inv {s t : State} (m : CoreMove s t) (hi : s.Inv) (hfix : t.lines.FixedDirections) : t.Inv := by
  cases m with
  | idle hs => exact hi
  | engine hs hc m => exact m.inv hi hs hc hfix
  | skipped hs hc hk => exact hi.moved hs hk
  | @begun sc k tx e hs hc hk =>
    have hne : s.scan ≠ none := by rw [hs]; nofun
    have hreq : s.lines.req.out = reqLevel .idle := by
      rw [hi.req, hi.idle hc]
      rfl
    exact {
      fixed := hfix
      noFault := hi.noFault
      idle := fun _ => rfl
      polls := nofun
      req := hreq
      cycle := fun c h => by
        cases h
        exact cycleInv_begun hfix rfl rfl
      submit := fun _ => hi.submit hne
      running := fun _ _ => nofun
      cursor := fun sc' h => by
        cases h
        exact hk
      alive := fun _ => hi.alive hne }
  | returned o e hs hc ho => exact (hi.scanEnded (w := s.wedged) fun h => absurd hc h).framed _ _ _ _

theorem OtherMove.inv {s t : State} (m : OtherMove s t) (hi : s.Inv) : t.Inv := by
  cases m with
  | quiet u h rs e hk =>
    exact {
      fixed := hi.fixed
      noFault := hi.noFault
      idle := hi.idle
      polls := hi.polls
      req := hi.req
      cycle := fun c hc => have i := hi.cycle c hc; ⟨i.left, i.effective, i.phase, i.legal, i.lines⟩
      submit := fun hs => ⟨(hi.submit hs).1, (hk hs).2 (hi.submit hs).2⟩
      running := hi.running
      cursor := hi.cursor
      alive := fun hs => (hk hs).1.trans (hi.alive hs) }
  | entered stream e hu hs hw hh =>
    exact {
      fixed := hi.fixed
      noFault := hi.noFault
      idle := hi.idle
      polls := hi.polls
      req := hi.req
      cycle := fun c hc => have i := hi.cycle c hc; ⟨i.left, i.effective, i.phase, i.legal, i.lines⟩
      submit := fun _ => ⟨hw, hh⟩
      running := fun _ _ => nofun
      cursor := fun sc h => by
        cases h
        exact Nat.zero_le _
      alive := fun _ => hu }
  | rejected stream e herr hs hw =>
    exact (hi.scanEnded (w := s.wedged) fun hc => absurd hs (hi.running hc hw)).framed _ _ _ _
  | started p e hu => exact startUpInv p e

/-- Settles O4: every move of the core and of the other agents keeps the invariant. -/
theorem stepKeepsInv : Obligations.StepKeepsInv := by
  intro s t hi h
  obtain ⟨-, ts, h⟩ | ⟨-, m⟩ := step_moves h
  · have hi' : (s.withTurns ts).Inv := hi.framed s.params s.trace s.replies _
    exact (coreStep_moves hi' h).inv hi' ((coreStep_sameFixed h).fixed hi'.fixed)
  · exact m.inv hi

/-! ### No step stops -/

/-- With no `submit` in progress the core has nothing to do (log 24). -/
theorem coreStep_outside {s : State} (hs : s.scan = none) : coreStep s = .next s := by
  simp [coreStep, hs]

/-- With no cycle in progress the core runs the row at the cursor (rule R95). -/
theorem coreStep_row {s : State} {sc : Scan} {i : Instr} {rest : List Byte} (hu : s.up = true) (hs : s.scan = some sc)
    (hf : s.fault = none) (hc : s.cycle = none) (hd : decodeNext (sc.buf.drop sc.pc) = .ok (i, rest)) :
    coreStep s = exec i s := by
  simp [coreStep, hu, hs, hf, hc, hd]

/-- With no byte left the core ends the scan (rules R95, R102). -/
theorem coreStep_end {s : State} {sc : Scan} (hu : s.up = true) (hs : s.scan = some sc) (hf : s.fault = none)
    (hc : s.cycle = none) (hd : decodeNext (sc.buf.drop sc.pc) = .error .endOfStream) :
    coreStep s = .next (finishSubmit sc s) := by
  simp [coreStep, hu, hs, hf, hc, hd]

/-- Between two cycles of a `submit` the engine is ready (rules R79, R88). -/
theorem State.Inv.ready {s : State} (hi : s.Inv) (hs : s.scan ≠ none) (hc : s.cycle = none) : s.Ready :=
  ⟨hi.alive hs, hi.idle hc, hc, hi.noFault, (hi.submit hs).1, hi.fixed⟩

theorem transfer_goes (len : Nat) (tx : BusTransaction) {s : State} {sc : Scan} (hr : s.Ready) (hs : s.scan = some sc) :
    ∃ t, transfer len tx s = .next t := by
  cases hd : (drawResource s).1 with
  | ok => exact ⟨_, transfer_ok hr hs (Prod.ext hd rfl)⟩
  | resourceExhausted => exact ⟨_, transfer_exhausted hr hs (Prod.ext hd rfl)⟩

theorem exec_goes (i : Instr) {s : State} {sc : Scan} (hr : s.Ready) (hs : s.scan = some sc) :
    ∃ t, exec i s = .next t := by
  cases i with
  | read x a => exact transfer_goes 2 (.read a) hr hs
  | write x a d => exact transfer_goes 3 (.write a d) hr hs
  | trailT1 b => exact ⟨_, skipTo_scanning _ hs⟩
  | trailT2 x a => exact ⟨_, skipTo_scanning _ hs⟩

theorem coreStep_goes {s : State} (hi : s.Inv) : ∃ t, coreStep s = .next t := by
  cases hs : s.scan with
  | none => exact ⟨s, coreStep_outside hs⟩
  | some sc =>
    have hne : s.scan ≠ none := by rw [hs]; nofun
    have hu := hi.alive hne
    cases hc : s.cycle with
    | some c => exact ⟨_, coreStep_cycle hu hs hi.noFault hc⟩
    | none =>
      cases hd : decodeNext (sc.buf.drop sc.pc) with
      | ok r =>
        rw [coreStep_row hu hs hi.noFault hc hd]
        exact exec_goes r.1 (hi.ready hne hc) hs
      | error e => exact ⟨_, coreStep_end hu hs hi.noFault hc hd⟩

/-- Settles O5: only the core can stop, and the invariant gives it what each of its operations asks for. -/
theorem stepNeverStops : Obligations.StepNeverStops := by
  intro s hi
  have hcore : ∃ t, coreStep s = .next t := coreStep_goes hi
  cases hts : s.env.turns with
  | nil => rwa [step_idleTurns hts]
  | cons x ts =>
    cases x with
    | core =>
      rw [step_coreTurn hts]
      exact coreStep_goes (hi.framed s.params s.trace s.replies _)
    | peer d => exact ⟨_, step_peerTurn hts⟩
    | call c op =>
      by_cases hw : callWaits c s = true
      · rwa [step_waitingCall hts hw]
      · exact ⟨_, step_callTurn hts hw⟩
    | startUp p => exact ⟨_, step_startUpTurn hts⟩
    | shutdown => exact ⟨_, step_shutdownTurn hts⟩

end Sys2Proof.Machine
end

section
/-! SUPPORT. What the invariant says of a state with REQ or more asserted, and of one step from it: O17, O39 to O44 and O49
(rules R75, R80, R85, R86, R88, R121, R122, R149). -/
namespace Sys2Proof.Machine

/-! ### The events of a step -/

@[simp] theorem withTurns_trace (ts : List Turn) (s : State) : (s.withTurns ts).trace = s.trace := rfl

theorem lineEvents_append (xs ys : List Event) : lineEvents (xs ++ ys) = lineEvents xs + lineEvents ys := by
  simp [lineEvents]

theorem lineEvents_cons {ev : Event} (h : ev.isLine = true) (evs : List Event) :
    lineEvents (ev :: evs) = lineEvents evs + 1 := by
  simp [lineEvents, h]

/-- A move of the engine leaves the event of its operation, and a marker after it at most. -/
theorem CycleMove.events {c : Cycle} {s t : State} (m : CycleMove c s t) :
    ∃ ev marks, t.trace = s.trace ++ ev :: marks ∧ ev.isLine = true ∧ eventOf c.now.op ev = true ∧
      (marks = [] ∨ (∃ r, marks = [.evEnd c.cur r]) ∨ marks = [.evReturn (.error .timeout)]) := by
  cases m with
  | @ended ls ev n v hp hl =>
    exact ⟨ev, [.evEnd c.cur (Cycle.result { c with byte := v })], List.append_assoc _ [ev] _, hp.event, hp.kind,
      .inr (.inl ⟨_, rfl⟩)⟩
  | @entered ls ev n o os v hp hd => exact ⟨ev, [], rfl, hp.event, hp.kind, .inl rfl⟩
  | @again ls ev n b hp hb => exact ⟨ev, [], rfl, hp.event, hp.kind, .inl rfl⟩
  | @timedOut ls ev n b hp hb =>
    exact ⟨ev, [.evReturn (.error .timeout)], List.append_assoc _ [ev] _, hp.event, hp.kind, .inr (.inr rfl)⟩

/-- The other agents leave the markers of a `submit` at most, while the driver runs (rule R110). -/
theorem OtherMove.events {s t : State} (m : OtherMove s t) (hu : s.up = true) :
    t.trace = s.trace ∨ ∃ n, t.trace = s.trace ++ [.evSubmit n] ∨
      ∃ e, t.trace = s.trace ++ [.evSubmit n, .evReturn (.error e)] := by
  cases m with
  | quiet u h rs e hk => exact .inl rfl
  | entered stream e hu hs hw hh => exact .inr ⟨stream.length, .inl rfl⟩
  | @rejected stream e err herr hs hw =>
    exact .inr ⟨stream.length, .inr ⟨err, List.append_assoc s.trace [.evSubmit stream.length] [.evReturn (.error err)]⟩⟩
  | started p e hd =>
    rw [hu] at hd
    cases hd

/-- Settles O39: of the core's moves inside a cycle, all are the engine's, and each performs one line operation. -/
theorem oneLineOperationPerStep : Obligations.OneLineOperationPerStep := by
  intro s t hi hu hs hc hm h
  obtain ⟨-, ts, h⟩ | ⟨hm', -⟩ := step_moves h
  · have m : CoreMove (s.withTurns ts) t := coreStep_moves (hi.framed s.params s.trace s.replies _) h
    cases m with
    | idle hs' => exact absurd hs' hs
    | engine hs' hc' m =>
      obtain ⟨ev, marks, htr, hev, -, rfl | ⟨r, rfl⟩ | rfl⟩ := m.events
      all_goals
        rw [htr, lineEvents_append, lineEvents_cons hev]
        rfl
    | skipped hs' hc' hk => exact absurd hc' hc
    | begun tx e hs' hc' hk => exact absurd hc' hc
    | returned o e hs' hc' ho => exact absurd hc' hc
  · exact absurd hm hm'

/-! ### The phase (rule R80) -/

theorem phaseLink_cases {p q : Phase} (h : phaseLink p q = true) :
    q = p ∨ (p = .idle ∧ q = .addressAndDataAsserted) ∨ (p = .addressAndDataAsserted ∧ q = .requestAsserted) ∨
      (p = .requestAsserted ∧ q = .peerAcknowledged) ∨ (p = .peerAcknowledged ∧ q = .requestDeasserted) := by
  unfold phaseLink at h
  split at h
  all_goals simp_all

/-- Settles O40: an operation is followed by one of its own phase or of the next, and the last one by Idle. -/
theorem phaseMachine : Obligations.PhaseMachine := by
  intro s t hi hu h
  obtain ⟨ts, m⟩ | m := hi.step_moves h
  · cases m with
    | idle hs => exact .inl rfl
    | @engine c _ hs hcy m =>
      have hc := hi.cycle c hcy
      cases m with
      | ended v hp hl => exact .inr (.inr (.inr (.inr (.inr ⟨(hc.last hl).1, rfl⟩))))
      | entered v hp hd =>
        have hl := (link_dropWhile hc.linked hd).1
        rw [hc.phase] at hl
        obtain h | h | h | h | h := phaseLink_cases hl
        · exact .inl h
        · exact .inr (.inl h)
        · exact .inr (.inr (.inl h))
        · exact .inr (.inr (.inr (.inl h)))
        · exact .inr (.inr (.inr (.inr (.inl h))))
      | again hp hb => exact .inl rfl
      | timedOut hp hb => exact .inl rfl
    | skipped hs hc hk => exact .inl rfl
    | begun tx e hs hc hk => exact .inl (hi.idle hc).symm
    | returned o e hs hc ho => exact .inl rfl
  · cases m with
    | quiet u h rs e hk => exact .inl rfl
    | entered stream e hu hs hw hh => exact .inl rfl
    | rejected stream e herr hs hw => exact .inl rfl
    | started p e hd =>
      rw [hu] at hd
      cases hd

/-- Settles O41: of all moves only the beginning of a cycle leaves an `EvBegin`. -/
theorem cyclesNeverOverlap : Obligations.CyclesNeverOverlap := by
  intro s t tx hi hu h hmem
  obtain ⟨ts, m⟩ | m := hi.step_moves h
  · cases m with
    | idle hs =>
      simp at hmem
    | engine hs hc m =>
      obtain ⟨ev, marks, htr, hev, -, hmarks⟩ := m.events
      rw [htr, withTurns_trace, List.drop_left, List.mem_cons] at hmem
      obtain rfl | hmem := hmem
      · cases hev
      · obtain rfl | ⟨r, rfl⟩ | rfl := hmarks
        all_goals simp at hmem
    | skipped hs hc hk =>
      simp at hmem
    | begun tx' e hs hc hk =>
      refine ⟨hi.idle hc, hc, ?_⟩
      rw [hi.req, hi.idle hc]
      rfl
    | returned o e hs hc ho =>
      simp at hmem
  · obtain htr | ⟨n, htr | ⟨e, htr⟩⟩ := m.events hu
    · rw [htr, List.drop_length] at hmem
      cases hmem
    · rw [htr, List.drop_left] at hmem
      simp at hmem
    · rw [htr, List.drop_left] at hmem
      simp at hmem

/-! ### The lines from AddressAndDataAsserted on (rules R85, R86) -/

/-- From an operation outside Idle on, a cycle acts on REQ alone. -/
theorem replay_of_not_idle {o : CycleOp} {os : List CycleOp} (hw : wellLinked (o :: os) = true) (hp : o.phase ≠ .idle)
    (ls : Lines) {l : Line} (hl : l ≠ .req) : (ls.replay (o :: os)).get l = ls.get l := by
  induction os generalizing o ls with
  | nil => exact Lines.get_apply_of_not_drives ls (not_drives_of_not_idle (wellLinked_head hw).1 hp hl)
  | cons o' os ih =>
    have hlink : phaseLink o.phase o'.phase = true := by
      simp only [wellLinked, Bool.and_eq_true] at hw
      exact hw.1.1.2
    have hp' : o'.phase ≠ .idle := by
      intro h
      rw [h] at hlink
      obtain h' | ⟨-, h'⟩ | ⟨-, h'⟩ | ⟨-, h'⟩ | ⟨-, h'⟩ := phaseLink_cases hlink
      · exact hp h'.symm
      all_goals cases h'
    exact (ih (wellLinked_tail hw) hp' (ls.apply o.op)).trans
      (Lines.get_apply_of_not_drives ls (not_drives_of_not_idle (wellLinked_head hw).1 hp hl))

/-- What a record asks of the lines does not depend on REQ and ACK. -/
theorem asserts_congr {tx : BusTransaction} {ls ls' : Lines} (hd : ls'.dir = ls.dir) (ha : ls'.addr = ls.addr)
    (hdata : ls'.data = ls.data) (h : asserts tx ls') : asserts tx ls := by
  unfold asserts Lines.dataAll at *
  rwa [hd, ha, hdata] at h

/-- Settles O42: the operations left act on REQ alone, so the lines are already what they will be at the end. -/
theorem assertedBeforeRequest : Obligations.AssertedBeforeRequest := by
  intro s c hi hcy hp
  have hc := hi.cycle c hcy
  have hget : ∀ l, l ≠ .req → (s.lines.replay (c.now :: c.later)).get l = s.lines.get l := fun l hl =>
    replay_of_not_idle hc.linked (by rwa [hc.phase]) s.lines hl
  exact asserts_congr (hget .dir nofun) (Vector.ext fun i hi => hget (.addr ⟨i, hi⟩) nofun)
    (Vector.ext fun i hi => hget (.data ⟨i, hi⟩) nofun) hc.lines

/-- Settles O43: outside Idle the core acts on no line but REQ, and nobody else acts on any. -/
theorem linesStableWhileRequested : Obligations.LinesStableWhileRequested := by
  intro s t hi hu hp h
  have keeps : (∀ l, l ≠ .req → t.lines.get l = s.lines.get l) →
      t.lines.dir = s.lines.dir ∧ t.lines.addr = s.lines.addr ∧ t.lines.data = s.lines.data := fun hget =>
    ⟨hget .dir nofun, Vector.ext fun i hi => hget (.addr ⟨i, hi⟩) nofun,
      Vector.ext fun i hi => hget (.data ⟨i, hi⟩) nofun⟩
  obtain ⟨ts, m⟩ | m := hi.step_moves h
  · cases m with
    | idle hs => exact ⟨rfl, rfl, rfl⟩
    | @engine c _ hs hcy m =>
      have hc := hi.cycle c hcy
      have hn : ∀ l, l ≠ .req → c.now.op.drives l = false := fun l hl =>
        not_drives_of_not_idle hc.inPhase (by rwa [hc.phase]) hl
      refine keeps fun l hl => ?_
      cases m with
      | ended v hp hl' => exact hp.get_of_not_drives (hn l hl)
      | entered v hp hd => exact hp.get_of_not_drives (hn l hl)
      | again hp hb => exact hp.get_of_not_drives (hn l hl)
      | timedOut hp hb => exact hp.get_of_not_drives (hn l hl)
    | skipped hs hc hk => exact ⟨rfl, rfl, rfl⟩
    | begun tx e hs hc hk => exact absurd (hi.idle hc) hp
    | returned o e hs hc ho => exact ⟨rfl, rfl, rfl⟩
  · cases m with
    | quiet u h rs e hk => exact ⟨rfl, rfl, rfl⟩
    | entered stream e hu hs hw hh => exact ⟨rfl, rfl, rfl⟩
    | rejected stream e herr hs hw => exact ⟨rfl, rfl, rfl⟩
    | started p e hd =>
      rw [hu] at hd
      cases hd

/-- Only a `GetLine` of a data line leaves the event of its sample (rule R68). -/
theorem op_of_eventOf_get {op : LineOp} {n : Fin 8} {b : Level} (h : eventOf op (.evGet (.data n) b) = true) :
    op = .getLine (.data n) := by
  cases op with
  | getLine l =>
    have hl : .data n = l := by cases b <;> simpa [eventOf] using h
    rw [hl]
  | setDir l d => simp [eventOf] at h
  | setLine l b' => simp [eventOf] at h
  | waitAck b' => simp [eventOf] at h

/-- Settles O44: the sample is an operation of the cycle, and its phase is PeerAcknowledged. -/
theorem samplesOnlyWhenAcknowledged : Obligations.SamplesOnlyWhenAcknowledged := by
  intro s t n b hi hu h htr
  obtain ⟨ts, m⟩ | m := hi.step_moves h
  · cases m with
    | idle hs => simp at htr
    | @engine c _ hs hcy m =>
      have hc := hi.cycle c hcy
      obtain ⟨ev, marks, htr', -, hop, -⟩ := m.events
      obtain ⟨rfl, -⟩ := List.cons.inj (List.append_cancel_left (htr'.symm.trans htr))
      have hin := hc.inPhase
      rw [opInPhase, op_of_eventOf_get hop, hc.phase] at hin
      have hp : s.phase = .peerAcknowledged := eq_of_beq hin
      refine ⟨hp, ?_⟩
      rw [hi.req, hp]
      rfl
    | skipped hs hc hk => simp at htr
    | begun tx e hs hc hk => simp at htr
    | returned o e hs hc ho => simp at htr
  · obtain htr' | ⟨n, htr' | ⟨e, htr'⟩⟩ := m.events hu
    all_goals simp [htr'] at htr

/-- Settles O49: P5 has the peer drive data only in a read past Idle, where the invariant has every data line In. -/
theorem noContention : Obligations.NoContention := by
  rintro s hi hp5 ⟨n, hout, hdrives⟩
  obtain ⟨hdir, hphase⟩ := hp5 ⟨n, hdrives⟩
  have hne : s.phase ≠ .idle := by
    obtain h | ⟨h | h, -⟩ := hphase
    all_goals
      rw [h]
      nofun
  obtain ⟨c, hcy⟩ := Option.ne_none_iff_exists'.1 fun hc => hne (hi.idle hc)
  have ha := assertedBeforeRequest s c hi hcy hne
  unfold asserts at ha
  cases hcur : c.cur with
  | read a =>
    rw [hcur] at ha
    have hin : s.lines.data[n].dir = .input := ha.2.2 n
    rw [hout] at hin
    cases hin
  | write a d =>
    rw [hcur, hdir] at ha
    cases ha.1

/-! ### An aborted submit (rules R121, R122) -/

/-- A move of the engine ends the `submit` only by a timeout, at a sample of ACK. -/
theorem CycleMove.of_return {c : Cycle} {s t : State} {o : SubmitOutcome} (m : CycleMove c s t)
    (h : .evReturn o ∈ t.trace.drop s.trace.length) :
    o = .error .timeout ∧ t.scan = none ∧ t.lines = s.lines ∧ t.holder = s.holder ∧ t.phase = s.phase ∧
      t.wedged = true ∧ ∃ b, c.now.op = .waitAck b := by
  cases m with
  | @ended ls ev n v hp hl =>
    have hev := hp.event
    have he : .evReturn o = ev := by simpa [finishCycle_eq, State.did] using h
    rw [← he] at hev
    cases hev
  | @entered ls ev n o' os v hp hd =>
    have hev := hp.event
    have he : .evReturn o = ev := by simpa [State.did] using h
    rw [← he] at hev
    cases hev
  | @again ls ev n b hp hb =>
    have hev := hp.event
    have he : .evReturn o = ev := by simpa [State.did] using h
    rw [← he] at hev
    cases hev
  | @timedOut ls ev n b hp hb =>
    have hev := hp.event
    have he : .evReturn o = ev ∨ o = .error .timeout := by simpa [State.did] using h
    have hlines : ls = s.lines := by
      rw [hb] at hp
      exact hp.waitAck_lines
    obtain rfl | ho := he
    · cases hev
    · exact ⟨ho, rfl, hlines, rfl, rfl, rfl, b, hb⟩

/-- Settles O17: the core aborts by a timeout inside a cycle or by a return outside one, and a caller's `submit` returns an
error only where no cycle is left. -/
theorem abortLeaves : Obligations.AbortLeaves := by
  intro s t e hi hu h hmem
  have resting : s.cycle = none → s.phase = .idle ∧ s.lines.req.out = false ∧ s.polls = 0 := fun hc => by
    rw [hi.req, hi.idle hc]
    exact ⟨rfl, rfl, hi.polls hc⟩
  obtain ⟨ts, m⟩ | m := hi.step_moves h
  · cases m with
    | idle hs => simp at hmem
    | @engine c _ hs hcy m =>
      obtain ⟨he, hscan, hlines, hh, hp, hw, b, hb⟩ := m.of_return hmem
      cases he
      refine ⟨hscan, hlines, hh, hp, fun he => absurd rfl he, fun _ => ⟨hw, ?_⟩⟩
      have hreq : t.lines.req.out = reqLevel s.phase := (congrArg (·.req.out) hlines).trans hi.req
      rw [hreq, hp]
      obtain hs | hs := (hi.cycle c hcy).phase_of_waitAck hb
      · exact .inl ⟨hs, by rw [hs]; rfl⟩
      · exact .inr ⟨hs, by rw [hs]; rfl⟩
    | skipped hs hc hk => simp at hmem
    | begun tx e hs hc hk => simp at hmem
    | returned o e' hs hc ho =>
      have he : SubmitOutcome.error e = o := by simpa using hmem
      obtain ⟨hp, hr, hk⟩ := resting hc
      subst he
      exact ⟨rfl, rfl, rfl, rfl, fun _ => ⟨hp, hr, rfl, hc, hk⟩, fun he => absurd (congrArg _ he) ho⟩
  · cases m with
    | quiet u h rs e' hk => simp at hmem
    | entered stream e' hu hs hw hh => simp at hmem
    | @rejected stream e' err herr hs hw =>
      have he : e = err := by simpa using hmem
      have hc : s.cycle = none := by
        by_contra hc
        exact hi.running hc hw hs
      obtain ⟨hp, hr, hk⟩ := resting hc
      subst he
      exact ⟨rfl, rfl, rfl, rfl, fun _ => ⟨hp, hr, rfl, hc, hk⟩, fun he => absurd he herr⟩
    | started p e' hd =>
      rw [hu] at hd
      cases hd

end Sys2Proof.Machine
end

section
/-! SUPPORT. What holds of a step in any state of a running driver, invariant or not: O24, O25, O46, O47 and O48 (rules R6, R25,
R29, R47, R79, R115, R116). -/
namespace Sys2Proof.Machine

/-! ### READ and WRITE (rules R78, R79) -/

/-- Settles O24: a next state of READ or WRITE comes only from a ready engine. -/
theorem noCycleUnlessReady : Obligations.NoCycleUnlessReady := by
  intro s t x a d hn
  have never : ∀ len tx, transfer len tx s ≠ .next t := fun len tx h => by
    obtain ⟨-, -, hf, hw, hp, -, -⟩ := transfer_next h
    obtain hn | hn | hn := hn
    · exact hn hp
    · exact hn hf
    · rw [hw] at hn
      cases hn
  exact ⟨never 2 (.read a), never 3 (.write a d)⟩

/-- What the first step of a READ or WRITE may change: DIR's latch, the engine, the scan's cursor or the scan itself, the
fault, the trace, the answers and the resource draws. -/
theorem transfer_frame {len : Nat} {tx : BusTransaction} {s t : State} (h : transfer len tx s = .next t) :
    ∃ b f p c sc tr rp rs n, t = { s with
        lines := { s.lines with dir := ⟨s.lines.dir.dir, b⟩ }, fault := f, phase := p, cycle := c, scan := sc, trace := tr,
        replies := rp, env := { s.env with resourceDraws := rs, drawn := n } } ∧
      ∀ sc₀ sc', s.scan = some sc₀ → sc = some sc' → sc' = { sc₀ with pc := sc₀.pc + len } := by
  obtain ⟨sc, hs, -, -, -, -, ⟨-, rfl⟩ | ⟨-, rfl⟩⟩ := transfer_next h
  all_goals obtain ⟨rs, n, hd⟩ := drawResource_frame s
  · rw [hd]
    exact ⟨_, _, _, _, _, _, _, _, _, rfl, nofun⟩
  · obtain ⟨b, f, p, c, tr, hb⟩ :=
      beginCycle_frame tx { (drawResource s).2 with scan := some { sc with pc := sc.pc + len } }
    rw [hb, hd]
    refine ⟨_, _, _, _, _, _, _, _, _, rfl, fun sc₀ sc' h₀ h' => ?_⟩
    obtain rfl : sc = sc₀ := Option.some.inj (hs.symm.trans h₀)
    exact (Option.some.inj h').symm

/-- Settles O25: READ and WRITE share the frame of their first step. -/
theorem transferFrame : Obligations.TransferFrame := by
  intro s t x a d h
  obtain ⟨len, tx, h⟩ : ∃ len tx, transfer len tx s = .next t :=
    h.elim (fun h => ⟨2, .read a, h⟩) fun h => ⟨3, .write a d, h⟩
  obtain ⟨b, f, p, c, sc, tr, rp, rs, n, rfl, hsc⟩ := transfer_frame h
  refine ⟨rfl, rfl, rfl, rfl, rfl, rfl, rfl, rfl, rfl, rfl, rfl, rfl, rfl, rfl, fun sc₀ sc' h₀ h' => ?_⟩
  rw [hsc sc₀ sc' h₀ h']
  exact ⟨rfl, rfl⟩

/-! ### The engine, legal operation or not -/

/-- A line operation, done or misused, changes nothing but the lines, the fault, the trace and the count of free values. -/
def State.LineFrame (s t : State) : Prop :=
  ∃ ls f tr n, t = { s with lines := ls, fault := f, trace := tr, env := { s.env with drawn := n } }

theorem setDir_lineFrame (l : Line) (d : Direction) (s : State) : s.LineFrame (setDir l d s) := by
  unfold setDir
  split
  · exact ⟨_, _, _, _, rfl⟩
  · cases l with
    | data n =>
      dsimp only
      split
      · exact ⟨_, _, _, _, rfl⟩
      · cases d <;> exact ⟨_, _, _, _, rfl⟩
    | req | ack | dir | addr n => exact ⟨_, _, _, _, rfl⟩

theorem setLine_lineFrame (l : Line) (b : Level) (s : State) : s.LineFrame (setLine l b s) := by
  unfold setLine
  repeat' split
  all_goals exact ⟨_, _, _, _, rfl⟩

theorem getLine_lineFrame {l : Line} {s s₁ : State} {r : Option Level} (h : getLine l s = (r, s₁)) :
    s.LineFrame s₁ := by
  obtain ⟨n, hd⟩ := drawLevel_frame l s
  unfold getLine at h
  split at h
  · cases h
    exact ⟨_, _, _, _, rfl⟩
  · split at h
    · cases h
      rw [hd]
      exact ⟨_, _, _, _, rfl⟩
    · cases h
      exact ⟨_, _, _, _, rfl⟩

/-- An engine step in any state: its line operation, and after that it stops, goes on or polls again. -/
theorem engineStep_lineFrame (c : Cycle) (s : State) :
    ∃ s₁, s.LineFrame s₁ ∧
      (engineStep c s = s₁ ∨ (∃ v, engineStep c s = advance { c with byte := v } s₁) ∨ engineStep c s = pollAgain s₁) := by
  unfold engineStep
  cases c.now.op with
  | setDir l d => exact ⟨_, setDir_lineFrame l d s, .inr (.inl ⟨c.byte, rfl⟩)⟩
  | setLine l b => exact ⟨_, setLine_lineFrame l b s, .inr (.inl ⟨c.byte, rfl⟩)⟩
  | getLine l =>
    dsimp only
    split <;> rename_i hg
    · exact ⟨_, getLine_lineFrame hg, .inr (.inl ⟨_, rfl⟩)⟩
    · exact ⟨_, getLine_lineFrame hg, .inl rfl⟩
  | waitAck b =>
    dsimp only
    split <;> rename_i hg
    · refine ⟨_, getLine_lineFrame hg, .inr ?_⟩
      split
      · exact .inl ⟨c.byte, rfl⟩
      · exact .inr rfl
    · exact ⟨_, getLine_lineFrame hg, .inl rfl⟩

theorem advance_frame (c : Cycle) (s : State) :
    ∃ p cy k sc tr, advance c s = { s with phase := p, cycle := cy, polls := k, scan := sc, trace := tr } ∧
      (sc = s.scan ∨ sc = s.scan.map (Scan.collect c.result)) := by
  unfold advance
  split
  · exact ⟨_, _, _, _, _, rfl, .inl rfl⟩
  · split
    · exact ⟨_, _, _, _, _, rfl, .inr rfl⟩
    · exact ⟨_, _, _, _, _, rfl, .inl rfl⟩

theorem pollAgain_frame (s : State) :
    ∃ k sc w tr rp, pollAgain s = { s with polls := k, scan := sc, wedged := w, trace := tr, replies := rp } ∧
      (sc = s.scan ∨ sc = none) := by
  obtain h | ⟨h, -⟩ := pollAgain_cases s
  · exact ⟨_, _, _, _, _, h, .inl rfl⟩
  · exact ⟨_, _, _, _, _, h, .inr rfl⟩

/-- An engine step leaves the parameters, and the scan, but for a byte collected, if the `submit` goes on. -/
theorem engineStep_frame (c : Cycle) (s : State) :
    (engineStep c s).params = s.params ∧
    ((engineStep c s).scan = s.scan ∨ (engineStep c s).scan = none ∨
      ∃ r, (engineStep c s).scan = s.scan.map (Scan.collect r)) := by
  obtain ⟨s₁, ⟨ls, f, tr, n, rfl⟩, h | ⟨v, h⟩ | h⟩ := engineStep_lineFrame c s
  · rw [h]
    exact ⟨rfl, .inl rfl⟩
  · obtain ⟨p, cy, k, sc, tr', ha, hsc⟩ := advance_frame { c with byte := v }
      { s with lines := ls, fault := f, trace := tr, env := { s.env with drawn := n } }
    rw [h, ha]
    exact ⟨rfl, hsc.imp id fun hsc => .inr ⟨_, hsc⟩⟩
  · obtain ⟨k, sc, w, tr', rp, ha, hsc⟩ := pollAgain_frame
      { s with lines := ls, fault := f, trace := tr, env := { s.env with drawn := n } }
    rw [h, ha]
    exact ⟨rfl, hsc.imp id .inl⟩

/-! ### The parameters and the trace (rules R6, R29) -/

theorem exec_params {i : Instr} {s t : State} (h : exec i s = .next t) : t.params = s.params := by
  have transfers : ∀ {len tx}, transfer len tx s = .next t → t.params = s.params := fun h => by
    obtain ⟨b, f, p, c, sc, tr, rp, rs, n, rfl, -⟩ := transfer_frame h
    rfl
  cases i with
  | read x a => exact transfers h
  | write x a d => exact transfers h
  | trailT1 b | trailT2 x a =>
    obtain ⟨sc, -, rfl⟩ := skipTo_next h
    rfl

theorem finishSubmit_params (sc : Scan) (s : State) : (finishSubmit sc s).params = s.params := by
  obtain ⟨xs, n, hd⟩ := drawExit_frame s
  unfold finishSubmit
  split <;> rename_i h <;> rw [h] at hd <;> obtain rfl := hd <;> rfl

theorem coreStep_params {s t : State} (h : coreStep s = .next t) : t.params = s.params := by
  obtain ⟨rfl, -⟩ | ⟨sc, -, -, -, ⟨c, -, rfl⟩ | ⟨-, i, rest, -, hx⟩ | ⟨-, -, rfl⟩⟩ := coreStep_next h
  · rfl
  · exact (engineStep_frame c s).1
  · exact exec_params hx
  · exact finishSubmit_params sc s

/-- Settles O46: every move appends to the trace, and only a start-up writes the parameters. -/
theorem traceAppendOnly : Obligations.TraceAppendOnly := by
  intro s t hu h
  constructor
  · obtain ⟨evs, htr, -⟩ | ⟨sc, -, -, htr⟩ := step_okReturn hu h
    all_goals exact ⟨_, htr.symm⟩
  · obtain ⟨-, ts, h⟩ | ⟨-, m⟩ := step_moves h
    · exact coreStep_params (s := s.withTurns ts) h
    · cases m with
      | quiet u h rs e hk => rfl
      | entered stream e hu hs hw hh => rfl
      | rejected stream e herr hs hw => rfl
      | started p e hd =>
        rw [hu] at hd
        cases hd

/-! ### The scan (rules R25, R47) -/

/-- The same stream, the cursor no earlier, the results no fewer. -/
def Scan.Onward (sc sc' : Scan) : Prop := sc'.buf = sc.buf ∧ sc.pc ≤ sc'.pc ∧ sc.results <+: sc'.results

theorem Scan.Onward.refl (sc : Scan) : sc.Onward sc := ⟨rfl, le_rfl, [], List.append_nil _⟩

theorem Scan.Onward.collect (r : Option Byte) (sc : Scan) : sc.Onward (sc.collect r) := by
  cases r with
  | none => exact .refl sc
  | some b => exact ⟨rfl, le_rfl, [b], rfl⟩

theorem Scan.Onward.moved (sc : Scan) {k : Nat} (h : sc.pc ≤ k) : sc.Onward { sc with pc := k } :=
  ⟨rfl, h, [], List.append_nil _⟩

theorem exec_onward {i : Instr} {s t : State} {sc sc' : Scan} (h : exec i s = .next t) (hs : s.scan = some sc)
    (ht : t.scan = some sc') (hk : sc.pc ≤ sc.buf.length) : sc.Onward sc' := by
  have transfers : ∀ {len tx}, transfer len tx s = .next t → sc.Onward sc' := fun h => by
    obtain ⟨b, f, p, c, sc₁, tr, rp, rs, n, rfl, hsc⟩ := transfer_frame h
    rw [hsc sc sc' hs ht]
    exact .moved sc (Nat.le_add_right _ _)
  have skips : ∀ {f : Scan → Nat}, sc.pc ≤ f sc → skipTo f s = .next t → sc.Onward sc' := fun hf h => by
    rw [skipTo_scanning _ hs] at h
    cases h
    cases ht
    exact .moved sc hf
  cases i with
  | read x a => exact transfers h
  | write x a d => exact transfers h
  | trailT1 b => exact skips hk h
  | trailT2 x a => exact skips (f := fun sc => sc.pc + 2) (Nat.le_add_right _ _) h

theorem coreStep_onward {s t : State} {sc sc' : Scan} (h : coreStep s = .next t) (hs : s.scan = some sc)
    (ht : t.scan = some sc') (hk : sc.pc ≤ sc.buf.length) : sc.Onward sc' := by
  obtain ⟨rfl, -⟩ | ⟨sc₁, -, -, -, ⟨c, -, rfl⟩ | ⟨-, i, rest, -, hx⟩ | ⟨-, -, rfl⟩⟩ := coreStep_next h
  · cases hs.symm.trans ht
    exact .refl sc
  · obtain h | h | ⟨r, h⟩ := (engineStep_frame c s).2
    · cases hs.symm.trans (h.symm.trans ht)
      exact .refl sc
    · cases h.symm.trans ht
    · rw [h, hs] at ht
      cases ht
      exact .collect r sc
  · exact exec_onward hx hs ht hk
  · rw [finishSubmit_scan] at ht
    cases ht

/-- Settles O47: the core moves the cursor on and appends results; the other agents leave a scan or end it. -/
theorem streamNeverChanges : Obligations.StreamNeverChanges := by
  intro s t sc sc' h hs ht hk
  obtain ⟨-, ts, h⟩ | ⟨-, m⟩ := step_moves h
  · exact coreStep_onward h hs ht hk
  · cases m with
    | quiet u h rs e hk =>
      cases hs.symm.trans ht
      exact Scan.Onward.refl sc
    | entered stream e hu hn hw hh => cases hn.symm.trans hs
    | rejected stream e herr hn hw => cases ht
    | started p e hd => cases ht

/-! ### The other agents (rules R115, R116) -/

/-- Settles O48: the other agents enter or refuse a `submit` at most, and that only where none is in progress. -/
theorem onlyCoreTouchesLines : Obligations.OnlyCoreTouchesLines := by
  intro s t hu hm h
  obtain ⟨hm', -⟩ | ⟨-, m⟩ := step_moves h
  · exact absurd hm' hm
  · have hev : lineEvents t.trace = lineEvents s.trace := by
      obtain htr | ⟨n, htr | ⟨e, htr⟩⟩ := m.events hu
      · rw [htr]
      all_goals
        rw [htr, lineEvents_append]
        rfl
    cases m with
    | quiet u h rs e hk => exact ⟨rfl, rfl, rfl, rfl, hev, fun _ h => h⟩
    | entered stream e hu hn hw hh => exact ⟨rfl, rfl, rfl, rfl, hev, fun sc hs => by cases hn.symm.trans hs⟩
    | rejected stream e herr hn hw => exact ⟨rfl, rfl, rfl, rfl, hev, fun sc hs => by cases hn.symm.trans hs⟩
    | started p e hd =>
      rw [hu] at hd
      cases hd

end Sys2Proof.Machine
end

section
/-! SUPPORT. Samples: a `GetBus` issued by a harness, one sample, and the samples of a wait; O33, O35, O36 and O37 (rules R68,
R71, R72, R73, R122). -/
namespace Sys2Proof.Machine

/-! ### One sample (rule R68) -/

/-- Settles O33: a sample takes a free value only where the peer's level is not held. -/
theorem sampleReadsPeer : Obligations.SampleReadsPeer := by
  intro s l hu hf hl
  have ho := operating_of hu hf
  have hsample := (sampleable_iff s.lines l).2 hl
  refine ⟨fun b hb => getLine_driven ho hsample hb, fun hn => ?_⟩
  have hd : drawLevel l s = (Config.freeLevel s.env.drawn, s.countDraw) := by simp [drawLevel, hn]
  simp only [getLine, if_neg (not_idle ho), if_pos hsample, hd]
  rfl

/-! ### GetBus (rule R71) -/

/-- The byte a `GetBus` has assembled from the byte `v` on, once it has sampled the lines `ns`. -/
def assembled (s : State) (ns : List (Fin 8)) (v : Byte) : Byte :=
  ns.foldl (fun v (n : Fin 8) => setBit v n (busSample s n)) v

theorem assembled_getLsbD (s : State) (ns : List (Fin 8)) (v : Byte) (n : Fin 8) :
    (assembled s ns v).getLsbD n = if n ∈ ns then busSample s n else v.getLsbD n := by
  induction ns generalizing v with
  | nil => rfl
  | cons k ns ih =>
    rw [assembled, List.foldl_cons, ← assembled, ih, getLsbD_setBit _ _ _ _ n.isLt]
    by_cases hk : n = k
    · subst hk
      simp
    · simp [hk, Fin.val_inj]

/-- The state after a `GetBus` has sampled its first `j` lines. -/
def State.sampled (j : Nat) (s : State) : State :=
  { s with
    trace := s.trace ++ (dataNumbers.take j).map fun n => .evGet (.data n) (busSample s n)
    env := { s.env with drawn := s.env.drawn + s.env.peer.freeFrom (8 - j) } }

/-- The first `j` lines of a `GetBus(DATA)`, all In (rules R68, R71). -/
theorem getBusFrom_take {s : State} (ho : s.operating = true) (v : Byte) (ls : List Line) {j : Nat} (hj : j ≤ 8)
    (hd : ∀ n ∈ dataNumbers.take j, s.lines.data[n].dir = .input) :
    getBusFrom ((dataNumbers.take j).map .data ++ ls) v s =
      getBusFrom ls (assembled s (dataNumbers.take j) v) (s.sampled j) := by
  induction j generalizing ls with
  | zero => simp [assembled, State.sampled, freeFrom_end]
  | succ j ih =>
    have hlt : j < dataNumbers.length := hj
    have hsplit : dataNumbers.take (j + 1) = dataNumbers.take j ++ [dataNumbers[j]] := (List.take_concat_get' _ _ hlt).symm
    have hnum : (dataNumbers[j] : Nat) = 7 - j := by
      have := (by decide : ∀ j : Fin 8, ((dataNumbers[j] : Fin 8) : Nat) = 7 - j) ⟨j, hlt⟩
      exact this
    rw [hsplit] at hd ⊢
    have hlast := hd _ (List.mem_append_right _ List.mem_cons_self)
    rw [List.map_append, List.append_assoc, ih _ (by omega) fun n hn => hd n (List.mem_append_left _ hn)]
    have hstep := getBusFrom_data (s := s) (8 - j) (8 - (j + 1)) (by omega) (by omega) (ls := ls)
      (v := assembled s (dataNumbers.take j) v)
      (tr := s.trace ++ (dataNumbers.take j).map fun n => .evGet (.data n) (busSample s n)) ho hlast
    refine hstep.trans ?_
    simp only [assembled, State.sampled, hsplit, List.foldl_append, List.foldl_cons, List.foldl_nil, List.map_append,
      List.map_cons, List.map_nil, List.append_assoc]

theorem take_getBusEvents (v : Byte) (j : Nat) :
    (getBusEvents dataBus v).take j = (dataNumbers.take j).map fun n : Fin 8 => .evGet (.data n) (v.getLsbD n) := by
  rw [List.map_take]
  rfl

/-- Settles O35: the lines sampled are those above the first Out line, all eight if there is none. -/
theorem getBusMsbFirst : Obligations.GetBusMsbFirst := by
  intro s hu hf
  have ho := operating_of hu hf
  have hevents : ∀ (j : Nat), ((dataNumbers.take j).map fun n => Event.evGet (.data n) (busSample s n)) =
      (getBusEvents dataBus (assembled s (dataNumbers.take j) 0)).take j := fun j => by
    rw [take_getBusEvents]
    refine List.map_congr_left fun n hn => ?_
    rw [assembled_getLsbD, if_pos hn]
  refine ⟨fun hd => ?_, fun m hout hin => ?_⟩
  · refine ⟨assembled s dataNumbers 0, fun n => ?_, ?_⟩
    · rw [assembled_getLsbD, if_pos (mem_dataNumbers n)]
      rfl
    · have h := getBusFrom_take ho 0 [] (j := 8) le_rfl fun n _ => hd n
      rw [List.append_nil] at h
      refine h.trans ?_
      simp only [getBusFrom, State.sampled, hevents]
      rfl
  · refine ⟨assembled s (numbersAbove m) 0, fun n hn => ?_, ?_⟩
    · rw [assembled_getLsbD, if_pos (mem_numbersAbove.2 hn)]
      rfl
    · obtain ⟨ns, hns⟩ := dataNumbers_split m
      have h := getBusFrom_take ho 0 (.data m :: ns.map .data) (j := 7 - m) (by omega) fun n hn =>
        hin n (mem_numbersAbove.1 hn)
      have hbus : dataBus = (numbersAbove m).map .data ++ .data m :: ns.map .data := by
        rw [← List.map_cons, ← List.map_append, ← hns]
        rfl
      have hmis : getLine (.data m) (s.sampled (7 - m)) = (none, (s.sampled (7 - m)).misuse) := by
        refine getLine_none hu fun hs => ?_
        cases hout.symm.trans (of_decide_eq_true hs)
      have hm : 8 - (7 - (m : Nat)) = m + 1 := by omega
      rw [getBus, hbus]
      refine h.trans ?_
      simp only [getBusFrom, hmis]
      simp only [State.sampled, hevents, hm, ← hbus]
      rfl

/-! ### Waiting (rules R72, R73) -/

/-- Settles O36: the wrong samples, the peer's move, and the sample that reads the awaited level. -/
theorem waitEndsOnLevel : Obligations.WaitEndsOnLevel := by
  intro s sc c b p u rest hu hs hf hc ho hk hp hub hw hts
  have hpolls := run_polls p hu hs hf hc ho hp (by rwa [hk, Nat.zero_add]) (.inl hts)
  refine runSteps_append hpolls (runSteps_trans (step_peerTurn rfl) (runSteps_trans ((step_coreTurn rfl).trans
    (coreStep_wait_ok (by exact hu) (by exact hs) (by exact hf) (by exact hc) ho hub)) ?_))
  simp [State.popTurn, hk]

/-- With no turn listed and no `submit` in progress nothing moves (log 2, log 24). -/
theorem runSteps_outside {s : State} (hs : s.scan = none) (hts : s.env.turns = []) (m : Nat) :
    runSteps m s = .next s := by
  induction m with
  | zero => rfl
  | succ m ih => exact runSteps_trans ((step_idleTurns hts).trans (coreStep_outside hs)) ih

/-- Settles O37: the n-th wrong sample is the last, since the timeout leaves no `submit` in progress. -/
theorem pollBound : Obligations.PollBound := by
  refine ⟨rfl, fun s sc c b lim hu hs hf hc ho hk hp hts hlim => ?_⟩
  have hpolls : ∀ k, k < lim.n → runSteps k s = .next { s with
      polls := k
      trace := s.trace ++ List.replicate k (.evGet .ack (!b)) } := by
    intro k hlt
    have hw : waitsWithin s.params (s.polls + k) := by
      intro lim' hlim'
      cases hlim.symm.trans hlim'
      omega
    refine (run_polls k hu hs hf hc ho hp hw (.inr ⟨hts, rfl⟩)).trans ?_
    simp [hk, ← hts]
  refine ⟨hpolls, fun m => ?_⟩
  obtain ⟨n, hn⟩ : ∃ n, lim.n = n + 1 := ⟨lim.n - 1, by have := lim.positive; omega⟩
  have hlast := coreStep_wait_timeOut (s := { s with
      polls := n
      trace := s.trace ++ List.replicate n (.evGet .ack (!b)) })
    hu hs hf hc ho hp hlim (by simp [hn])
  rw [hn, Nat.add_assoc]
  refine runSteps_append (hpolls n (by omega)) (runSteps_one ((step_idleTurns (by exact hts)).trans hlast) ?_)
  refine (runSteps_outside rfl (by exact hts) m).trans ?_
  simp [timeOut, raise, endSubmit, State.answer, State.emit, List.replicate_succ']

end Sys2Proof.Machine
end

section
/-! SUPPORT. The decoder against the encoder, row by row and over whole streams: O6, O8, O9, O10 and O12 (rules R51 to R57,
R60, R61, R63, R104). -/
namespace Sys2Proof

/-! ### One row -/

/-- An opcode byte is its ignored bits and its selector (rule R53). -/
theorem opcodeByte_parts (o : Byte) : opcodeByte (opcodeIgnored o) (opcodeSelects o) = o := by
  ext k hk
  rw [opcodeByte_eq_concat, BitVec.getElem_concat]
  split
  case isTrue h =>
    subst h
    rfl
  case isFalse h =>
    rw [opcodeIgnored, BitVec.getElem_extractLsb', show 1 + (k - 1) = k by omega, BitVec.getLsbD_eq_getElem hk]

/-- Settles O6: the number of bytes that selects a trailing form leaves none after it. -/
theorem decodeEncode : Obligations.DecodeEncode := by
  intro i rest h
  cases i with
  | read x a =>
    have hr := decodeNext_read (opcodeSelects_opcodeByte x false) a rest
    rwa [opcodeIgnored_opcodeByte] at hr
  | write x a d =>
    have hw := decodeNext_write (opcodeSelects_opcodeByte x true) a d rest
    rwa [opcodeIgnored_opcodeByte] at hw
  | trailT1 b =>
    obtain rfl : rest = [] := by simpa [Instr.selectedWhen, encode] using h
    rfl
  | trailT2 x a =>
    obtain rfl : rest = [] := by simpa [Instr.selectedWhen, encode] using h
    have ht := decodeNext_trailT2 (opcodeSelects_opcodeByte x true) a
    rwa [opcodeIgnored_opcodeByte] at ht

/-- What the decoder reads at the head of `s`: a row whose encoding the bytes `s` begin with, then the rest; a trailing form
has no rest. -/
theorem decodeNext_ok {s rest : List Byte} {i : Instr} (h : decodeNext s = .ok (i, rest)) :
    s = encode i ++ rest ∧ (i.isTrailing = true → rest = []) := by
  obtain - | ⟨o, - | ⟨a, s⟩⟩ := s
  · cases h
  · cases h
    exact ⟨rfl, fun _ => rfl⟩
  have hparts := opcodeByte_parts o
  cases ho : opcodeSelects o with
  | false =>
    rw [decodeNext_read ho] at h
    rw [ho] at hparts
    cases h
    exact ⟨congrArg (· :: a :: _) hparts.symm, nofun⟩
  | true =>
    rw [ho] at hparts
    obtain - | ⟨d, s⟩ := s
    · rw [decodeNext_trailT2 ho] at h
      cases h
      exact ⟨congrArg (· :: [a]) hparts.symm, fun _ => rfl⟩
    · rw [decodeNext_write ho] at h
      cases h
      exact ⟨congrArg (· :: a :: d :: _) hparts.symm, nofun⟩

theorem length_encode (i : Instr) : (encode i).length = i.length := by
  cases i <;> rfl

/-- Settles O10: the bytes of the row are its encoding, whose opcode byte has the row's selector. -/
theorem lengthFromOpcode : Obligations.LengthFromOpcode := by
  intro o s rest i h hi
  obtain ⟨hs, -⟩ := decodeNext_ok h
  refine ⟨?_, ?_, ?_⟩
  · cases i with
    | read x a =>
      have hb : opcodeSelects o = false := by
        rw [(List.cons.inj hs).1]
        exact opcodeSelects_opcodeByte x false
      rw [show o.getLsbD 0 = false from hb]
      rfl
    | write x a d =>
      have hb : opcodeSelects o = true := by
        rw [(List.cons.inj hs).1]
        exact opcodeSelects_opcodeByte x true
      rw [show o.getLsbD 0 = true from hb]
      rfl
    | trailT1 b => cases hi
    | trailT2 x a => cases hi
  · rw [hs, List.length_append, length_encode]
    exact Nat.le_add_right _ _
  · rw [hs, ← length_encode i, List.drop_left]

/-! ### A whole stream -/

/-- Settles O9: by the rows the decoder can find at the head of the stream. -/
theorem scanIsDecode : Obligations.ScanIsDecode := by
  intro s
  obtain - | ⟨o, - | ⟨a, s⟩⟩ := s
  · rfl
  · rfl
  cases ho : opcodeSelects o with
  | false =>
    rw [decodeNext_read ho, decodeStream_read ho]
    rfl
  | true =>
    obtain - | ⟨d, s⟩ := s
    · rw [decodeNext_trailT2 ho]
      simp [decodeStream, ho, Instr.isTrailing]
    · rw [decodeNext_write ho, decodeStream_write ho]
      rfl

/-- The pure decode at a trailing form (rule R56). -/
theorem decodeStream_trailing {s rest : List Byte} {i : Instr} (h : decodeNext s = .ok (i, rest))
    (hi : i.isTrailing = true) : decodeStream s = ([], some i) := by
  rw [scanIsDecode s, h]
  exact if_pos hi

/-- The pure decode at an instruction (rule R104). -/
theorem decodeStream_instruction {s rest : List Byte} {i : Instr} (h : decodeNext s = .ok (i, rest))
    (hi : i.isTrailing = false) : decodeStream s = (i :: (decodeStream rest).1, (decodeStream rest).2) := by
  rw [scanIsDecode s, h]
  exact if_neg (by simp [hi])

/-- No byte is dropped, and the listing is well formed (rules R57, R60, R63). -/
theorem encodeStream_decodeStream (s : List Byte) :
    encodeStream ((decodeStream s).1 ++ (decodeStream s).2.toList) = s ∧
    isProgram (decodeStream s).1 = true ∧ (∀ i, (decodeStream s).2 = some i → i.isTrailing = true) := by
  cases h : decodeNext s with
  | error e =>
    rw [Machine.decodeNext_endOfStream h]
    exact ⟨rfl, rfl, nofun⟩
  | ok r =>
    obtain ⟨i, rest⟩ := r
    obtain ⟨hs, hrest⟩ := decodeNext_ok h
    cases hi : i.isTrailing with
    | true =>
      rw [decodeStream_trailing h hi]
      refine ⟨?_, rfl, fun j hj => by cases hj; exact hi⟩
      rw [hs, hrest hi]
      exact encodeStream_cons i []
    | false =>
      have hlt : rest.length < s.length := by
        rw [hs, List.length_append, length_encode]
        cases i <;> simp [Instr.length]
      obtain ⟨henc, hprog, htrail⟩ := encodeStream_decodeStream rest
      rw [decodeStream_instruction h hi]
      refine ⟨?_, (isProgram_cons i _).2 ⟨hi, hprog⟩, htrail⟩
      rw [List.cons_append, encodeStream_cons, henc, ← hs]
termination_by s.length

/-- Settles O8: the stream is split at its first row, the listing at its first instruction. -/
theorem encodeDecode : Obligations.EncodeDecode := by
  refine ⟨encodeStream_decodeStream, fun p hp => decodeStream_encodeStream hp, fun p i hp hi => ?_⟩
  induction p with
  | nil =>
    have hsel : i.selectedWhen (encode i ++ []).length = true := by
      cases i with
      | read x a => cases hi
      | write x a d => cases hi
      | trailT1 b => rfl
      | trailT2 x a => rfl
    have henc : encodeStream ([] ++ [i]) = encode i ++ [] := encodeStream_cons i []
    rw [henc]
    exact decodeStream_trailing (decodeEncode i [] hsel) hi
  | cons j p ih =>
    obtain ⟨hj, hp⟩ := (isProgram_cons j p).1 hp
    rw [List.cons_append, encodeStream_cons, decodeStream_encode_append hj, ih hp]

/-- Settles O12: the words of the test vectors, each decoded to its end. -/
theorem decodeWords : Obligations.DecodeWords :=
  ⟨by decide, by decide, by decide, by decide, by decide, by decide⟩

end Sys2Proof
end

section
/-! SUPPORT. Single steps with their whole outcome: the core's row, cycle and end of the scan, the entry of a `submit`, the start
of READ and WRITE, and what does not act on a faulted or absent core; O2, O13 to O15, O18, O19, O23, O26, O28 and O53 to O58. -/
namespace Sys2Proof.Machine

/-! ### Start-up (rule R139) -/

/-- Settles O2: the data lines start In, so the first switch to Out is effective. -/
theorem resetDataLines : Obligations.ResetDataLines := by
  intro n
  have hin : State.reset.lines.data[n].dir = .input := Lines.dataAll_startUp _ n
  refine ⟨hin, ?_⟩
  obtain ⟨b, k, h, -, hout⟩ := setDir_data (n := n) (d := .output) (s := State.reset) rfl (by rw [hin]; nofun)
  obtain ⟨rfl, -⟩ := hout rfl
  rw [h]
  exact Lines.get_set_self State.reset.lines (.data n) _

/-! ### The core's step inside a submit (rules R75, R95, R102) -/

/-- Settles O13: with the core's turn listed or none. -/
theorem stepRunsDecoded : Obligations.StepRunsDecoded := fun _ _ _ _ hu hs hf hc hd =>
  ⟨fun hts => (step_idleTurns hts).trans (coreStep_row hu hs hf hc hd),
    fun _ hts => (step_coreTurn hts).trans (coreStep_row hu hs hf hc hd)⟩

/-- Settles O14: with the core's turn listed or none. -/
theorem stepRunsCycle : Obligations.StepRunsCycle := fun _ _ _ hu hs hf hc =>
  ⟨fun hts => (step_idleTurns hts).trans (coreStep_cycle hu hs hf hc),
    fun _ hts => (step_coreTurn hts).trans (coreStep_cycle hu hs hf hc)⟩

/-- With the cursor at the end no byte is left to decode (rule R56). -/
theorem decodeNext_drop_length {sc : Scan} (h : sc.pc = sc.buf.length) :
    decodeNext (sc.buf.drop sc.pc) = .error .endOfStream := by
  rw [h, List.drop_length]
  rfl

/-- Settles O15: the exit draw decides the outcome. -/
theorem scanEnds : Obligations.ScanEnds := by
  intro s s0 sc hu hs hf hc hts hpc
  have hstep : step s = .next (finishSubmit sc s) :=
    (step_idleTurns hts).trans (coreStep_end hu hs hf hc (decodeNext_drop_length hpc))
  obtain ⟨xs, n, hframe⟩ := drawExit_frame s
  refine ⟨fun hd => ?_, fun hd => ?_⟩
  all_goals
    rw [hd] at hframe
    rw [hstep, finishSubmit, hd]
    obtain rfl : s0 = _ := hframe
    rfl

/-- Settles O28: every row asks for a `submit` first. -/
theorem nothingOutsideSubmit : Obligations.NothingOutsideSubmit := by
  intro s hs
  have htransfer : ∀ len tx, transfer len tx s = .refused .noSubmit := fun len tx => by simp [transfer, hs]
  have hskip : ∀ f, skipTo f s = .refused .noSubmit := fun f => by simp [skipTo, hs]
  refine ⟨fun i => ?_, coreStep_outside hs⟩
  cases i with
  | read x a => exact htransfer 2 _
  | write x a d => exact htransfer 3 _
  | trailT1 b => exact hskip _
  | trailT2 x a => exact hskip _

/-! ### READ and WRITE (rules R78, R97, R98, R119) -/

/-- On a ready core with an ok draw the cycle begins, and of the rest only the cursor moves. -/
theorem transfer_begins {len : Nat} {tx : BusTransaction} {s s0 : State} {sc : Scan} (hr : s.Ready)
    (hs : s.scan = some sc) (hd : drawResource s = (.ok, s0)) :
    transfer len tx s = .next { s0 with
      scan := some { sc with pc := sc.pc + len }
      lines := { s.lines with dir := ⟨.output, tx.isWrite⟩ }
      trace := s.trace ++ [.evBegin tx, .evSet .dir tx.isWrite]
      cycle := some { cur := tx, now := ⟨2, .idle, .setLine (.addr 7) (tx.address.getLsbD 7)⟩,
                      later := (laterOps tx).tail, byte := 0 } } := by
  obtain ⟨rs, n, hframe⟩ := drawResource_frame s
  rw [hd] at hframe
  obtain rfl : s0 = _ := hframe
  rw [transfer_ok hr hs hd, beginCycle_eq tx (by exact hr.running) (by exact hr.fault) (by exact hr.fixed.dir)]
  simp only [hr.phase]

/-- Settles O18. -/
theorem readBegins : Obligations.ReadBegins := fun _ _ _ _ _ hr hs hd => transfer_begins hr hs hd

/-- Settles O19. -/
theorem writeBegins : Obligations.WriteBegins := fun _ _ _ _ _ _ hr hs hd => transfer_begins hr hs hd

/-- Settles O23: the draw comes before anything else of the row. -/
theorem resourceExhaustedAborts : Obligations.ResourceExhaustedAborts := by
  intro s s0 sc x a d hr hs hd
  obtain ⟨rs, n, hframe⟩ := drawResource_frame s
  have hall : ∀ len tx, transfer len tx s = .next (raise .resourceExhausted s0) := fun _ _ => transfer_exhausted hr hs hd
  rw [hd] at hframe
  obtain rfl : s0 = _ := hframe
  exact ⟨hall 2 _, hall 3 _, rfl, hr.phase, rfl⟩

/-! ### T1 (rule R99) -/

/-- An ok exit draw that is listed ends the scan with its results (rules R102, R110). -/
theorem finishSubmit_ok {s : State} {xs : List ExitDraw} (hx : s.env.exitDraws = .ok :: xs) (sc : Scan) :
    finishSubmit sc s = endSubmit (.ok sc.results sc.buf.length) { s with env := { s.env with exitDraws := xs } } := by
  simp [finishSubmit, drawExit, hx]

/-- Settles O26: the skip, then the end of the scan. -/
theorem trailT1Skips : Obligations.TrailT1Skips := by
  refine ⟨fun s sc b hs => skipTo_scanning _ hs, fun s sc b xs hu hf hc hs hts hbuf hpc hres hx => ?_⟩
  have hrow : decodeNext (sc.buf.drop sc.pc) = .ok (.trailT1 b, []) := by
    rw [hbuf, hpc]
    rfl
  have hskip : step s = .next { s with scan := some { sc with pc := sc.buf.length } } :=
    (step_idleTurns hts).trans ((coreStep_row hu hs hf hc hrow).trans (skipTo_scanning _ hs))
  refine runSteps_trans hskip (runSteps_trans ((step_idleTurns (by exact hts)).trans
    (coreStep_end (by exact hu) rfl (by exact hf) (by exact hc) (decodeNext_drop_length rfl))) ?_)
  rw [finishSubmit_ok (by exact hx), runSteps_zero, hres, hbuf]
  rfl

/-! ### The entry of a submit (rules R94, R110) -/

/-- The holder's `submit` on a core with nothing sticky set is entered. -/
theorem submit_holder {s : State} {c : CallerId} (hh : s.holder = some c) (hw : s.wedged = false) (hf : s.fault = none)
    (stream : List Byte) : submit c ⟨c⟩ stream s = enterSubmit stream s := by
  simp [submit, holdsWith, hh, hw, hf]

section
variable {s s0 : State} {stream : List Byte} {e : EntryDraw}

/-- An ok draw takes the snapshot. -/
theorem enterSubmit_ok (hd : drawEntry (State.emit (.evSubmit stream.length) s) = (.ok, s0))
    (hl : overLength stream s = false) :
    enterSubmit stream s = { s0 with scan := some { buf := stream, pc := 0, results := [] } } := by
  simp [enterSubmit, hd, hl]

/-- A drawn ResourceExhausted, or a stream too long whatever was drawn. -/
theorem enterSubmit_exhausted (hd : drawEntry (State.emit (.evSubmit stream.length) s) = (e, s0))
    (h : overLength stream s = true ∨ e = .resourceExhausted) :
    enterSubmit stream s = raise .resourceExhausted s0 := by
  obtain hl | rfl := h
  · simp [enterSubmit, hd, hl]
  · simp [enterSubmit, hd]

/-- A drawn TransferFault. -/
theorem enterSubmit_transferFault (hd : drawEntry (State.emit (.evSubmit stream.length) s) = (.transferFault, s0))
    (hl : overLength stream s = false) : enterSubmit stream s = raise .transferFault s0 := by
  simp [enterSubmit, hd, hl]

end

/-- Settles O53: the length is tested before the draw is looked at. -/
theorem submitEntry : Obligations.SubmitEntry := by
  intro s s0 c stream e hu hh hw hf hd
  have henter : hostCall c (.submit ⟨c⟩ stream) s = enterSubmit stream s :=
    (hostCall_submit hu c ⟨c⟩ stream).trans (submit_holder hh hw hf stream)
  refine ⟨?_, fun h => henter.trans (enterSubmit_exhausted hd h), ?_, hostCall_lines c _ s⟩
  · rintro hl rfl
    exact henter.trans (enterSubmit_ok hd hl)
  · rintro hl rfl
    exact henter.trans (enterSubmit_transferFault hd hl)

/-- Settles O54: the entry, then the end of the scan. -/
theorem emptyStream : Obligations.EmptyStream := by
  intro s c es xs hu hh hw hf hc hs hts he hx
  have hover : overLength [] s.popTurn = false := by
    unfold overLength
    split
    · exact decide_eq_false (Nat.not_lt_zero _)
    · rfl
  have hdraw : drawEntry { s.popTurn with trace := s.popTurn.trace ++ [.evSubmit ([] : List Byte).length] } =
      (.ok, { s with trace := s.trace ++ [.evSubmit 0], env := { s.env with turns := [], entryDraws := es } }) := by
    simp [drawEntry, he, hts]
  have henter := (submitEntry s.popTurn _ c [] .ok hu hh hw hf hdraw).1 hover rfl
  have hcall : step s = .next (hostCall c (.submit ⟨c⟩ []) s.popTurn) := step_callTurn hts (by simp [callWaits, hs])
  rw [henter] at hcall
  refine runSteps_trans hcall (runSteps_trans ((step_idleTurns rfl).trans
    (coreStep_end (by exact hu) rfl (by exact hf) (by exact hc) (decodeNext_drop_length rfl))) ?_)
  rw [finishSubmit_ok (by exact hx), runSteps_zero]
  simp [endSubmit, State.answer, State.emit, ← hs]

/-! ### Calls during a submit (rules R112, R116, R118) -/

/-- Settles O55. -/
theorem submitIsSynchronous : Obligations.SubmitIsSynchronous := fun _ _ _ _ _ hs hh hts =>
  step_waitingCall hts (by simp [callWaits, hs, hh])

/-- Settles O56: another caller does not wait, and finds the session held. -/
theorem busyDuringSubmit : Obligations.BusyDuringSubmit := by
  intro s sc c c' ts hu hs hh hne hts
  have hw : ¬callWaits c' s = true := by
    simp only [callWaits, hh, Bool.and_eq_true, decide_eq_true_eq]
    exact fun h => hne (Option.some.inj h.2).symm
  rw [step_callTurn hts hw, hostCall_acquire (s := s.popTurn) hu, acquire_held (s := s.popTurn) hh, popTurn_frame, hts]
  rfl

/-! ### Where no core takes steps (rules R123, R143; log 34, log 36) -/

/-- No line operation of a harness acts there. -/
theorem harness_idle {s : State} (h : s.operating = false) :
    (∀ l d, setDir l d s = s) ∧ (∀ l b, setLine l b s = s) ∧ (∀ l, getLine l s = (none, s)) ∧
      (∀ ls v, setBus ls v s = s) ∧ getBus dataBus s = (none, s) := by
  refine ⟨setDir_idle h, setLine_idle h, getLine_idle h, fun _ _ => setLines_idle h, ?_⟩
  rw [getBus, dataBus, getBusFrom, getLine_idle h]

/-- Settles O57: the sticky fault alone stops the core, the harness and every later `submit`. -/
theorem faultedCoreStops : Obligations.FaultedCoreStops := by
  intro s hu hf
  have hne : s.fault ≠ none := by rw [hf]; nofun
  obtain ⟨hdir, hline, hget, hset, hgetBus⟩ := harness_idle (operating_faulted hne)
  refine ⟨fun hs => ?_, coreStep_outside, hdir, hline, hget, hset, hgetBus, fun c h stream =>
    (callsRefused s c h stream hu).2 (.inr (.inr (.inr hne)))⟩
  obtain ⟨sc, hs⟩ := Option.ne_none_iff_exists'.1 hs
  simp [coreStep, hu, hs, hf]

/-- Settles O58: with `up` false there is no core, and a `submit` in progress keeps it true. -/
theorem shutdownEnds : Obligations.ShutdownEnds := by
  intro s hu
  refine ⟨fun hs => ?_, shutDown_submitting hu⟩
  have hdown : shutDown s = { s with up := false } := by simp [shutDown, hu, hs]
  rw [hdown]
  exact ⟨rfl, rfl, fun _ _ => rfl, harness_idle rfl⟩

end Sys2Proof.Machine
end

section
/-! SUPPORT. The whole write cycle and the whole read cycle, part after part: O20, O21 and O22 (rules R81 to R84, R89, R90, R97,
R98). -/
namespace Sys2Proof.Machine

/-! ### The parts of a cycle, from and to states of one form -/

/-- A state reached from `s` inside a cycle: the lines, the events since, the turns left, the levels the peer drives and the
count of free values. -/
def State.midCycle (s : State) (ls : Lines) (evs : List Event) (ts : List Turn) (u : PeerDrive) (n : Nat) : State :=
  { s with lines := ls, trace := s.trace ++ evs, env := { s.env with turns := ts, peer := u, drawn := n } }

/-- A cycle can go on: the driver runs, inside a `submit`, with no fault. -/
structure State.Cycling (s : State) : Prop where
  up : s.up = true
  scan : s.scan ≠ none
  fault : s.fault = none

section
variable {s : State} {c : Cycle} {k : Nat} {p : Phase} {tail : List CycleOp} {ls : Lines} {evs : List Event}
  {ts : List Turn} {u : PeerDrive} {n : Nat}

/-- A `SetBus` of the address (rule R70). -/
theorem midCycle_address (h : s.Cycling) (hd : ∀ n : Fin 8, ls.addr[n].dir = .output) (a : Byte) :
    runSteps 8 (advance { c with later := cycleStep k p (setBusOps addrBus a) ++ tail }
        (s.midCycle ls evs (List.replicate 8 Turn.core ++ ts) u n)) =
      .next (advance { c with later := tail }
        (s.midCycle { ls with addr := busLines .output a } (evs ++ setBusEvents addrBus a) ts u n)) := by
  refine (run_address (s := s.midCycle ls evs (List.replicate 8 Turn.core ++ ts) u n) h.up h.scan h.fault rfl hd).trans ?_
  simp only [State.midCycle, List.append_assoc]

/-- The direction changes and the data byte of a write cycle (rule R81). -/
theorem midCycle_dataOut (h : s.Cycling) (d : Byte) {m : Nat} (hm : (turningLines ls .output).length = m) :
    runSteps (m + 8) (advance { c with later := cycleStep k p (dataBus.map fun l => .setDir l .output)
          ++ (cycleStep k p (setBusOps dataBus d) ++ tail) }
        (s.midCycle ls evs (List.replicate m Turn.core ++ (List.replicate 8 Turn.core ++ ts)) u n)) =
      .next (advance { c with later := tail }
        (s.midCycle { ls with data := busLines .output d }
          (evs ++ ((turningLines ls .output).map (fun l => Event.evDir l .output) ++ setBusEvents dataBus d)) ts u (n + m))) := by
  subst hm
  have hrun := run_dataOut (c := c) (k := k) (p := p) (v := d) (tail := tail) (ts := ts)
    (s := s.midCycle ls evs (List.replicate (turningLines ls .output).length Turn.core ++ (List.replicate 8 Turn.core ++ ts)) u n)
    h.up h.scan h.fault rfl
  simp only [State.midCycle, List.append_assoc] at hrun ⊢
  exact hrun

/-- The direction changes of a read cycle (rule R82). -/
theorem midCycle_dataIn (h : s.Cycling) {m : Nat} (hm : (turningLines ls .input).length = m) :
    runSteps m (advance { c with later := cycleStep k p (dataBus.map fun l => .setDir l .input) ++ tail }
        (s.midCycle ls evs (List.replicate m Turn.core ++ ts) u n)) =
      .next (advance { c with later := tail }
        (s.midCycle { ls with data := allInput ls.data }
          (evs ++ (turningLines ls .input).map fun l => Event.evDir l .input) ts u n)) := by
  subst hm
  have hrun := run_dataIn (c := c) (k := k) (p := p) (tail := tail) (ts := ts)
    (s := s.midCycle ls evs (List.replicate (turningLines ls .input).length Turn.core ++ ts) u n) h.up h.scan h.fault rfl
  simp only [State.midCycle, List.append_assoc] at hrun ⊢
  exact hrun

/-- A cycle's first step, with its other operations left (rules R81, R82 step 1). -/
theorem beginCycle_midCycle (tx : BusTransaction) (h : s.Cycling) (hd : s.lines.dir.dir = .output) :
    beginCycle tx s = advance { Cycle.start tx with later := laterOps tx }
      (s.midCycle { s.lines with dir := ⟨.output, tx.isWrite⟩ } [.evBegin tx, .evSet .dir tx.isWrite] s.env.turns
        s.env.peer s.env.drawn) :=
  beginCycle_advance tx h.up h.fault hd

end

/-! ### The turns and the operations, part after part -/

/-- The turns before REQ = 1, its wait, the turns before REQ = 0, its wait. -/
theorem cycleTurns_append (before p between q : Nat) (u dn : PeerDrive) (rest : List Turn) :
    cycleTurns before p between q u dn ++ rest =
      List.replicate before Turn.core ++ (List.replicate p Turn.core ++ Turn.peer u ::
        (List.replicate between Turn.core ++ (List.replicate q Turn.core ++ Turn.peer dn :: Turn.core :: rest))) := by
  simp only [cycleTurns, List.replicate_add, List.append_assoc, List.cons_append, List.nil_append]

theorem laterOps_write (a d : Byte) :
    laterOps (.write a d) = cycleStep 2 .idle (setBusOps addrBus a)
      ++ (cycleStep 3 .idle (dataBus.map fun l => .setDir l .output) ++ (cycleStep 3 .idle (setBusOps dataBus d)
      ++ (cycleStep 4 .addressAndDataAsserted [.setLine .req true] ++ (cycleStep 5 .requestAsserted [.waitAck true]
      ++ (cycleStep 6 .peerAcknowledged [.setLine .req false]
      ++ cycleStep 7 .requestDeasserted [.waitAck false]))))) := by
  simp only [laterOps, writeOps, List.append_assoc]

theorem laterOps_read (a : Byte) :
    laterOps (.read a) = cycleStep 2 .idle (setBusOps addrBus a)
      ++ (cycleStep 3 .idle (dataBus.map fun l => .setDir l .input)
      ++ (cycleStep 4 .addressAndDataAsserted [.setLine .req true] ++ (cycleStep 5 .requestAsserted [.waitAck true]
      ++ (cycleStep 6 .peerAcknowledged (dataBus.map .getLine) ++ (cycleStep 7 .peerAcknowledged [.setLine .req false]
      ++ cycleStep 8 .requestDeasserted [.waitAck false]))))) := by
  simp only [laterOps, readOps, List.append_assoc]

/-! ### The cycles -/

/-- A Write hands the decoder no byte (rule R83). -/
theorem map_collect_none (sc : Option Scan) : sc.map (Scan.collect none) = sc := by
  cases sc <;> rfl

theorem writeCycle_result (a d : Byte) : (Cycle.start (.write a d)).result = none := rfl

/-- A Read hands it the byte sampled (rule R84). -/
theorem readCycle_result (a r : Byte) : Cycle.result { Cycle.start (.read a) with byte := r } = some r := rfl

theorem dataAll_allInput (v : Vector LineState 8) (n : Fin 8) : (allInput v)[n].dir = .input := by
  simp [allInput]

/-- The write cycle from its first step to its end (rule R81). -/
theorem run_writeCycle {s : State} {a d : Byte} {p q k : Nat} {u dn : PeerDrive} {rest : List Turn} (h : s.Cycling)
    (hfix : s.lines.FixedDirections) (hp : s.env.peer.ack = some false)
    (hub : u.ack = some true) (hdb : dn.ack = some false) (hwp : waitsWithin s.params p) (hwq : waitsWithin s.params q)
    (hk : (turningLines s.lines .output).length = k) (ht : s.env.turns = cycleTurns (17 + k) p 2 q u dn ++ rest) :
    runSteps (22 + k + p + q) (beginCycle (.write a d) s) = .next { s with
        lines := s.lines.afterWrite a d
        phase := .idle
        cycle := none
        polls := 0
        trace := s.trace ++ writeEvents s.lines a d p q
        env := { s.env with turns := rest, peer := dn, drawn := s.env.drawn + k } } := by
  have hturns : s.env.turns = List.replicate 8 Turn.core ++ (List.replicate k Turn.core ++ (List.replicate 8 Turn.core ++
      Turn.core :: (List.replicate p Turn.core ++ Turn.peer u :: Turn.core :: Turn.core ::
        (List.replicate q Turn.core ++ Turn.peer dn :: Turn.core :: rest)))) := by
    rw [ht, cycleTurns_append, show 17 + k = 8 + (k + (8 + 1)) by omega]
    simp only [List.replicate_add, List.append_assoc]
    rfl
  rw [beginCycle_midCycle _ h hfix.dir, hturns, laterOps_write,
    show 22 + k + p + q = 8 + ((k + 8) + (1 + ((p + 2) + (1 + (q + 2))))) by omega]
  refine runSteps_append (midCycle_address h (by exact hfix.addr) a) ?_
  refine runSteps_append (midCycle_dataOut h d ((congrArg _ (turningLines_data .output rfl)).trans hk)) ?_
  refine (run_writeHandshake (s := s.midCycle _ _ _ _ _) p q h.up h.scan h.fault (by exact hfix.req) (by exact hp) hub hdb
    hwp hwq rfl).trans ?_
  simp only [finishCycle_eq, writeCycle_result, map_collect_none, State.midCycle, writeEvents, List.append_assoc,
    List.cons_append, List.nil_append]
  rfl

/-- The read cycle from its first step to its end (rule R82). -/
theorem run_readCycle {s : State} {a r : Byte} {p q k : Nat} {dn : PeerDrive} {rest : List Turn} (h : s.Cycling)
    (hfix : s.lines.FixedDirections) (hp : s.env.peer.ack = some false) (hdb : dn.ack = some false)
    (hwp : waitsWithin s.params p) (hwq : waitsWithin s.params q) (hk : (turningLines s.lines .input).length = k)
    (ht : s.env.turns = cycleTurns (9 + k) p 10 q (PeerDrive.acking true r) dn ++ rest) :
    runSteps (22 + k + p + q) (beginCycle (.read a) s) = .next { s with
        lines := s.lines.afterRead a
        phase := .idle
        cycle := none
        polls := 0
        scan := s.scan.map (Scan.collect (some r))
        trace := s.trace ++ readEvents s.lines a r p q
        env := { s.env with turns := rest, peer := dn } } := by
  have hturns : s.env.turns = List.replicate 8 Turn.core ++ (List.replicate k Turn.core ++
      Turn.core :: (List.replicate p Turn.core ++ Turn.peer (PeerDrive.acking true r) :: Turn.core ::
        (List.replicate 8 Turn.core ++ Turn.core ::
          (List.replicate q Turn.core ++ Turn.peer dn :: Turn.core :: rest)))) := by
    rw [ht, cycleTurns_append, show 9 + k = 8 + (k + 1) by omega, show 10 = 1 + (8 + 1) by rfl]
    simp only [List.replicate_add, List.append_assoc]
    rfl
  rw [beginCycle_midCycle _ h hfix.dir, hturns, laterOps_read,
    show 22 + k + p + q = 8 + (k + (1 + ((p + 2) + (8 + (1 + (q + 2)))))) by omega]
  refine runSteps_append (midCycle_address h (by exact hfix.addr) a) ?_
  refine runSteps_append (midCycle_dataIn h ((congrArg _ (turningLines_data .input rfl)).trans hk)) ?_
  refine (run_readHandshake (s := s.midCycle _ _ _ _ _) p q h.up h.scan h.fault (by exact hfix.req)
    (by exact dataAll_allInput s.lines.data) (by exact hp) hdb hwp hwq rfl).trans ?_
  simp only [finishCycle_eq, readCycle_result, State.midCycle, readEvents, List.append_assoc,
    List.cons_append, List.nil_append]
  rfl

/-! ### The instructions -/

/-- Settles O20: the cycle from the state that the draw and the cursor leave. -/
theorem writeCompletes : Obligations.WriteCompletes := by
  intro s s0 sc x a d p q u dn rest hr hs hd hp hub hdb hwp hwq hts
  obtain ⟨rs, n, hframe⟩ := drawResource_frame s
  rw [hd] at hframe
  obtain rfl : s0 = _ := hframe
  let s' : State :=
    { s with scan := some { sc with pc := sc.pc + 3 }, env := { s.env with resourceDraws := rs, drawn := n } }
  have hrun := run_writeCycle (s := s') (a := a) (d := d) ⟨hr.running, nofun, hr.fault⟩ hr.fixed hp hub hdb hwp hwq rfl hts
  refine ⟨_, transfer_ok hr hs hd, hrun.trans ?_⟩
  simp only [hr.phase, hr.cycle]
  rfl

/-- Settles O21: the cycle from the state that the draw and the cursor leave. -/
theorem readCompletes : Obligations.ReadCompletes := by
  intro s s0 sc x a r p q dn rest hr hs hd hp hdb hwp hwq hts
  obtain ⟨rs, n, hframe⟩ := drawResource_frame s
  rw [hd] at hframe
  obtain rfl : s0 = _ := hframe
  let s' : State :=
    { s with scan := some { sc with pc := sc.pc + 2 }, env := { s.env with resourceDraws := rs, drawn := n } }
  have hrun := run_readCycle (s := s') (a := a) ⟨hr.running, nofun, hr.fault⟩ hr.fixed hp hdb hwp hwq rfl hts
  refine ⟨_, transfer_ok hr hs hd, hrun.trans ?_⟩
  simp only [hr.phase, hr.cycle]
  rfl

/-! ### The events of a cycle (rules R89, R90) -/

/-- A list of line events and nothing else. -/
theorem lineEvents_eq_length {evs : List Event} (h : ∀ ev ∈ evs, ev.isLine = true) : lineEvents evs = evs.length := by
  rw [lineEvents, List.filter_eq_self.2 h]

theorem lineEvents_setBus (line : Fin 8 → Line) (v : Byte) : lineEvents (setBusEvents (dataNumbers.map line) v) = 8 := rfl

theorem lineEvents_getBus (line : Fin 8 → Line) (v : Byte) : lineEvents (getBusEvents (dataNumbers.map line) v) = 8 := rfl

theorem lineEvents_turns (ls : List Line) (d : Direction) : lineEvents (ls.map fun l => .evDir l d) = ls.length := by
  rw [lineEvents_eq_length (by simp [Event.isLine]), List.length_map]

theorem lineEvents_polls (n : Nat) (b : Level) : lineEvents (List.replicate n (.evGet .ack b)) = n := by
  rw [lineEvents_eq_length (by simp [Event.isLine]), List.length_replicate]

theorem lineEvents_write (ls : Lines) (a d : Byte) (p q : Nat) :
    lineEvents (writeEvents ls a d p q) = 21 + (turningLines ls .output).length + p + q := by
  have haddr : lineEvents (setBusEvents addrBus a) = 8 := lineEvents_setBus .addr a
  have hdata : lineEvents (setBusEvents dataBus d) = 8 := lineEvents_setBus .data d
  simp only [writeEvents, lineEvents_append, haddr, hdata, lineEvents_turns, lineEvents_polls]
  simp only [lineEvents, List.filter, Event.isLine, List.length_cons, List.length_nil]
  omega

theorem lineEvents_read (ls : Lines) (a r : Byte) (p q : Nat) :
    lineEvents (readEvents ls a r p q) = 21 + (turningLines ls .input).length + p + q := by
  have haddr : lineEvents (setBusEvents addrBus a) = 8 := lineEvents_setBus .addr a
  have hdata : lineEvents (getBusEvents dataBus r) = 8 := lineEvents_getBus .data r
  simp only [readEvents, lineEvents_append, haddr, hdata, lineEvents_turns, lineEvents_polls]
  simp only [lineEvents, List.filter, Event.isLine, List.length_cons, List.length_nil]
  omega

theorem turningLines_length_le (ls : Lines) (d : Direction) : (turningLines ls d).length ≤ 8 :=
  List.length_filter_le _ dataBus

/-- Settles O22: the events of the whole cycles, counted. -/
theorem cycleTraceLength : Obligations.CycleTraceLength := by
  constructor
  · intro s s0 sc x a d p q u dn rest hr hs hd hp hub hdb hwp hwq hts
    obtain ⟨s1, hx, hrun⟩ := writeCompletes s s0 sc x a d p q u dn rest hr hs hd hp hub hdb hwp hwq hts
    refine ⟨turningLines_length_le _ _, s1, _, hx, hrun, ?_, ?_⟩
    · obtain ⟨rs, n, hframe⟩ := drawResource_frame s
      rw [hd] at hframe
      exact (congrArg State.phase hframe).trans hr.phase
    · rw [lineEvents_append, lineEvents_write]
      omega
  · intro s s0 sc x a r p q dn rest hr hs hd hp hdb hwp hwq hts
    obtain ⟨s1, hx, hrun⟩ := readCompletes s s0 sc x a r p q dn rest hr hs hd hp hdb hwp hwq hts
    refine ⟨turningLines_length_le _ _, s1, _, hx, hrun, ?_, ?_⟩
    · obtain ⟨rs, n, hframe⟩ := drawResource_frame s
      rw [hd] at hframe
      exact (congrArg State.phase hframe).trans hr.phase
    · rw [lineEvents_append, lineEvents_read]
      omega

end Sys2Proof.Machine
end

section
/-! SUPPORT. The core's steps with no turn listed against those with its turns listed, and which lines an event stands for: what
a run against F-ECHO takes over from a run of the core (log 2, log 32). -/
namespace Sys2Proof.Machine

/-! ### The core does not look at the turns -/

section
variable (ts : List Turn)

theorem drawLevel_withTurns (l : Line) (s : State) :
    drawLevel l (s.withTurns ts) = ((drawLevel l s).1, (drawLevel l s).2.withTurns ts) := by
  have hp : (s.withTurns ts).env.peer = s.env.peer := rfl
  unfold drawLevel
  rw [hp]
  split <;> rfl

theorem setDir_withTurns (l : Line) (d : Direction) (s : State) :
    setDir l d (s.withTurns ts) = (setDir l d s).withTurns ts := by
  have ho : (s.withTurns ts).operating = s.operating := rfl
  have hl : (s.withTurns ts).lines = s.lines := rfl
  unfold setDir
  rw [ho, hl]
  split
  · rfl
  · cases l with
    | data n =>
      dsimp only
      split
      · rfl
      · cases d <;> rfl
    | req | ack | dir | addr n => rfl

theorem setLine_withTurns (l : Line) (b : Level) (s : State) :
    setLine l b (s.withTurns ts) = (setLine l b s).withTurns ts := by
  have ho : (s.withTurns ts).operating = s.operating := rfl
  have hl : (s.withTurns ts).lines = s.lines := rfl
  unfold setLine
  rw [ho, hl]
  repeat' split
  all_goals rfl

theorem getLine_withTurns (l : Line) (s : State) :
    getLine l (s.withTurns ts) = ((getLine l s).1, (getLine l s).2.withTurns ts) := by
  have ho : (s.withTurns ts).operating = s.operating := rfl
  have hl : (s.withTurns ts).lines = s.lines := rfl
  unfold getLine
  rw [ho, hl, drawLevel_withTurns]
  repeat' split
  all_goals rfl

theorem advance_withTurns (c : Cycle) (s : State) : advance c (s.withTurns ts) = (advance c s).withTurns ts := by
  have hf : (s.withTurns ts).fault = s.fault := rfl
  have hl : (s.withTurns ts).lines = s.lines := rfl
  unfold advance
  rw [hf, hl]
  repeat' split
  all_goals rfl

theorem pollAgain_withTurns (s : State) : pollAgain (s.withTurns ts) = (pollAgain s).withTurns ts := by
  have hp : (s.withTurns ts).params = s.params := rfl
  have hk : (s.withTurns ts).polls = s.polls := rfl
  unfold pollAgain
  rw [hp, hk]
  repeat' split
  all_goals rfl

theorem engineStep_withTurns (c : Cycle) (s : State) :
    engineStep c (s.withTurns ts) = (engineStep c s).withTurns ts := by
  unfold engineStep
  cases c.now.op with
  | setDir l d =>
    dsimp only
    rw [setDir_withTurns, advance_withTurns]
  | setLine l b =>
    dsimp only
    rw [setLine_withTurns, advance_withTurns]
  | getLine l =>
    dsimp only
    rw [getLine_withTurns]
    obtain ⟨_ | b, s₁⟩ := getLine l s
    · rfl
    · exact advance_withTurns ts _ s₁
  | waitAck b =>
    dsimp only
    rw [getLine_withTurns]
    obtain ⟨_ | x, s₁⟩ := getLine .ack s
    · rfl
    · dsimp only
      split
      · exact advance_withTurns ts c s₁
      · exact pollAgain_withTurns ts s₁

theorem drawResource_withTurns (s : State) :
    drawResource (s.withTurns ts) = ((drawResource s).1, (drawResource s).2.withTurns ts) := by
  have hd : (s.withTurns ts).env.resourceDraws = s.env.resourceDraws := rfl
  unfold drawResource
  rw [hd]
  split <;> rfl

theorem drawExit_withTurns (s : State) :
    drawExit (s.withTurns ts) = ((drawExit s).1, (drawExit s).2.withTurns ts) := by
  have hd : (s.withTurns ts).env.exitDraws = s.env.exitDraws := rfl
  unfold drawExit
  rw [hd]
  split <;> rfl

theorem beginCycle_withTurns (tx : BusTransaction) (s : State) :
    beginCycle tx (s.withTurns ts) = (beginCycle tx s).withTurns ts :=
  engineStep_withTurns ts (Cycle.start tx) (State.emit (.evBegin tx) { s with cycle := some (Cycle.start tx) })

theorem transfer_withTurns {len : Nat} {tx : BusTransaction} {s t : State} (h : transfer len tx s = .next t) :
    transfer len tx (s.withTurns ts) = .next (t.withTurns ts) := by
  obtain ⟨sc, hs, hf, hw, hp, hc, hdraw⟩ := transfer_next h
  have hs' : (s.withTurns ts).scan = some sc := hs
  have hf' : (s.withTurns ts).fault = none := hf
  have hw' : (s.withTurns ts).wedged = false := hw
  have hp' : (s.withTurns ts).phase = .idle := hp
  have hc' : (s.withTurns ts).cycle = none := hc
  obtain ⟨hd, rfl⟩ | ⟨hd, rfl⟩ := hdraw
  · simp only [transfer, hs', hf', hw', hp', hc', drawResource_withTurns, hd]
    rfl
  · simp only [transfer, hs', hf', hw', hp', hc', drawResource_withTurns, hd]
    rw [← beginCycle_withTurns]
    rfl

theorem exec_withTurns {i : Instr} {s t : State} (h : exec i s = .next t) :
    exec i (s.withTurns ts) = .next (t.withTurns ts) := by
  have skips : ∀ {f}, skipTo f s = .next t → skipTo f (s.withTurns ts) = .next (t.withTurns ts) := fun h => by
    obtain ⟨sc, hs, rfl⟩ := skipTo_next h
    exact skipTo_scanning (s := s.withTurns ts) _ hs
  cases i with
  | read x a => exact transfer_withTurns ts h
  | write x a d => exact transfer_withTurns ts h
  | trailT1 b => exact skips h
  | trailT2 x a => exact skips h

theorem finishSubmit_withTurns (sc : Scan) (s : State) :
    finishSubmit sc (s.withTurns ts) = (finishSubmit sc s).withTurns ts := by
  unfold finishSubmit
  rw [drawExit_withTurns]
  obtain ⟨_ | _, s₁⟩ := drawExit s
  · rfl
  · rfl

/-- A step of the core is the same whatever turns are listed. -/
theorem coreStep_withTurns {s t : State} (h : coreStep s = .next t) :
    coreStep (s.withTurns ts) = .next (t.withTurns ts) := by
  obtain ⟨rfl, hu | hs⟩ | ⟨sc, hu, hs, hf, ⟨c, hc, rfl⟩ | ⟨hc, i, rest, hd, hx⟩ | ⟨hc, hd, rfl⟩⟩ := coreStep_next h
  · have hu' : (t.withTurns ts).up = false := hu
    simp [coreStep, hu']
  · exact coreStep_outside hs
  · rw [← engineStep_withTurns]
    exact coreStep_cycle (s := s.withTurns ts) hu hs hf hc
  · exact (coreStep_row (s := s.withTurns ts) hu hs hf hc hd).trans (exec_withTurns ts hx)
  · rw [← finishSubmit_withTurns]
    exact coreStep_end (s := s.withTurns ts) hu hs hf hc hd

end

/-! ### The core changes neither the turns nor the peer's levels -/

/-- The turns left and the levels the peer drives are the same. -/
def State.SameWorld (s t : State) : Prop := t.env.turns = s.env.turns ∧ t.env.peer = s.env.peer

theorem engineStep_sameWorld (c : Cycle) (s : State) : s.SameWorld (engineStep c s) := by
  obtain ⟨s₁, ⟨ls, f, tr, n, rfl⟩, h | ⟨v, h⟩ | h⟩ := engineStep_lineFrame c s
  · rw [h]
    exact ⟨rfl, rfl⟩
  · obtain ⟨p, cy, k, sc, tr', ha, -⟩ := advance_frame { c with byte := v }
      { s with lines := ls, fault := f, trace := tr, env := { s.env with drawn := n } }
    rw [h, ha]
    exact ⟨rfl, rfl⟩
  · obtain ⟨k, sc, w, tr', rp, ha, -⟩ := pollAgain_frame
      { s with lines := ls, fault := f, trace := tr, env := { s.env with drawn := n } }
    rw [h, ha]
    exact ⟨rfl, rfl⟩

theorem exec_sameWorld {i : Instr} {s t : State} (h : exec i s = .next t) : s.SameWorld t := by
  have transfers : ∀ {len tx}, transfer len tx s = .next t → s.SameWorld t := fun h => by
    obtain ⟨b, f, p, c, sc, tr, rp, rs, n, rfl, -⟩ := transfer_frame h
    exact ⟨rfl, rfl⟩
  cases i with
  | read x a => exact transfers h
  | write x a d => exact transfers h
  | trailT1 b | trailT2 x a =>
    obtain ⟨sc, -, rfl⟩ := skipTo_next h
    exact ⟨rfl, rfl⟩

theorem finishSubmit_sameWorld (sc : Scan) (s : State) : s.SameWorld (finishSubmit sc s) := by
  obtain ⟨xs, n, hd⟩ := drawExit_frame s
  unfold finishSubmit
  split <;> rename_i h <;> rw [h] at hd <;> obtain rfl := hd <;> exact ⟨rfl, rfl⟩

theorem coreStep_sameWorld {s t : State} (h : coreStep s = .next t) : s.SameWorld t := by
  obtain ⟨rfl, -⟩ | ⟨sc, -, -, -, ⟨c, -, rfl⟩ | ⟨-, i, rest, -, hx⟩ | ⟨-, -, rfl⟩⟩ := coreStep_next h
  · exact ⟨rfl, rfl⟩
  · exact engineStep_sameWorld c s
  · exact exec_sameWorld hx
  · exact finishSubmit_sameWorld sc s

/-! ### A line that changes has an event -/

/-- The event is one of a change of line `l`. -/
def Event.drives : Event → Line → Bool
  | .evDir l' _, l => l' = l
  | .evSet l' _, l => l' = l
  | .evGet _ _, _ => false
  | .evBegin _, _ => false
  | .evEnd _ _, _ => false
  | .evSubmit _, _ => false
  | .evReturn _, _ => false

theorem drives_eventOf {op : LineOp} {ev : Event} (h : eventOf op ev = true) (l : Line) :
    ev.drives l = op.drives l := by
  cases op with
  | setDir l' d =>
    obtain rfl : ev = .evDir l' d := by simpa [eventOf] using h
    rfl
  | setLine l' b =>
    obtain rfl : ev = .evSet l' b := by simpa [eventOf] using h
    rfl
  | getLine l' =>
    obtain rfl | rfl : ev = .evGet l' false ∨ ev = .evGet l' true := by simpa [eventOf] using h
    · rfl
    · rfl
  | waitAck b =>
    obtain rfl | rfl : ev = .evGet .ack false ∨ ev = .evGet .ack true := by simpa [eventOf] using h
    · rfl
    · rfl

/-- A move of the core appends events, and a line none of them stands for is as it was. -/
theorem CoreMove.lines_of_events {s t : State} (m : CoreMove s t) :
    ∃ evs, t.trace = s.trace ++ evs ∧ ∀ l, (∀ ev ∈ evs, ev.drives l = false) → t.lines.get l = s.lines.get l := by
  cases m with
  | idle hs => exact ⟨[], (List.append_nil _).symm, fun _ _ => rfl⟩
  | @engine c _ hs hc m =>
    obtain ⟨ev, marks, htr, -, hop, -⟩ := m.events
    refine ⟨ev :: marks, htr, fun l hl => ?_⟩
    have hn : c.now.op.drives l = false := by
      rw [← drives_eventOf hop]
      exact hl ev List.mem_cons_self
    cases m with
    | ended v hp hl' => exact hp.get_of_not_drives hn
    | entered v hp hd => exact hp.get_of_not_drives hn
    | again hp hb => exact hp.get_of_not_drives hn
    | timedOut hp hb => exact hp.get_of_not_drives hn
  | skipped hs hc hk => exact ⟨[], (List.append_nil _).symm, fun _ _ => rfl⟩
  | begun tx e hs hc hk =>
    refine ⟨_, rfl, fun l hl => ?_⟩
    have hdir : l ≠ .dir := by
      rintro rfl
      cases hl (.evSet .dir tx.isWrite) (by simp)
    exact Lines.get_set_ne s.lines (l := .dir) ⟨.output, tx.isWrite⟩ hdir
  | returned o e hs hc ho => exact ⟨_, rfl, fun _ _ => rfl⟩

end Sys2Proof.Machine
end

section
/-! SUPPORT. The machine closed with F-ECHO: steps of the pair against steps of the core, the two cycles against F-ECHO, and O60
(rules R37, R81, R82; log 32). -/
namespace Sys2Proof.Machine

/-! ### The pair runs as the core does while REQ is still -/

theorem echoRun_succ {x y : EchoSystem} (h : echoStep x = .next y) (n : Nat) : echoRun (n + 1) x = echoRun n y := by
  rw [echoRun, h]

theorem echoRun_append {m n : Nat} {x y z : EchoSystem} (h : echoRun m x = .next y) (h' : echoRun n y = .next z) :
    echoRun (m + n) x = .next z := by
  induction m generalizing x with
  | zero =>
    cases h
    rw [Nat.zero_add]
    exact h'
  | succ m ih =>
    rw [echoRun] at h
    cases hx : echoStep x with
    | next x' =>
      rw [hx] at h
      rw [Nat.succ_add, echoRun_succ hx]
      exact ih h
    | fault r =>
      rw [hx] at h
      cases h
    | refused r =>
      rw [hx] at h
      cases h

/-- A step of the pair is a step of the machine against the levels F-ECHO drives, and F-ECHO's reaction. -/
theorem echoStep_next {s t : State} {e : EchoPeer} (h : step (peerMove (e.drive s.lines) s) = .next t) :
    echoStep ⟨s, e⟩ = .next ⟨t, e.react s.lines t.lines⟩ := by
  simp only [echoStep, h]

/-- F-ECHO reacts to a change of REQ only. -/
theorem react_of_req {e : EchoPeer} {ls ls' : Lines} (h : ls'.req = ls.req) : e.react ls ls' = e :=
  if_pos (by rw [h])

/-- A step that leaves REQ as it is. -/
theorem echoRun_of_step {s t : State} {e : EchoPeer} (h : step (peerMove (e.drive s.lines) s) = .next t)
    (hr : t.lines.req = s.lines.req) : echoRun 1 ⟨s, e⟩ = .next ⟨t, e⟩ :=
  (echoRun_succ (echoStep_next h) 0).trans
    (congrArg (fun e' => Host.Outcome.next (EchoSystem.mk t e')) (react_of_req hr))

/-- What F-ECHO drives depends on the address lines at most, and only while it drives data. -/
theorem drive_congr {e : EchoPeer} {ls ls' : Lines} (h : e.drv = true → ls'.addr = ls.addr) :
    e.drive ls' = e.drive ls := by
  unfold EchoPeer.drive
  split
  case isTrue hd => rw [h hd]
  case isFalse => rfl

/-- The events of a run change neither REQ nor, while F-ECHO drives data, the address. -/
def EchoPeer.unmovedBy (e : EchoPeer) (evs : List Event) : Prop :=
  ∀ ev ∈ evs, ev.drives .req = false ∧ (e.drv = true → ∀ n, ev.drives (.addr n) = false)

/-- Such a step leaves what F-ECHO reacts to and what it drives. -/
theorem EchoPeer.unmovedBy.lines {e : EchoPeer} {evs : List Event} (he : e.unmovedBy evs) {ls ls' : Lines}
    (h : ∀ l, (∀ ev ∈ evs, ev.drives l = false) → ls'.get l = ls.get l) :
    e.react ls ls' = e ∧ e.drive ls' = e.drive ls := by
  refine ⟨react_of_req (h .req fun ev hev => (he ev hev).1), drive_congr fun hd => ?_⟩
  exact Vector.ext fun i hi => h (.addr ⟨i, hi⟩) fun ev hev => (he ev hev).2 hd _

/-- A run of the core with its turns listed is one of the pair with none listed, if F-ECHO stays as it is. -/
theorem echoRun_of_runSteps (e : EchoPeer) {n : Nat} {s t : State} (hi : s.Inv)
    (h : runSteps n (s.withTurns (List.replicate n Turn.core)) = .next t) :
    ∃ evs, t.trace = s.trace ++ evs ∧ (s.env.peer = e.drive s.lines → e.unmovedBy evs →
      echoRun n ⟨s.withTurns [], e⟩ = .next ⟨t.withTurns [], e⟩) := by
  induction n generalizing s with
  | zero =>
    cases h
    exact ⟨[], (List.append_nil _).symm, fun _ _ => rfl⟩
  | succ n ih =>
    have hi' : ∀ ts, (s.withTurns ts).Inv := fun ts => hi.framed s.params s.trace s.replies _
    obtain ⟨u, hu⟩ := coreStep_goes (hi' (List.replicate n Turn.core))
    have hstep : step (s.withTurns (List.replicate (n + 1) Turn.core)) = .next u := (step_coreTurn rfl).trans hu
    obtain ⟨hturns, hpeer⟩ := coreStep_sameWorld hu
    obtain ⟨evs, htr, hlines⟩ := (coreStep_moves (hi' _) hu).lines_of_events
    have hwith : u.withTurns (List.replicate n Turn.core) = u := congrArg (u.withTurns ·) hturns.symm
    rw [runSteps_succ hstep, ← hwith] at h
    obtain ⟨evs', htr', hrun⟩ := ih (stepKeepsInv _ u (hi' _) hstep) h
    refine ⟨evs ++ evs', by rw [htr', htr, List.append_assoc]; rfl, fun hp he => ?_⟩
    obtain ⟨he, he'⟩ := List.forall_mem_append.1 he
    obtain ⟨hreact, hdrive⟩ := EchoPeer.unmovedBy.lines he hlines
    have hcore : step (peerMove (e.drive s.lines) (s.withTurns [])) = .next (u.withTurns []) := by
      rw [← hp]
      refine (step_idleTurns rfl).trans ?_
      exact coreStep_withTurns (s := s.withTurns (List.replicate n Turn.core)) [] hu
    have hecho : echoStep ⟨s.withTurns [], e⟩ = .next ⟨u.withTurns [], e⟩ :=
      (echoStep_next hcore).trans (congrArg (fun e' => Host.Outcome.next (EchoSystem.mk (u.withTurns []) e')) hreact)
    exact (echoRun_succ hecho n).trans (hrun ((hpeer.trans hp).trans hdrive.symm) he')

/-- The pair keeps the invariant of the machine. -/
theorem echoRun_inv {n : Nat} {s t : State} {e e' : EchoPeer} (hi : s.Inv)
    (h : echoRun n ⟨s, e⟩ = .next ⟨t, e'⟩) : t.Inv := by
  induction n generalizing s e with
  | zero =>
    cases h
    exact hi
  | succ n ih =>
    have hi' : (peerMove (e.drive s.lines) s).Inv := hi.framed s.params s.trace s.replies _
    obtain ⟨u, hu⟩ := stepNeverStops _ hi'
    have hecho : echoStep ⟨s, e⟩ = .next ⟨u, e.react s.lines u.lines⟩ := echoStep_next hu
    rw [echoRun_succ hecho] at h
    exact ih (stepKeepsInv _ u hi' hu) h

/-! ### One step of a cycle against F-ECHO -/

/-- A state reached from `s` inside the cycle `c`, the operations `later` left, with no turn listed. -/
def State.inCycle (s : State) (c : Cycle) (later : List CycleOp) (ls : Lines) (evs : List Event) (u : PeerDrive)
    (n : Nat) : State :=
  advance { c with later := later } (s.midCycle ls evs [] u n)

theorem inCycle_lines (s : State) (c : Cycle) (later : List CycleOp) (ls : Lines) (evs : List Event) (u : PeerDrive) (n : Nat) :
    (s.inCycle c later ls evs u n).lines = ls := advance_lines _ _

/-- An effective operation comes next: the engine enters it, and the cycle does not end. -/
theorem advance_cons {c : Cycle} {s : State} {o : CycleOp} {os : List CycleOp} (hf : s.fault = none)
    (hr : redundant s.lines o.op = false) :
    advance { c with later := o :: os } s = { s with
      cycle := some { c with now := o, later := os }, phase := o.phase, polls := pollsEntering o.op s.polls } := by
  simp [advance, hf, hr]

theorem peerMove_advance (d : PeerDrive) (c : Cycle) (s : State) :
    peerMove d (advance c s) = advance c (peerMove d s) := by
  have hf : (peerMove d s).fault = s.fault := rfl
  have hl : (peerMove d s).lines = s.lines := rfl
  unfold advance
  rw [hf, hl]
  repeat' split
  all_goals rfl

/-- A sample of ACK that reads the awaited level, as one step. -/
theorem step_waitAck {c : Cycle} {s : State} {k : Nat} {p : Phase} {b : Level} {tail : List CycleOp} {ts : List Turn}
    (h : CoreNext s ts) (hp : s.env.peer.ack = some b) :
    step (advance { c with later := ⟨k, p, .waitAck b⟩ :: tail } s) = .next (advance { c with later := tail } { s with
      polls := 0
      trace := s.trace ++ [.evGet .ack b]
      env := { s.env with turns := ts } }) := by
  rw [step_advance h rfl]
  simp only [engineStep, pollsEntering]
  rw [getLine_driven (l := .ack) (b := b) (operating_of (by exact h.up) (by exact h.fault)) rfl (by exact hp)]
  simp only [if_true]
  congr 1
  exact advance_congr (s := { s with
      polls := 0, trace := s.trace ++ [.evGet .ack b], env := { s.env with turns := ts } }) rfl rfl rfl h.fault _ p

section
variable {s : State} {c : Cycle} {k : Nat} {p : Phase} {tail : List CycleOp} {ls : Lines} {evs : List Event}
  {u : PeerDrive} {n : Nat} {e : EchoPeer}

/-- The pair's step inside a cycle. -/
theorem echo_inCycle {later : List CycleOp} {t : State} (h : step (s.inCycle c later ls evs (e.drive ls) n) = .next t) :
    echoRun 1 ⟨s.inCycle c later ls evs u n, e⟩ = .next ⟨t, e.react ls t.lines⟩ := by
  have hl : (s.inCycle c later ls evs u n).lines = ls := inCycle_lines _ _ _ _ _ _ _
  have hm : peerMove (e.drive ls) (s.inCycle c later ls evs u n) = s.inCycle c later ls evs (e.drive ls) n :=
    peerMove_advance _ _ _
  rw [← hm] at h
  have hecho := echoStep_next (e := e) (s := s.inCycle c later ls evs u n) (t := t) (by rw [hl]; exact h)
  rw [hl] at hecho
  exact echoRun_succ hecho 0

/-- `SetLine(REQ, b)` against F-ECHO. -/
theorem echo_setReq (h : s.Cycling) (hd : ls.req.dir = .output) (b : Level) :
    echoRun 1 ⟨s.inCycle c (cycleStep k p [.setLine .req b] ++ tail) ls evs u n, e⟩ =
      .next ⟨s.inCycle c tail { ls with req := ⟨.output, b⟩ } (evs ++ [.evSet .req b]) (e.drive ls) n,
        e.react ls { ls with req := ⟨.output, b⟩ }⟩ := by
  have hstep := step_setLine (c := c) (k := k) (p := p) (l := .req) (b := b) (tail := tail) (ts := [])
    (s := s.midCycle ls evs [] (e.drive ls) n) ⟨h.up, h.scan, h.fault, .inr ⟨rfl, rfl⟩⟩ hd
  refine (echo_inCycle (u := u) hstep).trans ?_
  simp only [State.inCycle, State.midCycle, advance_lines, Lines.set, List.append_assoc]

/-- A sample of ACK that reads the level F-ECHO drives, the awaited one. -/
theorem echo_wait (h : s.Cycling) (hk : s.polls = 0) {b : Level} (hb : (e.drive ls).ack = some b) :
    echoRun 1 ⟨s.inCycle c (cycleStep k p [.waitAck b] ++ tail) ls evs u n, e⟩ =
      .next ⟨s.inCycle c tail ls (evs ++ [.evGet .ack b]) (e.drive ls) n, e⟩ := by
  have hstep := step_waitAck (c := c) (k := k) (p := p) (b := b) (tail := tail) (ts := [])
    (s := s.midCycle ls evs [] (e.drive ls) n) ⟨h.up, h.scan, h.fault, .inr ⟨rfl, rfl⟩⟩ hb
  have hreact : e.react ls (State.inCycle s c tail ls (evs ++ [.evGet .ack b]) (e.drive ls) n).lines = e :=
    react_of_req (congrArg Lines.req (inCycle_lines _ _ _ _ _ _ _))
  refine (echo_inCycle (u := u) hstep).trans ?_
  rw [← hk, State.midCycle, List.append_assoc]
  exact congrArg (fun e' => Host.Outcome.next (EchoSystem.mk _ e')) hreact

/-- Several operations that leave F-ECHO as it is. -/
theorem echo_unmoved (h : s.Cycling) {c' : Cycle} {o o' : CycleOp} {os os' : List CycleOp} {ls' : Lines}
    {evs' : List Event} {m n' : Nat} (hi : (s.inCycle c (o :: os) ls evs (e.drive ls) n).Inv)
    (ho : redundant ls o.op = false) (ho' : redundant ls' o'.op = false)
    (hrun : runSteps m (advance { c with later := o :: os }
        (s.midCycle ls evs (List.replicate m Turn.core) (e.drive ls) n)) =
      .next (advance { c' with later := o' :: os' } (s.midCycle ls' (evs ++ evs') [] (e.drive ls) n')))
    (he : e.unmovedBy evs') :
    echoRun m ⟨s.inCycle c (o :: os) ls evs (e.drive ls) n, e⟩ =
      .next ⟨s.inCycle c' (o' :: os') ls' (evs ++ evs') (e.drive ls) n', e⟩ := by
  have hwith : ∀ (ts : List Turn) (c : Cycle) (later : List CycleOp) (ls : Lines) (evs : List Event) (u : PeerDrive)
      (n : Nat), (s.inCycle c later ls evs u n).withTurns ts = advance { c with later := later } (s.midCycle ls evs ts u n) :=
    fun ts _ _ _ _ _ _ => (advance_withTurns ts _ _).symm
  rw [← hwith] at hrun
  obtain ⟨evs'', htr, hecho⟩ := echoRun_of_runSteps e hi hrun
  have hs : (s.inCycle c (o :: os) ls evs (e.drive ls) n).trace = s.trace ++ evs := by
    rw [State.inCycle, advance_cons (by exact h.fault) ho]
    rfl
  have ht : (advance { c' with later := o' :: os' } (s.midCycle ls' (evs ++ evs') [] (e.drive ls) n')).trace =
      s.trace ++ evs ++ evs' := by
    rw [advance_cons (by exact h.fault) ho', List.append_assoc]
    rfl
  rw [ht, hs] at htr
  obtain rfl := List.append_cancel_left htr
  have hp : (s.inCycle c (o :: os) ls evs (e.drive ls) n).env.peer =
      e.drive (s.inCycle c (o :: os) ls evs (e.drive ls) n).lines := by
    rw [State.inCycle, advance_cons (by exact h.fault) ho]
    rfl
  have hrun' := hecho hp he
  rw [hwith, ← advance_withTurns] at hrun'
  exact hrun'

end

end Sys2Proof.Machine
end

section
/-! SUPPORT. The write cycle and the read cycle against F-ECHO, part after part, and O60 (rules R37, R81 to R84; log 32). -/
namespace Sys2Proof.Machine

/-! ### Events that F-ECHO does not react to -/

theorem unmovedBy_addressEvents {e : EchoPeer} (he : e.drv = false) (a : Byte) : e.unmovedBy (setBusEvents addrBus a) := by
  simp [EchoPeer.unmovedBy, he, setBusEvents, addrBus, bitsMsbFirst, Event.drives]

theorem unmovedBy_dataEvents (e : EchoPeer) (d : Byte) : e.unmovedBy (setBusEvents dataBus d) := by
  simp [EchoPeer.unmovedBy, setBusEvents, dataBus, bitsMsbFirst, Event.drives]

theorem unmovedBy_sampleEvents (e : EchoPeer) (r : Byte) : e.unmovedBy (getBusEvents dataBus r) := by
  simp [EchoPeer.unmovedBy, getBusEvents, dataBus, bitsMsbFirst, Event.drives]

theorem unmovedBy_turnEvents (e : EchoPeer) (ls : Lines) (d : Direction) :
    e.unmovedBy ((turningLines ls d).map fun l => Event.evDir l d) := by
  have hdata : ∀ l ∈ dataBus, l ≠ .req ∧ ∀ n, l ≠ .addr n := by simp [dataBus]
  intro ev hev
  obtain ⟨l, hl, rfl⟩ := List.mem_map.1 hev
  obtain ⟨hreq, haddr⟩ := hdata l (List.mem_of_mem_filter hl)
  exact ⟨by simpa [Event.drives] using hreq, fun _ n => by simpa [Event.drives] using haddr n⟩

theorem EchoPeer.unmovedBy.append {e : EchoPeer} {evs evs' : List Event} (h : e.unmovedBy evs) (h' : e.unmovedBy evs') :
    e.unmovedBy (evs ++ evs') :=
  List.forall_mem_append.2 ⟨h, h'⟩

/-! ### How F-ECHO reacts to REQ -/

section
variable {m : Memory} {ls : Lines}

/-- REQ rises in a write cycle: F-ECHO stores the byte (P2). -/
theorem react_writeRequest (h : ls.req.out = false) (hd : ls.dir.out = true) :
    EchoPeer.react ls { ls with req := ⟨.output, true⟩ } ⟨m, false, false⟩ =
      ⟨Memory.write (busByte ls.addr).toNat (busByte ls.data) m, true, false⟩ := by
  simp [EchoPeer.react, h, hd]

/-- REQ rises in a read cycle: F-ECHO drives the byte (P3). -/
theorem react_readRequest (h : ls.req.out = false) (hd : ls.dir.out = false) :
    EchoPeer.react ls { ls with req := ⟨.output, true⟩ } ⟨m, false, false⟩ = ⟨m, true, true⟩ := by
  simp [EchoPeer.react, h, hd]

/-- REQ falls: F-ECHO lets go (P4). -/
theorem react_release (b : Bool) (h : ls.req.out = true) :
    EchoPeer.react ls { ls with req := ⟨.output, false⟩ } ⟨m, true, b⟩ = ⟨m, false, false⟩ := by
  simp [EchoPeer.react, h]

end

/-! ### The parts of the two cycles -/

/-- Steps 2 and 3 of the write cycle, before the operations `tail` (rule R81). -/
def writeLineOps (a d : Byte) (tail : List CycleOp) : List CycleOp :=
  cycleStep 2 .idle (setBusOps addrBus a)
    ++ (cycleStep 3 .idle (dataBus.map fun l => .setDir l .output) ++ (cycleStep 3 .idle (setBusOps dataBus d) ++ tail))

/-- Steps 4 to 7 of the write cycle (rule R81). -/
def writeRequestOps : List CycleOp :=
  cycleStep 4 .addressAndDataAsserted [.setLine .req true] ++ (cycleStep 5 .requestAsserted [.waitAck true]
    ++ (cycleStep 6 .peerAcknowledged [.setLine .req false] ++ (cycleStep 7 .requestDeasserted [.waitAck false] ++ [])))

/-- Steps 2 and 3 of the read cycle, before the operations `tail` (rule R82). -/
def readLineOps (a : Byte) (tail : List CycleOp) : List CycleOp :=
  cycleStep 2 .idle (setBusOps addrBus a) ++ (cycleStep 3 .idle (dataBus.map fun l => .setDir l .input) ++ tail)

/-- Steps 4 to 8 of the read cycle (rule R82). -/
def readRequestOps : List CycleOp :=
  cycleStep 4 .addressAndDataAsserted [.setLine .req true] ++ (cycleStep 5 .requestAsserted [.waitAck true]
    ++ (cycleStep 6 .peerAcknowledged (dataBus.map .getLine) ++ (cycleStep 7 .peerAcknowledged [.setLine .req false]
    ++ (cycleStep 8 .requestDeasserted [.waitAck false] ++ []))))

theorem laterOps_write_parts (a d : Byte) : laterOps (.write a d) = writeLineOps a d writeRequestOps := laterOps_write a d

theorem laterOps_read_parts (a : Byte) : laterOps (.read a) = readLineOps a readRequestOps := laterOps_read a

section
variable {s : State} {c : Cycle} {ls : Lines} {evs : List Event} {u : PeerDrive} {n k : Nat} {p : Phase} {m : Memory}
  {tail : List CycleOp}

/-- A `GetBus(DATA)` of the byte the peer drives (rule R71). -/
theorem midCycle_sample (h : s.Cycling) (hd : ls.dataAll .input) {r : Byte} (b : Level) :
    runSteps 8 (advance { c with later := cycleStep k p (dataBus.map .getLine) ++ tail }
        (s.midCycle ls evs (List.replicate 8 Turn.core) (PeerDrive.acking b r) n)) =
      .next (advance { { c with byte := r } with later := tail }
        (s.midCycle ls (evs ++ getBusEvents dataBus r) [] (PeerDrive.acking b r) n)) := by
  refine (run_sample (c := c) (ts := []) (r := r)
    (s := s.midCycle ls evs (List.replicate 8 Turn.core) (PeerDrive.acking b r) n) h.up h.scan h.fault rfl hd ?_).trans ?_
  · intro i
    fin_cases i <;> rfl
  · simp only [State.midCycle, List.append_assoc]

/-- Steps 2 and 3 of a write cycle against F-ECHO (rule R81). -/
theorem echo_writeLines (h : s.Cycling) (hd : ∀ n : Fin 8, ls.addr[n].dir = .output) (a d : Byte)
    (hk : (turningLines ls .output).length = k)
    (hi : (s.inCycle c (writeLineOps a d writeRequestOps) ls evs (EchoPeer.drive ⟨m, false, false⟩ ls) n).Inv) :
    ∃ evs' n', echoRun (8 + (k + 8)) ⟨s.inCycle c (writeLineOps a d writeRequestOps) ls evs
        (EchoPeer.drive ⟨m, false, false⟩ ls) n, ⟨m, false, false⟩⟩ =
      .next ⟨s.inCycle c writeRequestOps { ls with addr := busLines .output a, data := busLines .output d } evs'
        (EchoPeer.drive ⟨m, false, false⟩ ls) n', ⟨m, false, false⟩⟩ := by
  have hk' : (turningLines { ls with addr := busLines .output a } .output).length = k :=
    (congrArg _ (turningLines_data .output rfl)).trans hk
  have hrun := runSteps_append
    (midCycle_address (s := s) (c := c) (k := 2) (p := .idle) (evs := evs) (u := EchoPeer.drive ⟨m, false, false⟩ ls) (n := n)
      (ts := List.replicate k Turn.core ++ (List.replicate 8 Turn.core ++ [])) h hd a)
    (midCycle_dataOut (k := 3) (p := .idle) (tail := writeRequestOps) h d hk')
  rw [List.append_nil, ← List.replicate_add, ← List.replicate_add, List.append_assoc] at hrun
  exact ⟨_, _, echo_unmoved (e := ⟨m, false, false⟩) h hi rfl rfl hrun
    ((unmovedBy_addressEvents rfl a).append ((unmovedBy_turnEvents _ _ _).append (unmovedBy_dataEvents _ d)))⟩

/-- Steps 4 to 7 of a write cycle against F-ECHO, which stores the byte on the data lines (rule R81). -/
theorem echo_writeRequest (h : s.Cycling) (hk : s.polls = 0) (hd : ls.req.dir = .output) (hr : ls.req.out = false)
    (hw : ls.dir.out = true) :
    ∃ evs' u', echoRun 4 ⟨s.inCycle c writeRequestOps ls evs u n, ⟨m, false, false⟩⟩ =
      .next ⟨s.inCycle c [] { ls with req := ⟨.output, false⟩ } evs' u' n,
        ⟨Memory.write (busByte ls.addr).toNat (busByte ls.data) m, false, false⟩⟩ := by
  have hrise := echo_setReq (e := ⟨m, false, false⟩) (c := c) (k := 4) (p := .addressAndDataAsserted) (evs := evs) (u := u)
    (n := n) (tail := cycleStep 5 .requestAsserted [.waitAck true] ++ (cycleStep 6 .peerAcknowledged [.setLine .req false]
      ++ (cycleStep 7 .requestDeasserted [.waitAck false] ++ []))) h hd true
  rw [react_writeRequest hr hw] at hrise
  have hfall := fun evs u => echo_setReq (e := ⟨Memory.write (busByte ls.addr).toNat (busByte ls.data) m, true, false⟩)
    (ls := { ls with req := ⟨.output, true⟩ }) (c := c) (k := 6) (p := .peerAcknowledged) (evs := evs) (u := u)
    (n := n) (tail := cycleStep 7 .requestDeasserted [.waitAck false] ++ []) h rfl false
  simp only [react_release (ls := { ls with req := ⟨.output, true⟩ }) false rfl] at hfall
  exact ⟨_, _, echoRun_append hrise (echoRun_append (echo_wait h hk rfl) (echoRun_append (hfall _ _) (echo_wait h hk rfl)))⟩

/-- Steps 2 and 3 of a read cycle against F-ECHO (rule R82). -/
theorem echo_readLines (h : s.Cycling) (hd : ∀ n : Fin 8, ls.addr[n].dir = .output) (a : Byte)
    (hk : (turningLines ls .input).length = k)
    (hi : (s.inCycle c (readLineOps a readRequestOps) ls evs (EchoPeer.drive ⟨m, false, false⟩ ls) n).Inv) :
    ∃ evs', echoRun (8 + k) ⟨s.inCycle c (readLineOps a readRequestOps) ls evs (EchoPeer.drive ⟨m, false, false⟩ ls) n,
        ⟨m, false, false⟩⟩ =
      .next ⟨s.inCycle c readRequestOps { ls with addr := busLines .output a, data := allInput ls.data } evs'
        (EchoPeer.drive ⟨m, false, false⟩ ls) n, ⟨m, false, false⟩⟩ := by
  have hk' : (turningLines { ls with addr := busLines .output a } .input).length = k :=
    (congrArg _ (turningLines_data .input rfl)).trans hk
  have hrun := runSteps_append
    (midCycle_address (s := s) (c := c) (k := 2) (p := .idle) (evs := evs) (u := EchoPeer.drive ⟨m, false, false⟩ ls) (n := n)
      (ts := List.replicate k Turn.core ++ []) h hd a)
    (midCycle_dataIn (k := 3) (p := .idle) (tail := readRequestOps) h hk')
  rw [List.append_nil, ← List.replicate_add, List.append_assoc] at hrun
  exact ⟨_, echo_unmoved (e := ⟨m, false, false⟩) h hi rfl rfl hrun
    ((unmovedBy_addressEvents rfl a).append (unmovedBy_turnEvents _ _ _))⟩

/-- The samples of a read cycle: the byte F-ECHO drives (rule R84). -/
theorem echo_sample {o : CycleOp} {os : List CycleOp} (h : s.Cycling) (hd : ls.dataAll .input)
    (ho : redundant ls o.op = false)
    (hi : (s.inCycle c (cycleStep k p (dataBus.map .getLine) ++ o :: os) ls evs (EchoPeer.drive ⟨m, true, true⟩ ls) n).Inv) :
    ∃ evs', echoRun 8 ⟨s.inCycle c (cycleStep k p (dataBus.map .getLine) ++ o :: os) ls evs
        (EchoPeer.drive ⟨m, true, true⟩ ls) n, ⟨m, true, true⟩⟩ =
      .next ⟨s.inCycle { c with byte := Memory.read m (busByte ls.addr).toNat } (o :: os) ls evs'
        (EchoPeer.drive ⟨m, true, true⟩ ls) n, ⟨m, true, true⟩⟩ :=
  ⟨_, echo_unmoved (e := ⟨m, true, true⟩) (ls := ls)
    (c' := { c with byte := Memory.read m (busByte ls.addr).toNat }) h hi rfl ho
    (midCycle_sample h hd true) (unmovedBy_sampleEvents _ _)⟩

/-- Steps 4 to 8 of a read cycle against F-ECHO, which drives the byte it holds (rule R82). -/
theorem echo_readRequest (h : s.Cycling) (hk : s.polls = 0) (hd : ls.req.dir = .output) (hr : ls.req.out = false)
    (hw : ls.dir.out = false) (hin : ls.dataAll .input) (hi : (s.inCycle c readRequestOps ls evs u n).Inv) :
    ∃ evs' u', echoRun 12 ⟨s.inCycle c readRequestOps ls evs u n, ⟨m, false, false⟩⟩ =
      .next ⟨s.inCycle { c with byte := Memory.read m (busByte ls.addr).toNat } [] { ls with req := ⟨.output, false⟩ }
        evs' u' n, ⟨m, false, false⟩⟩ := by
  have hrise := echo_setReq (e := ⟨m, false, false⟩) (c := c) (k := 4) (p := .addressAndDataAsserted) (evs := evs) (u := u)
    (n := n) (tail := cycleStep 5 .requestAsserted [.waitAck true] ++ (cycleStep 6 .peerAcknowledged (dataBus.map .getLine)
      ++ (cycleStep 7 .peerAcknowledged [.setLine .req false]
      ++ (cycleStep 8 .requestDeasserted [.waitAck false] ++ [])))) h hd true
  rw [react_readRequest hr hw] at hrise
  have hwait := echoRun_append hrise (echo_wait (b := true) h hk rfl)
  obtain ⟨evs', hsample⟩ := echo_sample h (by exact hin) rfl (echoRun_inv hi hwait)
  have hfall := fun c evs u => echo_setReq (e := ⟨m, true, true⟩) (s := s)
    (ls := { ls with req := ⟨.output, true⟩ }) (c := c) (k := 7) (p := .peerAcknowledged) (evs := evs) (u := u)
    (n := n) (tail := cycleStep 8 .requestDeasserted [.waitAck false] ++ []) h rfl false
  simp only [react_release (ls := { ls with req := ⟨.output, true⟩ }) true rfl] at hfall
  exact ⟨_, _, echoRun_append hwait (echoRun_append hsample (echoRun_append (hfall _ _ _) (echo_wait h hk rfl)))⟩

end

end Sys2Proof.Machine
end

section
/-! SUPPORT. A WRITE and a READ against F-ECHO, whole, and O60 (rules R37, R81 to R84, R97, R98; log 32). -/
namespace Sys2Proof.Machine

/-! ### A cycle begins and ends -/

/-- The cursor moved over a row and the draws left: what the step that begins a cycle leaves outside the engine (rule R97). -/
def State.consumed (s : State) (len : Nat) (sc : Scan) (rs : List ResourceDraw) : State :=
  { s with scan := some { sc with pc := sc.pc + len }, env := { s.env with resourceDraws := rs } }

/-- A READ or WRITE at the cursor begins its cycle, and F-ECHO has nothing to react to. -/
theorem echo_begin {s : State} {sc : Scan} {e : EchoPeer} {len : Nat} {tx : BusTransaction} {i : Instr} {rest : List Byte}
    {rs : List ResourceDraw} (hr : s.Ready) (hs : s.scan = some sc)
    (hd : decodeNext (sc.buf.drop sc.pc) = .ok (i, rest)) (hx : ∀ s, exec i s = transfer len tx s)
    (ht : s.env.turns = []) (hrs : s.env.resourceDraws = .ok :: rs) :
    echoRun 1 ⟨s, e⟩ = .next ⟨(s.consumed len sc rs).inCycle (Cycle.start tx) (laterOps tx)
      { s.lines with dir := ⟨.output, tx.isWrite⟩ } [.evBegin tx, .evSet .dir tx.isWrite] (e.drive s.lines) s.env.drawn,
      e⟩ := by
  have hdraw : drawResource (peerMove (e.drive s.lines) s) =
      (.ok, { s with env := { s.env with peer := e.drive s.lines, resourceDraws := rs } }) := by
    simp [drawResource, hrs]
  have hbegin := beginCycle_midCycle tx (s := { s with
      scan := some { sc with pc := sc.pc + len }
      env := { s.env with peer := e.drive s.lines, resourceDraws := rs } }) ⟨hr.running, nofun, hr.fault⟩ hr.fixed.dir
  have hstep : step (peerMove (e.drive s.lines) s) = .next _ := calc
    step (peerMove (e.drive s.lines) s) = coreStep (peerMove (e.drive s.lines) s) := step_idleTurns ht
    _ = exec i (peerMove (e.drive s.lines) s) := coreStep_row hr.running hs hr.fault hr.cycle hd
    _ = transfer len tx (peerMove (e.drive s.lines) s) := hx _
    _ = _ := transfer_ok ⟨hr.running, hr.phase, hr.cycle, hr.fault, hr.wedged, hr.fixed⟩ hs hdraw
  rw [hbegin, ht] at hstep
  exact echoRun_of_step hstep (by rw [inCycle_lines])

/-- After its last operation the cycle ends (rule R78). -/
theorem inCycle_nil {s : State} (hf : s.fault = none) (c : Cycle) (ls : Lines) (evs : List Event) (u : PeerDrive) (n : Nat) :
    s.inCycle c [] ls evs u n = finishCycle c (s.midCycle ls evs [] u n) := by
  have hf' : (s.midCycle ls evs [] u n).fault = none := hf
  simp only [State.inCycle, advance, hf']
  rfl

/-! ### The two instructions -/

section
variable {s : State} {sc : Scan} {o a v : Byte} {tail : List Byte} {rs : List ResourceDraw} {m : Memory} (hi : s.Inv)
  (hs : s.scan = some sc) (hc : s.cycle = none) (ht : s.env.turns = []) (hrs : s.env.resourceDraws = .ok :: rs)
include hi hs hc ht hrs

/-- A WRITE against F-ECHO stores its byte. -/
theorem echo_write (hb : sc.buf.drop sc.pc = o :: a :: v :: tail) (ho : opcodeSelects o = true) :
    ∃ t, echoRun (1 + ((8 + ((turningLines s.lines .output).length + 8)) + 4)) ⟨s, ⟨m, false, false⟩⟩ =
        .next ⟨t, ⟨Memory.write a.toNat v m, false, false⟩⟩ ∧
      t.scan = some { sc with pc := sc.pc + 3 } ∧ t.cycle = none ∧ t.env.turns = [] ∧ t.env.resourceDraws = rs ∧
      t.lines.dataAll .output := by
  have hr := hi.ready (hs ▸ nofun) hc
  have hcyc : (s.consumed 3 sc rs).Cycling := ⟨hr.running, nofun, hr.fault⟩
  have hreq : s.lines.req.out = false := by rw [hi.req, hr.phase]; rfl
  have hbegin := echo_begin (e := ⟨m, false, false⟩) hr hs (hb ▸ decodeNext_write ho a v tail) (fun _ => rfl) ht hrs
  rw [laterOps_write_parts] at hbegin
  obtain ⟨evs, n, hlines⟩ := echo_writeLines (ls := { s.lines with dir := ⟨.output, true⟩ }) hcyc (by exact hr.fixed.addr) a v
    (congrArg _ (turningLines_data (ls' := s.lines) .output rfl)) (echoRun_inv hi hbegin)
  obtain ⟨evs', u, hrequest⟩ := echo_writeRequest (s := s.consumed 3 sc rs)
    (ls := { s.lines with dir := ⟨.output, true⟩, addr := busLines .output a, data := busLines .output v })
    hcyc (hi.polls hc) hr.fixed.req hreq rfl
  have hrun := echoRun_append hbegin (echoRun_append hlines hrequest)
  rw [inCycle_nil hcyc.fault, busByte_busLines, busByte_busLines] at hrun
  exact ⟨_, hrun, rfl, rfl, rfl, rfl, fun n => congrArg LineState.dir (busLines_get .output v n)⟩

/-- A READ against F-ECHO appends the byte stored. -/
theorem echo_read (hb : sc.buf.drop sc.pc = o :: a :: tail) (ho : opcodeSelects o = false) :
    ∃ t, echoRun (1 + ((8 + (turningLines s.lines .input).length) + 12)) ⟨s, ⟨m, false, false⟩⟩ =
        .next ⟨t, ⟨m, false, false⟩⟩ ∧
      t.scan = some { sc with pc := sc.pc + 2, results := sc.results ++ [Memory.read m a.toNat] } ∧
      t.phase = .idle ∧ t.cycle = none ∧ t.lines.req.out = false ∧ t.lines.dataAll .input := by
  have hr := hi.ready (hs ▸ nofun) hc
  have hcyc : (s.consumed 2 sc rs).Cycling := ⟨hr.running, nofun, hr.fault⟩
  have hreq : s.lines.req.out = false := by rw [hi.req, hr.phase]; rfl
  have hbegin := echo_begin (e := ⟨m, false, false⟩) hr hs (hb ▸ decodeNext_read ho a tail) (fun _ => rfl) ht hrs
  rw [laterOps_read_parts] at hbegin
  obtain ⟨evs, hlines⟩ := echo_readLines (ls := { s.lines with dir := ⟨.output, false⟩ }) hcyc (by exact hr.fixed.addr) a
    (congrArg _ (turningLines_data (ls' := s.lines) .input rfl)) (echoRun_inv hi hbegin)
  have hrun := echoRun_append hbegin hlines
  have hin : ∀ n : Fin 8, (allInput s.lines.data)[n].dir = .input := dataAll_allInput s.lines.data
  obtain ⟨evs', u, hrequest⟩ := echo_readRequest (s := s.consumed 2 sc rs)
    (ls := { s.lines with dir := ⟨.output, false⟩, addr := busLines .output a, data := allInput s.lines.data })
    hcyc (hi.polls hc) hr.fixed.req hreq rfl hin (echoRun_inv hi hrun)
  have hrun := echoRun_append hbegin (echoRun_append hlines hrequest)
  rw [inCycle_nil hcyc.fault, busByte_busLines] at hrun
  exact ⟨_, hrun, rfl, rfl, rfl, rfl, hin⟩

end

/-- Every data line turns In after a WRITE. -/
theorem turningLines_input {ls : Lines} (h : ls.dataAll .output) : turningLines ls .input = dataBus := by
  have hd : ∀ n : Fin 8, (ls.get (.data n)).dir = .output := h
  simp [turningLines, dataBus, hd]

/-- Settles O60: the WRITE stores the value, and the READ, from the state it leaves, appends it. -/
theorem echoRoundTrip : Obligations.EchoRoundTrip := by
  intro s sc m o o' a v tail rs hi hr hs hb ho ho' hm ht hrs
  obtain ⟨w, hwrite, hws, hwc, hwt, hwr, hwd⟩ := echo_write (m := m) hi hs hr.cycle ht hrs hb ho
  have hb' : sc.buf.drop (sc.pc + 3) = o' :: a :: tail := by rw [← List.drop_drop, hb]; rfl
  obtain ⟨t, hread, hts, htp, htc, htr, htd⟩ :=
    echo_read (m := Memory.write a.toNat v m) (echoRun_inv hi hwrite) hws hwc hwt hwr hb' ho'
  rw [Memory_read_write _ _ hm] at hts
  have hrun := echoRun_append hwrite hread
  have hturn : (turningLines w.lines .input).length = 8 := congrArg List.length (turningLines_input hwd)
  rw [hturn, show ∀ k, 1 + ((8 + (k + 8)) + 4) + (1 + ((8 + 8) + 12)) = 50 + k by omega] at hrun
  exact ⟨t, hrun, hts, htp, htc, htr, htd⟩

end Sys2Proof.Machine
end
